-- ==== Sys2Proof/Word.lean ====
section
/-! DEFINITION. The word, the byte, the operand buffer and the slot number (R5, R7, R22). -/

namespace Sys2Proof

/-- A byte, as a word is serialized into four of them (R52). -/
abbrev Byte := BitVec 8

/-- The word: `W = 32` bits (R5). -/
abbrev Word := BitVec 32

/-- An operand buffer: words, least significant first (R7, R51). Its length is `wc`. -/
abbrev Buf := List Word

/-- A context slot number, `0 .. N_CTX - 1` with `N_CTX = 16` (R6, R22). -/
abbrev SlotNo := Fin 16

end Sys2Proof
end

