-- ==== Sys2Proof/Config.lean ====
section
/-! DEFINITION. The parameters of the model (R6) and the free values (R12): constants without a body. -/

namespace Sys2Proof

/-- Reduction passes of one hardware multiply (R120, R122): two in mode MODMUL, one in mode MONTMUL. -/
inductive Passes where
  | one
  | two
deriving DecidableEq, Repr

/-- `P_UNREDUCED` (R6, D10): what a multiply gives when an operand is not below the modulus. -/
inductive Unreduced where
  | exact
  | draw
deriving DecidableEq, Repr

/-- The parameters of R6 that the source leaves to the implementation, arguments of the model.
`State.cfg` holds one of these; no step writes it. DESIGN CHOICE, safe: assumption log 1. -/
structure Config where
  /-- `G`, the hardware block granularity in words. -/
  blockWords : Nat
  /-- `HW_MAX_WORDS`, the largest hardware word count the unit accepts. -/
  hwMaxWords : Nat
  /-- `N_CALLERS`. -/
  nCallers : Nat
  /-- `P_EXP_PASSES`. -/
  expPasses : Passes
  /-- `P_UNREDUCED`. -/
  unreduced : Unreduced
deriving DecidableEq, Repr

/-- The ranges R6 gives the open parameters. -/
def Config.ok (c : Config) : Bool :=
  decide (1 ≤ c.blockWords) && decide (128 ≤ c.hwMaxWords) && decide (1 ≤ c.nCallers)

/-- The spec's defaults (R6), and `G = 16`, the value every example of the spec uses.
`G` is PRESUMED (K1, general knowledge): assumption log 2, unsafe for a statement that rests on it. -/
def Config.default : Config :=
  { blockWords := 16, hwMaxWords := 128, nCallers := 1, expPasses := .one, unreduced := .exact }

/-! The free values: what a draw gives when no answer is supplied in `State.draws` (R12, assumption log 3).
Each is applied to the number of draws taken before, so that every draw is fresh. -/

/-- `szOk` of the n-th draw (R123). -/
opaque Config.freeSzOk : Nat → Bool

/-- `allocOk` of the n-th draw (R104). -/
opaque Config.freeAllocOk : Nat → Bool

/-- Word `i` of the buffer of the n-th draw (R12, R122; R106 for a destroyed context). -/
opaque Config.freeWord : Nat → Nat → Word

/-- Natural number `i` of the n-th draw (the scalars of a destroyed context, R106). -/
opaque Config.freeNat : Nat → Nat → Nat

/-- The caller the scheduler picks at the n-th draw (R13, R213; assumption log 4). -/
opaque Config.freePick : Nat → Nat

/-- The patience the scheduler gives a caller at the n-th draw (R243; assumption log 4). -/
opaque Config.freePatience : Nat → Nat

/-- The patience caller `c` has at reset (R243; assumption log 4). -/
opaque Config.freeFirstPatience : Nat → Nat

end Sys2Proof
end

