-- ==== Sys2Proof/Machine/State.lean ====
section
/-! DEFINITION. The state of the block (R20): plain data, and its value after reset (R35). -/

namespace Sys2Proof.Machine

/-- Why `step` gives no next state. The spec's own faults and refusals (R202, R203) stop one caller and
leave a record in `S.FAULTS` or `S.REFUSED`: they are next states, not these (assumption log 6). -/
inductive Fault where
  /-- Raised by `step` alone: the run has finished (R242): every caller has returned from the last
  command of its stream, with no fault and no refusal recorded. Safe: no command is cut short. -/
  | runFinished
  /-- Raised by `step` alone: the run has ended without finishing (R242): no caller has an enabled
  step, and a caller is faulted, refused or stuck (R204). Safe: nothing can be concluded past it. -/
  | runBlocked
deriving DecidableEq, Repr

/-- Refusals of the model itself. The spec's refusal kinds are `RefusalKind` (R203). -/
inductive Refusal where
  /-- Raised by an arm of `exec` whose command has no meaning yet. No arm does. Safe. -/
  | notModelled (mnemonic : String)
deriving DecidableEq, Repr

/-- Status codes a command returns (R201). -/
inductive Status where
  | ok
  | invalidModulus
  | hardwareFault
  | allocationFailure
deriving DecidableEq, Repr

/-- The value of a return record: none, a natural number, or a buffer (R73). -/
inductive RetValue where
  | none
  | scalar (n : Nat)
  | buffer (b : Buf)
deriving DecidableEq, Repr

/-- The return record `S.RET[c]` (R27, R73). -/
structure RetRecord where
  status : Status
  value : RetValue
deriving DecidableEq, Repr

/-- Fault kinds (R202). -/
inductive FaultKind where
  | badContext
  | slotInUse
  | contextBusy
  | lockNotHeld
  | unbalancedRelease
deriving DecidableEq, Repr

/-- Refusal kinds (R203). -/
inductive RefusalKind where
  | illegalCommand
  | reservedField
  | operandShape
deriving DecidableEq, Repr

/-- An entry of `S.FAULTS`: `(kind, caller, cp)` (R30). -/
structure FaultRecord where
  kind : FaultKind
  caller : Nat
  cp : Nat
deriving DecidableEq, Repr

/-- An entry of `S.REFUSED`: `(kind, caller, cp)` (R30). -/
structure RefusalRecord where
  kind : RefusalKind
  caller : Nat
  cp : Nat
deriving DecidableEq, Repr

/-- The mode of a hardware multiply, as `HWOP` names it (R31, R120). -/
inductive HwKind where
  | modmul
  | montmul
deriving DecidableEq, Repr

/-- An event of the history `S.EVT` (R31). -/
inductive Event where
  /-- Caller `c` acquires the multiplier. -/
  | acq (c : Nat)
  /-- Caller `c` releases the multiplier. -/
  | rel (c : Nat)
  /-- A hardware multiply by `c`: operand values `a`, `b`, modulus value `m`, result value `r`. -/
  | hwop (c : Nat) (kind : HwKind) (a b m r : Nat)
  /-- The liveness callback of caller `c` for exponent bit `i` (R154). -/
  | live (c i : Nat)
  /-- The end of a command of caller `c`. -/
  | ret (c : Nat) (status : Status)
deriving DecidableEq, Repr

/-- A context slot (R22). -/
structure Slot where
  valid : Bool
  M : Buf
  wc : Nat
  hw : Nat
  mprime : Word
  Rinv : Buf
  borrows : Nat
deriving DecidableEq, Repr

/-- A step of the exponentiation plan (R152). -/
inductive PlanEntry where
  | convx
  | initz
  | sqr (i : Nat)
  | mulx (i : Nat)
  | convout
deriving DecidableEq, Repr

/-- The registers of a running sequencer (R28). -/
structure SeqRun where
  slot : SlotNo
  X : Buf
  E : Nat
  L : Bool
  plan : List PlanEntry
  Xm : Option Buf
  Z : Option Buf
deriving DecidableEq, Repr

/-- The exponentiation sequencer `S.SEQ[c]` (R28). -/
inductive Seq where
  | idle
  | run (r : SeqRun)
deriving DecidableEq, Repr

/-- The operand record of a command (R72). -/
structure OperandRecord where
  A : Buf
  B : Buf
  C : Buf
  D : Buf
  P : Word
  S : Nat
deriving DecidableEq, Repr

/-- The operand record with nothing in it. -/
def OperandRecord.empty : OperandRecord := { A := [], B := [], C := [], D := [], P := 0#32, S := 0 }

/-- A command: its word and its operand record (R70). -/
structure Command where
  word : Word
  op : OperandRecord
deriving DecidableEq, Repr

/-- The private state of one caller: `S.CP[c]`, `S.RET[c]`, `S.SEQ[c]` (R20, R213), and its command
stream, which the spec makes a parameter (R20) and the model carries (assumption log 5). -/
structure Caller where
  cp : Nat
  ret : RetRecord
  seq : Seq
  stream : List Command
deriving DecidableEq, Repr

/-- The answers supplied for the free inputs of R12, each list taken head first, and the number of
draws taken; with a list empty, the draw is the opaque free value of Config at that number
(assumption log 3). The model's own field. -/
structure Draws where
  allocOk : List Bool
  szOk : List Bool
  bufs : List Buf
  picks : List Nat
  patiences : List Nat
  taken : Nat
deriving DecidableEq, Repr

/-- A caller's turn in the scheduler's queue: how many times more it may be passed over with an enabled
step before it is due (R243, assumption log 4). The model's own. -/
structure Turn where
  caller : Nat
  patience : Nat
deriving DecidableEq, Repr

/-- The block state (R20), and the model's own `cfg`, `cur`, `draws` and `turns`. -/
structure State where
  /-- The parameters of R6; no step writes them (assumption log 1). -/
  cfg : Config
  /-- `S.CTX` (R22). -/
  ctx : Vector Slot 16
  /-- `S.HOLDER` (R24). -/
  holder : Option Nat
  /-- `S.HW_EN` (R25). -/
  hwEn : Bool
  /-- `S.ACQ_COUNT` (R26). -/
  acqCount : Nat
  /-- `S.REL_COUNT` (R26). -/
  relCount : Nat
  /-- `S.CP`, `S.RET`, `S.SEQ` and the command stream of each caller. -/
  callers : List Caller
  /-- `S.FAULTS` (R30). -/
  faults : List FaultRecord
  /-- `S.REFUSED` (R30). -/
  refused : List RefusalRecord
  /-- `S.EVT`, oldest event first (R31). -/
  evt : List Event
  /-- The caller whose step is being taken (assumption log 15). -/
  cur : Nat
  /-- The free inputs (R12, assumption log 3). -/
  draws : Draws
  /-- The scheduler's queue, the caller that has waited longest first (R243, assumption log 4). -/
  turns : List Turn
deriving DecidableEq, Repr

/-- An empty slot (R35). `valid` and `borrows` are the spec's reset values; the other fields are
unspecified and unreadable there: DESIGN CHOICE, assumption log 9. -/
def Slot.reset : Slot :=
  { valid := false, M := [], wc := 0, hw := 0, mprime := 0#32, Rinv := [], borrows := 0 }

/-- A caller at reset (R35); its stream is empty: a program is loaded from outside (assumption log 5). -/
def Caller.reset : Caller :=
  { cp := 0, ret := { status := .ok, value := .none }, seq := .idle, stream := [] }

/-- No answer supplied and no draw taken: every draw is the opaque free value (assumption log 3). -/
def Draws.reset : Draws :=
  { allocOk := [], szOk := [], bufs := [], picks := [], patiences := [], taken := 0 }

/-- The turn of caller `c` at reset: its patience is a free value (assumption log 4). -/
def Turn.first (c : Nat) : Turn := { caller := c, patience := Config.freeFirstPatience c }

/-- The state after reset (R35), for every setting of the parameters. -/
def State.resetWith (cfg : Config) : State :=
  { cfg := cfg
    ctx := Vector.replicate 16 Slot.reset
    holder := none
    hwEn := false
    acqCount := 0
    relCount := 0
    callers := List.replicate cfg.nCallers Caller.reset
    faults := []
    refused := []
    evt := []
    cur := 0
    draws := Draws.reset
    turns := (List.range cfg.nCallers).map Turn.first }

/-- The machine right after reset (R35, R230), at the default parameters (R6; assumption log 2). -/
def State.reset : State := State.resetWith Config.default

end Sys2Proof.Machine
end

