-- ==== Sys2Proof/Machine/Operands.lean ====
section
/-! DEFINITION. Operand buffers and their values (R7, R8, R51, R53), and how the current command reads
its operand record (R72). -/

namespace Sys2Proof.Machine

/-- `val(b)`: the natural number a buffer holds, least significant word first (R7). -/
def val : Buf → Nat
  | [] => 0
  | w :: ws => w.toNat + 2 ^ 32 * val ws

/-- `wc(b)`: the word count of a buffer (R7). -/
def wc (b : Buf) : Nat := b.length

/-- `buf_h(v)`: the `h`-word buffer of value `v`, unused high words zero (R8, R51). The spec defines it
only for `v < 2^(32·h)`; above that it keeps the low `h` words (assumption log 14). -/
def bufOf : Nat → Nat → Buf
  | 0, _ => []
  | h + 1, v => BitVec.ofNat 32 v :: bufOf h (v / 2 ^ 32)

/-- `zext_h(b)`: a buffer extended with zero words to `h` words (R8, R53). -/
def zext (h : Nat) (b : Buf) : Buf := b ++ List.replicate (h - b.length) 0#32

/-- An arbitrary buffer brought to exactly `h` words: the shape of a drawn `anyBuf_h` (R12). Every
`h`-word buffer is its own image. -/
def fitBuf (h : Nat) (b : Buf) : Buf := zext h (b.take h)

/-- `bit(v, j)` (R8). -/
def bit (v j : Nat) : Bool := v.testBit j

/-- `msb(v)`, the largest `j` with `bit(v, j) = 1`; used only for `v > 0` (R8). -/
def msb (v : Nat) : Nat := Nat.log2 v

/-- `popcount(v)` (R8). -/
def popcount (v : Nat) : Nat := ((List.range (msb v + 1)).filter (bit v)).length

/-- The record of caller `c`. A number that is no caller's reads as an idle caller; no run reaches one
(assumption log 14). -/
def State.caller (s : State) (c : Nat) : Caller := s.callers.getD c Caller.reset

/-- The caller whose step is being taken. -/
def State.me (s : State) : Caller := s.caller s.cur

/-- The operand record of the current command: the one at the caller's command pointer (R37, R72). -/
def State.op (s : State) : OperandRecord :=
  match s.me.stream[s.me.cp]? with
  | some cmd => cmd.op
  | none => OperandRecord.empty

/-- Context slot `h` (R22). -/
def State.slot (s : State) (h : SlotNo) : Slot := s.ctx[h.val]

end Sys2Proof.Machine
end

