-- ==== Sys2Proof/Machine/Flags.lean ====
section
/-! DEFINITION. The block has no flags (R29): the outcome of a command is its status. Here stand the
status codes (R201) and the conditions the statuses, faults and refusals test. -/

namespace Sys2Proof.Machine

/-- The 8-bit code of a status (R73, R201). -/
def Status.code : Status → BitVec 8
  | .ok => 0
  | .invalidModulus => 1
  | .hardwareFault => 2
  | .allocationFailure => 3

/-- `InvalidModulus` (R104, R201): no words, or an even least significant word. -/
def badModulus (A : Buf) : Bool :=
  match A with
  | [] => true
  | m0 :: _ => m0.toNat % 2 == 0

/-- The sizing limits of R123, apart from the draw: `h = 0` or `h > HW_MAX_WORDS`. -/
def unsizable (cfg : Config) (h : Nat) : Bool := h == 0 || decide (cfg.hwMaxWords < h)

/-- Is one of these operands wider than `h` words? (R53, R203 `OperandShape`.) -/
def anyWider (h : Nat) (bs : List Buf) : Bool := bs.any (fun b => decide (h < wc b))

/-- Is the modulus odd and `p` its Montgomery constant? Otherwise the unit's result is drawn (R122). -/
def montgomeryOk (M : Nat) (p : Word) : Bool :=
  M % 2 == 1 && M * p.toNat % 2 ^ 32 == 2 ^ 32 - 1

/-- Under `P_UNREDUCED = draw`, is the result drawn because an operand is not below the modulus? `D`
counts only in a two-pass multiply (R122). -/
def unreducedDrawn (cfg : Config) (passes : Passes) (X Y D M : Nat) : Bool :=
  cfg.unreduced == .draw &&
    (decide (M ≤ X) || decide (M ≤ Y) || (passes == .two && decide (M ≤ D)))

end Sys2Proof.Machine
end

