-- ==== Sys2Proof/Machine/Arith.lean ====
section
/-! DEFINITION. The arithmetic of the context and of the multiplier on natural numbers
(R9, R10, R100, R101, R102, R120, R122). -/

namespace Sys2Proof.Machine

/-- `cap(n) = G · ceil(n / G)` (R100). -/
def cap (G n : Nat) : Nat := G * ((n + G - 1) / G)

/-- One iteration of R101: `x * (2 - m0 * x) mod 2^32`. -/
def newton (m0 x : Word) : Word := x * (2#32 - m0 * x)

/-- `mprime_of(m0)`: five iterations from `x = m0`, negated (R101). -/
def mprimeOf (m0 : Word) : Word :=
  - newton m0 (newton m0 (newton m0 (newton m0 (newton m0 m0))))

/-- `ρ_h = 2^(32·h)`, the radix of one reduction pass (R10). -/
def rho (h : Nat) : Nat := 2 ^ (32 * h)

/-- `R_h = 2^(64·h) = ρ_h²` (R10). -/
def radixR (h : Nat) : Nat := 2 ^ (64 * h)

/-- `Rinv` of a modulus as a number: `R_hw mod M` (R102). -/
def rinvNat (M hw : Nat) : Nat := radixR hw % M

/-- `rinv_of(M, hw) = buf_hw(2^(64·hw) mod M)` (R102). -/
def rinvOf (M hw : Nat) : Buf := bufOf hw (rinvNat M hw)

/-- `ρ_h⁻¹ mod M` for odd `M` (R9): the inverse of 2 is `(M + 1) / 2`, raised to `32·h`. -/
def rhoInv (h M : Nat) : Nat := ((M + 1) / 2) ^ (32 * h) % M

/-- One reduction pass, `MM_{h,M}(a, b) = (a · b · ρ_h⁻¹) mod M` (R10, R120). -/
def montMul (h M a b : Nat) : Nat := a * b * rhoInv h M % M

/-- The unit's exact value after one or two passes (R122). -/
def hwExact (passes : Passes) (h M X Y D : Nat) : Nat :=
  match passes with
  | .one => montMul h M X Y
  | .two => montMul h M (montMul h M X Y) D

/-- The plan entries of exponent bit `i`: a square unless it is the top bit `t`, and a multiply if the
bit is set (R152). -/
def bitEntries (E t i : Nat) : List PlanEntry :=
  (if i = t then [] else [.sqr i]) ++ (if bit E i then [.mulx i] else [])

/-- The plan entries of bits `i, i-1, ..., 0` (R152). -/
def scanBits (E t : Nat) : Nat → List PlanEntry
  | 0 => bitEntries E t 0
  | i + 1 => bitEntries E t (i + 1) ++ scanBits E t i

/-- `plan(E)` for `E ≠ 0` (R152). -/
def plan (E : Nat) : List PlanEntry :=
  .convx :: .initz :: (scanBits E (msb E) (msb E) ++ [.convout])

/-- The exponent bit whose last entry this is, if any: `e = lastOf(i)` (R152, R154). -/
def lastOf (E : Nat) : PlanEntry → Option Nat
  | .mulx i => some i
  | .sqr i => if bit E i then none else some i
  | .convx => none
  | .initz => none
  | .convout => none

/-- `N(E)`, the number of hardware steps of an exponentiation that completes (R157). -/
def expSteps (E : Nat) : Nat := if E = 0 then 0 else msb E + popcount E + 3

end Sys2Proof.Machine
end

