-- ==== Sys2Proof/Machine/Ops.lean ====
section
/-! DEFINITION. The named operations over the state that the commands share: draws (R12), slots and
callers, the lock (R124, R125), `ret` (R11), `raise` and `refuse` (R11, R202, R203), and the hardware
multiply (R122, R123). -/

namespace Sys2Proof.Machine

/-! Draws (R12, assumption log 3). -/

/-- One draw taken. -/
def Draws.next (d : Draws) : Draws := { d with taken := d.taken + 1 }

/-- The value of a draw of `allocOk` (R104). -/
def Draws.allocOkValue (d : Draws) : Bool := d.allocOk.headD (Config.freeAllocOk d.taken)

/-- The draws after `allocOk` is drawn. -/
def Draws.tookAllocOk (d : Draws) : Draws := { d.next with allocOk := d.allocOk.tail }

/-- The value of a draw of `szOk` (R123). -/
def Draws.szOkValue (d : Draws) : Bool := d.szOk.headD (Config.freeSzOk d.taken)

/-- The draws after `szOk` is drawn. -/
def Draws.tookSzOk (d : Draws) : Draws := { d.next with szOk := d.szOk.tail }

/-- `h` free words of draw number `n`. -/
def freeBuf (n h : Nat) : Buf := (List.range h).map (Config.freeWord n)

/-- The value of a draw of type `anyBuf_h` (R12, R122): any `h`-word buffer. -/
def Draws.bufValue (d : Draws) (h : Nat) : Buf := fitBuf h (d.bufs.headD (freeBuf d.taken h))

/-- The draws after a buffer is drawn. -/
def Draws.tookBuf (d : Draws) : Draws := { d.next with bufs := d.bufs.tail }

/-- The caller the scheduler's draw names (R13, R213). -/
def Draws.pickValue (d : Draws) : Nat := d.picks.headD (Config.freePick d.taken)

/-- The patience drawn for the caller that is scheduled (R243, assumption log 4). -/
def Draws.patienceValue (d : Draws) : Nat := d.patiences.headD (Config.freePatience d.taken)

/-- The draws after the scheduler has picked and drawn a patience. -/
def Draws.tookPick (d : Draws) : Draws :=
  { d.next with picks := d.picks.tail, patiences := d.patiences.tail }

/-! Slots, callers, events. -/

/-- Slot `h` replaced. -/
def State.setSlot (s : State) (h : SlotNo) (k : Slot) : State :=
  { s with ctx := s.ctx.set h.val k }

/-- The record of the current caller replaced. -/
def State.setMe (s : State) (x : Caller) : State := { s with callers := s.callers.set s.cur x }

/-- The sequencer of the current caller replaced (R28). -/
def State.setSeq (s : State) (q : Seq) : State := s.setMe { s.me with seq := q }

/-- `emit e` (R11). -/
def State.emit (s : State) (e : Event) : State := { s with evt := s.evt ++ [e] }

/-- The draws replaced. -/
def State.setDraws (s : State) (d : Draws) : State := { s with draws := d }

/-- The scheduler's queue replaced. -/
def State.setTurns (s : State) (ts : List Turn) : State := { s with turns := ts }

/-! The ends of a command. -/

/-- `ret(status, value)` (R11): writes `S.RET[c]`, emits `RET(c, status)`, advances `S.CP[c]` by one,
and leaves the sequencer idle. -/
def State.retCmd (s : State) (status : Status) (value : RetValue) : State :=
  (s.setMe { s.me with
      ret := { status := status, value := value }, cp := s.me.cp + 1, seq := .idle }).emit
    (.ret s.cur status)

/-- TAKING A FAULT, `raise Fault(kind)` (R11, R202): the record `(kind, c, S.CP[c])` is appended to
`S.FAULTS` and nothing else is written; the scheduler gives the caller no further step. There is no
return from it (R208). -/
def State.raiseFault (s : State) (kind : FaultKind) : State :=
  { s with faults := s.faults ++ [{ kind := kind, caller := s.cur, cp := s.me.cp }] }

/-- TAKING A REFUSAL, `refuse(kind)` (R11, R203). -/
def State.refuseCmd (s : State) (kind : RefusalKind) : State :=
  { s with refused := s.refused ++ [{ kind := kind, caller := s.cur, cp := s.me.cp }] }

/-! The lock. -/

/-- Is the multiplier held by some caller? (R24) -/
def State.held (s : State) : Bool := s.holder.isSome

/-- The acquire of R124, R128 and R153: holder, enable, counter and event. -/
def State.acquireLock (s : State) : State :=
  { s with
    holder := some s.cur, hwEn := true, acqCount := s.acqCount + 1, evt := s.evt ++ [.acq s.cur] }

/-- The release of R125, R128 and R153. -/
def State.releaseLock (s : State) : State :=
  { s with
    holder := none, hwEn := false, relCount := s.relCount + 1, evt := s.evt ++ [.rel s.cur] }

/-- One exponentiation more in progress on slot `h` (R151). -/
def State.takeBorrow (s : State) (h : SlotNo) : State :=
  s.setSlot h { s.slot h with borrows := (s.slot h).borrows + 1 }

/-- One exponentiation fewer in progress on slot `h` (R153). -/
def State.returnBorrow (s : State) (h : SlotNo) : State :=
  s.setSlot h { s.slot h with borrows := (s.slot h).borrows - 1 }

/-! The hardware multiply. -/

/-- The mode of a multiply of so many passes (R120). -/
def hwKind : Passes → HwKind
  | .one => .montmul
  | .two => .modmul

/-- `hw_value` (R122) with the draws it leaves: a drawn `h`-word buffer where the modulus is even, the
constant wrong, or (under `P_UNREDUCED = draw`) an operand is not below the modulus; else the exact
value. `D` is read only in a two-pass multiply. Zero extension (R53) leaves every value as it is. -/
def hwValue (cfg : Config) (d : Draws) (passes : Passes) (X Y M D : Buf) (p : Word) (h : Nat) :
    Buf × Draws :=
  if montgomeryOk (val M) p && !unreducedDrawn cfg passes (val X) (val Y) (val D) (val M) then
    (bufOf h (hwExact passes h (val M) (val X) (val Y) (val D)), d)
  else (d.bufValue h, d.tookBuf)

/-- One hardware multiply of the current caller with hardware word count `h` (R122, R123): no value
when it cannot be sized (`h = 0`, `h > HW_MAX_WORDS`, no draw; or `szOk` drawn false), and then no
event; else the value, with the event `HWOP`. R123 puts `h = 0` among the failures of every multiply
(assumption log 13). -/
def State.hwMultiply (s : State) (passes : Passes) (X Y M D : Buf) (p : Word) (h : Nat) :
    Option Buf × State :=
  if unsizable s.cfg h then (none, s)
  else if s.draws.szOkValue then
    let rd := hwValue s.cfg s.draws.tookSzOk passes X Y M D p h
    (some rd.1, (s.setDraws rd.2).emit (.hwop s.cur (hwKind passes) (val X) (val Y) (val M) (val rd.1)))
  else (none, s.setDraws s.draws.tookSzOk)

/-- The return of a multiply (R126, R127, R128): its value, or `HardwareFault` with none. -/
def State.retMultiply (s : State) (v : Option Buf) : State :=
  match v with
  | some r => s.retCmd .ok (.buffer r)
  | none => s.retCmd .hardwareFault .none

end Sys2Proof.Machine
end

