-- ==== Sys2Proof/Machine/Context.lean ====
section
/-! DEFINITION. The commands of the Montgomery context: HW_CAPACITY, CTX_BUILD, CTX_READ, CTX_DESTROY
(R103 to R106). -/

namespace Sys2Proof.Machine

/-- HW_CAPACITY (R103). -/
def execHwCapacity (s : State) : Host.Outcome State Fault Refusal :=
  .next (s.retCmd .ok (.scalar (cap s.cfg.blockWords s.op.S)))

/-- The context CTX_BUILD writes for the modulus words `A` (R104): `wc`, `hw`, `mprime`, `Rinv`. -/
def builtSlot (cfg : Config) (A : Buf) : Slot :=
  { valid := true
    M := A
    wc := wc A
    hw := cap cfg.blockWords (wc A)
    mprime := mprimeOf (A.headD 0#32)
    Rinv := rinvOf (val A) (cap cfg.blockWords (wc A))
    borrows := 0 }

/-- CTX_BUILD after its checks: the allocation draw, then the context (R104). -/
def buildContext (h : SlotNo) (s : State) : State :=
  let s1 := s.setDraws s.draws.tookAllocOk
  if s.draws.allocOkValue then (s1.setSlot h (builtSlot s.cfg s.op.A)).retCmd .ok .none
  else s1.retCmd .allocationFailure .none

/-- CTX_BUILD (R104), its outcomes in the order of R206. -/
def execCtxBuild (h : SlotNo) (s : State) : Host.Outcome State Fault Refusal :=
  if (s.slot h).valid then .next (s.raiseFault .slotInUse)
  else if wc s.op.A ≠ s.op.S then .next (s.refuseCmd .operandShape)
  else if badModulus s.op.A then .next (s.retCmd .invalidModulus .none)
  else .next (buildContext h s)

/-- The field a CTX_READ selector names (R76); a reserved selector names none. -/
def slotField (k : Slot) (f : BitVec 3) : Option RetValue :=
  if f = 0#3 then some (.scalar k.wc)
  else if f = 1#3 then some (.scalar k.hw)
  else if f = 2#3 then some (.scalar k.mprime.toNat)
  else if f = 3#3 then some (.buffer k.Rinv)
  else if f = 4#3 then some (.buffer k.M)
  else none

/-- CTX_READ (R105). Decoding lets no reserved selector through (R75); given one all the same, the
command is refused as decoding refuses it (assumption log 16). -/
def execCtxRead (h : SlotNo) (f : BitVec 3) (s : State) : Host.Outcome State Fault Refusal :=
  match slotField (s.slot h) f with
  | none => .next (s.refuseCmd .reservedField)
  | some v =>
    if (s.slot h).valid then .next (s.retCmd .ok v) else .next (s.raiseFault .badContext)

/-- A destroyed slot (R106): not valid, its other fields unspecified: free values of draw number `n`
(assumption log 10). `borrows` stays as it is. -/
def destroyedSlot (n : Nat) (k : Slot) : Slot :=
  { valid := false
    M := freeBuf n (Config.freeNat n 0)
    wc := Config.freeNat n 1
    hw := Config.freeNat n 2
    mprime := Config.freeWord (n + 1) 0
    Rinv := freeBuf (n + 2) (Config.freeNat n 3)
    borrows := k.borrows }

/-- CTX_DESTROY (R106). Three draw numbers go to the unspecified fields. -/
def execCtxDestroy (h : SlotNo) (s : State) : Host.Outcome State Fault Refusal :=
  if (s.slot h).valid then
    if 0 < (s.slot h).borrows then .next (s.raiseFault .contextBusy)
    else
      .next (((s.setSlot h (destroyedSlot s.draws.taken (s.slot h))).setDraws
        s.draws.next.next.next).retCmd .ok .none)
  else .next (s.raiseFault .badContext)

end Sys2Proof.Machine
end

