-- ==== Sys2Proof/Machine/Exponent.lean ====
section
/-! DEFINITION. The exponentiation engine EXP: its first step (R151), its plan's steps (R152, R153),
liveness (R154) and failure (R156). -/

namespace Sys2Proof.Machine

/-- The operands `(a, b)` of a plan entry (R152), where the sequencer's registers hold them. In a plan
that R152 makes, they always do. -/
def entryOperands (r : SeqRun) (k : Slot) : PlanEntry → Option (Buf × Buf)
  | .convx => some (r.X, k.Rinv)
  | .initz => some (k.Rinv, bufOf k.hw 1)
  | .sqr _ => r.Z.map (fun z => (z, z))
  | .mulx _ =>
    match r.Z, r.Xm with
    | some z, some x => some (z, x)
    | _, _ => none
  | .convout => r.Z.map (fun z => (z, bufOf k.hw 1))

/-- The sequencer after entry `e` has given `v`, with the plan's rest: `dest(e) <- v` (R152, R153). -/
def entryWrites (r : SeqRun) (e : PlanEntry) (rest : List PlanEntry) (v : Buf) : SeqRun :=
  match e with
  | .convx => { r with plan := rest, Xm := some v }
  | .initz => { r with plan := rest, Z := some v }
  | .sqr _ => { r with plan := rest, Z := some v }
  | .mulx _ => { r with plan := rest, Z := some v }
  | .convout => { r with plan := rest, Z := some v }

/-- The value of a register that may hold none. -/
def regValue : Option Buf → RetValue
  | some z => .buffer z
  | none => .none

/-- `LIVE(c, i)` if the callback is enabled and the entry is the last of bit `i` (R153, R154). -/
def State.emitLive (s : State) (r : SeqRun) (e : PlanEntry) : State :=
  match r.L, lastOf r.E e with
  | true, some i => s.emit (.live s.cur i)
  | _, _ => s

/-- The end of a plan entry after its value and the release: the sequencer goes on with the rest, or
returns the borrow and answers `r.Z` (R153). -/
def expAdvance (s : State) (r : SeqRun) : State :=
  match r.plan with
  | [] => (s.returnBorrow r.slot).retCmd .ok (regValue r.Z)
  | _ :: _ => s.setSeq (.run r)

/-- The failure of a plan entry, the lock already released: the borrow is returned, the registers are
discarded, and EXP returns `HardwareFault` (R153, R156). -/
def expFail (s : State) (r : SeqRun) : State := (s.returnBorrow r.slot).retCmd .hardwareFault .none

/-- One plan entry with its operands, the lock free (R153): acquire, multiply in `P_EXP_PASSES` passes,
release, liveness, advance; or release and fail. -/
def expEntry (s : State) (r : SeqRun) (e : PlanEntry) (rest : List PlanEntry) (a b : Buf) : State :=
  let k := s.slot r.slot
  let m := s.acquireLock.hwMultiply s.cfg.expPasses a b k.M k.Rinv k.mprime k.hw
  match m.1 with
  | some v => expAdvance (m.2.releaseLock.emitLive r e) (entryWrites r e rest v)
  | none => expFail m.2.releaseLock r

/-- `EXP_STEP` (R153). It waits while any caller holds the multiplier (assumption log 8). With an empty
plan, or a register that holds none where an entry reads it, no rule gives a step and the sequencer
waits too; no run reaches that (assumption log 11). -/
def expStep (s : State) (r : SeqRun) : State :=
  match r.plan with
  | [] => s
  | e :: rest =>
    match entryOperands r (s.slot r.slot) e with
    | none => s
    | some (a, b) => if s.held then s else expEntry s r e rest a b

/-- Does the sequencer wait? Exactly when `expStep` has no step (R153, R204). -/
def expWaits (s : State) (r : SeqRun) : Bool :=
  match r.plan with
  | [] => true
  | e :: _ => s.held || (entryOperands r (s.slot r.slot) e).isNone

/-- The zero-exponent path: the result buffer is sized by one draw, and `1 mod M` is returned with no
hardware access (R151). -/
def expZero (h : SlotNo) (s : State) : State :=
  let s1 := s.setDraws s.draws.tookSzOk
  if s.draws.szOkValue then
    s1.retCmd .ok (.buffer (bufOf (s.slot h).hw (1 % val (s.slot h).M)))
  else s1.retCmd .hardwareFault .none

/-- The sequencer as EXP's first step loads it (R151). -/
def freshRun (h : SlotNo) (l : Bool) (s : State) : SeqRun :=
  { slot := h, X := zext (s.slot h).hw s.op.A, E := val s.op.B, L := l, plan := plan (val s.op.B),
    Xm := none, Z := none }

/-- `EXP_START` (R151). -/
def expStart (h : SlotNo) (l : Bool) (s : State) : State :=
  if !(s.slot h).valid then s.raiseFault .badContext
  else if anyWider (s.slot h).hw [s.op.A] then s.refuseCmd .operandShape
  else if val s.op.B = 0 then expZero h s
  else (s.takeBorrow h).setSeq (.run (freshRun h l s))

/-- EXP (R150): one step of it. Its first step while the caller's sequencer is idle; each further step
is the next entry of the plan the sequencer holds. -/
def execExp (h : SlotNo) (l : Bool) (s : State) : Host.Outcome State Fault Refusal :=
  match s.me.seq with
  | .idle => .next (expStart h l s)
  | .run r => .next (expStep s r)

end Sys2Proof.Machine
end

