-- ==== Sys2Proof/Machine/Multiplier.lean ====
section
/-! DEFINITION. The multiplier's commands ACQUIRE, RELEASE, HW_MODMUL, HW_MONTMUL and the engine MULT
(R124 to R128). -/

namespace Sys2Proof.Machine

/-- ACQUIRE (R124). While any caller holds the multiplier the command waits: nothing changes and the
scheduler does not run it (assumption log 8). -/
def execAcquire (s : State) : Host.Outcome State Fault Refusal :=
  if s.held then .next s else .next (s.acquireLock.retCmd .ok .none)

/-- RELEASE (R125). -/
def execRelease (s : State) : Host.Outcome State Fault Refusal :=
  if s.holder = some s.cur then .next (s.releaseLock.retCmd .ok .none)
  else .next (s.raiseFault .unbalancedRelease)

/-- HW_MODMUL (R126): two passes. -/
def execHwModmul (s : State) : Host.Outcome State Fault Refusal :=
  if s.holder ≠ some s.cur then .next (s.raiseFault .lockNotHeld)
  else if anyWider s.op.S [s.op.A, s.op.B, s.op.C, s.op.D] then .next (s.refuseCmd .operandShape)
  else
    let r := s.hwMultiply .two s.op.A s.op.B s.op.C s.op.D s.op.P s.op.S
    .next (r.2.retMultiply r.1)

/-- HW_MONTMUL (R127): one pass, `op.D` ignored. -/
def execHwMontmul (s : State) : Host.Outcome State Fault Refusal :=
  if s.holder ≠ some s.cur then .next (s.raiseFault .lockNotHeld)
  else if anyWider s.op.S [s.op.A, s.op.B, s.op.C] then .next (s.refuseCmd .operandShape)
  else
    let r := s.hwMultiply .one s.op.A s.op.B s.op.C [] s.op.P s.op.S
    .next (r.2.retMultiply r.1)

/-- MULT's shape check: is `X` or `Y` wider than the context's `hw`? (R128) -/
def multShape (h : SlotNo) (s : State) : Bool := anyWider (s.slot h).hw [s.op.A, s.op.B]

/-- MULT once the lock is free: acquire, multiply in two passes with the context's constants, release
on every path, return (R128). -/
def multBody (h : SlotNo) (s : State) : State :=
  let k := s.slot h
  let r := s.acquireLock.hwMultiply .two s.op.A s.op.B k.M k.Rinv k.mprime k.hw
  r.2.releaseLock.retMultiply r.1

/-- MULT (R128): the checks first, whatever the lock; then the wait for the lock; then one step. -/
def execMult (h : SlotNo) (s : State) : Host.Outcome State Fault Refusal :=
  if !(s.slot h).valid then .next (s.raiseFault .badContext)
  else if multShape h s then .next (s.refuseCmd .operandShape)
  else if s.held then .next s
  else .next (multBody h s)

end Sys2Proof.Machine
end

