-- ==== Sys2Proof/Syntax.lean ====
section
/-! DEFINITION. The ten commands of the opcode table (R74), with the fields each uses (R71). -/

namespace Sys2Proof

/-- A decoded command word. The operand record (R72) travels beside it and is no part of it (R70). -/
inductive Instr where
  /-- CTX_BUILD, slot `h` (R104). -/
  | ctxBuild (h : SlotNo)
  /-- CTX_READ, slot `h`, field selector `f` (R105, R76). -/
  | ctxRead (h : SlotNo) (f : BitVec 3)
  /-- CTX_DESTROY, slot `h` (R106). -/
  | ctxDestroy (h : SlotNo)
  /-- HW_CAPACITY (R103). -/
  | hwCapacity
  /-- ACQUIRE (R124). -/
  | acquire
  /-- RELEASE (R125). -/
  | release
  /-- HW_MODMUL (R126). -/
  | hwModmul
  /-- HW_MONTMUL (R127). -/
  | hwMontmul
  /-- MULT, slot `h` (R128). -/
  | mult (h : SlotNo)
  /-- EXP, slot `h`, liveness enable `l` (R150). -/
  | exp (h : SlotNo) (l : Bool)
deriving DecidableEq, Repr

end Sys2Proof
end

