-- ==== Sys2Proof/Machine/Dispatch.lean ====
section
/-! DEFINITION. Dispatch: one arm per command of the opcode table (R74). -/

namespace Sys2Proof.Machine

def exec (i : Instr) (s : State) : Host.Outcome State Fault Refusal :=
  match i with
  | .ctxBuild h => Sys2Proof.Machine.execCtxBuild h s
  | .ctxRead h f => Sys2Proof.Machine.execCtxRead h f s
  | .ctxDestroy h => Sys2Proof.Machine.execCtxDestroy h s
  | .hwCapacity => Sys2Proof.Machine.execHwCapacity s
  | .acquire => Sys2Proof.Machine.execAcquire s
  | .release => Sys2Proof.Machine.execRelease s
  | .hwModmul => Sys2Proof.Machine.execHwModmul s
  | .hwMontmul => Sys2Proof.Machine.execHwMontmul s
  | .mult h => Sys2Proof.Machine.execMult h s
  | .exp h l => Sys2Proof.Machine.execExp h l s

end Sys2Proof.Machine
end

