-- ==== Sys2Proof/WellFormed.lean ====
section
/-! DEFINITION. Which commands the encoding admits (R71, R76). -/

namespace Sys2Proof

/-- The one field value that no encoding admits is a reserved CTX_READ selector, `f ≥ 5` (R76).
A slot number and the liveness bit are in range by their types (R71). -/
def Instr.wf : Instr → Bool
  | .ctxBuild _ => true
  | .ctxRead _ f => decide (f.toNat < 5)
  | .ctxDestroy _ => true
  | .hwCapacity => true
  | .acquire => true
  | .release => true
  | .hwModmul => true
  | .hwMontmul => true
  | .mult _ => true
  | .exp _ _ => true

end Sys2Proof
end

