-- ==== Sys2Proof/Decode.lean ====
section
/-! DEFINITION. The decoder of R75 over the opcode table of R74, and the encoder. -/

namespace Sys2Proof

/-- Why decoding refuses a word (R75, R203). -/
inductive DecodeError where
  /-- No row of the opcode table matches the word. -/
  | illegalCommand
  /-- CTX_READ with a reserved selector, `f ≥ 5` (R76). -/
  | reservedField
deriving DecidableEq, Repr

/-! The fields of the command word (R71). -/

/-- `h = w[11:8]`. -/
def fieldH (w : Word) : SlotNo := Fin.ofNat 16 (w.toNat / 2 ^ 8)

/-- `l = w[12]`. -/
def fieldL (w : Word) : Bool := w.getLsbD 12

/-- `f = w[15:13]`. -/
def fieldF (w : Word) : BitVec 3 := w.extractLsb' 13 3

/-- One row of the opcode table (R74): the whole-word match and mask, and the command its fields make. -/
structure Row where
  pat : Word
  mask : Word
  build : SlotNo → Bool → BitVec 3 → Instr

/-- The opcode table, in the order of R74. -/
def rows : List Row :=
  [ { pat := 0x00000001#32, mask := 0xFFFFF0FF#32, build := fun h _ _ => .ctxBuild h },
    { pat := 0x00000002#32, mask := 0xFFFF10FF#32, build := fun h _ f => .ctxRead h f },
    { pat := 0x00000003#32, mask := 0xFFFFF0FF#32, build := fun h _ _ => .ctxDestroy h },
    { pat := 0x00000004#32, mask := 0xFFFFFFFF#32, build := fun _ _ _ => .hwCapacity },
    { pat := 0x00000010#32, mask := 0xFFFFFFFF#32, build := fun _ _ _ => .acquire },
    { pat := 0x00000011#32, mask := 0xFFFFFFFF#32, build := fun _ _ _ => .release },
    { pat := 0x00000012#32, mask := 0xFFFFFFFF#32, build := fun _ _ _ => .hwModmul },
    { pat := 0x00000013#32, mask := 0xFFFFFFFF#32, build := fun _ _ _ => .hwMontmul },
    { pat := 0x00000020#32, mask := 0xFFFFF0FF#32, build := fun h _ _ => .mult h },
    { pat := 0x00000021#32, mask := 0xFFFFE0FF#32, build := fun h l _ => .exp h l } ]

/-- Does a row match a word? `(w & mask) = match` (R75). -/
def Row.matchesWord (r : Row) (w : Word) : Bool := w &&& r.mask == r.pat

/-- The decoder (R75): the first row that matches gives the command; no row refuses
`IllegalCommand`; a reserved selector refuses `ReservedField`. -/
def decode (w : Word) : Except DecodeError Instr :=
  match rows.find? (fun r => r.matchesWord w) with
  | none => .error .illegalCommand
  | some r =>
    let i := r.build (fieldH w) (fieldL w) (fieldF w)
    if i.wf then .ok i else .error .reservedField

/-- A word as its four bytes, byte 0 being bits 7..0 (R52; PRESUMED by the spec itself, assumption log 12). -/
def wordToBytes (w : Word) : List Byte :=
  [w.extractLsb' 0 8, w.extractLsb' 8 8, w.extractLsb' 16 8, w.extractLsb' 24 8]

/-- The word of four bytes, byte 0 lowest (R52). -/
def wordOfBytes (b0 b1 b2 b3 : Byte) : Word := b3 ++ b2 ++ b1 ++ b0

/-- Decoding from bytes, as a byte-level harness lays a command word out (R52): four bytes make one
command word and the rest follows; fewer than four make no command. -/
def decodeBytes : List Byte → Option (Except DecodeError Instr × List Byte)
  | b0 :: b1 :: b2 :: b3 :: rest => some (decode (wordOfBytes b0 b1 b2 b3), rest)
  | _ => none

/-- The instruction the decoder reads from a word numbered as the opcode table numbers its bits:
the `nbits` given bits, zero above, laid out as bytes; `none` where the decoder refuses. -/
def decodeTableWord (nbits w : Nat) : Option Instr :=
  match decodeBytes (wordToBytes (BitVec.ofNat 32 (w % 2 ^ nbits))) with
  | some (.ok i, _) => some i
  | _ => none

/-! The encoder, from the encodings R103 to R106, R124 to R128 and R150 give. -/

/-- `h << 8`. -/
def putH (h : SlotNo) : Word := BitVec.ofNat 32 (h.val * 2 ^ 8)

/-- `l << 12`. -/
def putL (l : Bool) : Word := if l then 0x1000#32 else 0#32

/-- `f << 13`. -/
def putF (f : BitVec 3) : Word := BitVec.ofNat 32 (f.toNat * 2 ^ 13)

/-- The command word of a command. -/
def encode : Instr → Word
  | .ctxBuild h => 0x01#32 ||| putH h
  | .ctxRead h f => 0x02#32 ||| putH h ||| putF f
  | .ctxDestroy h => 0x03#32 ||| putH h
  | .hwCapacity => 0x04#32
  | .acquire => 0x10#32
  | .release => 0x11#32
  | .hwModmul => 0x12#32
  | .hwMontmul => 0x13#32
  | .mult h => 0x20#32 ||| putH h
  | .exp h l => 0x21#32 ||| putH h ||| putL l

end Sys2Proof
end

