-- ==== Sys2Proof/Machine/Schedule.lean ====
section
/-! DEFINITION. Which caller's step comes next and which command it runs: the streams (R20, R37), the
enabled steps (R13, R202 to R204, R213), the scheduler's choice (R213, R243), the end of a run (R242),
and the loading of streams. -/

namespace Sys2Proof.Machine

/-- Does a fault or refusal record stop caller `c`? (R30) -/
def State.stopped (s : State) (c : Nat) : Bool :=
  s.faults.any (fun r => r.caller == c) || s.refused.any (fun r => r.caller == c)

/-- The refusal kind of a decoding error (R75, R203). -/
def refusalOf : DecodeError → RefusalKind
  | .illegalCommand => .illegalCommand
  | .reservedField => .reservedField

/-- The command word at caller `c`'s command pointer (R37). -/
def State.fetch (s : State) (c : Nat) : Option Word :=
  ((s.caller c).stream[(s.caller c).cp]?).map Command.word

/-- What caller `c`'s next step runs: the EXP in progress if its sequencer runs (R153, R208), else the
command at its command pointer, decoded; nothing past the end of its stream. -/
def State.nextOf (s : State) (c : Nat) : Option (Except DecodeError Instr) :=
  match (s.caller c).seq with
  | .run r => some (.ok (.exp r.slot r.L))
  | .idle => (s.fetch c).map decode

/-- Does the current caller's command wait for the lock (R124, R128, R153), so that its step is not
enabled? Faults and refusals are taken before the wait (R206). -/
def waits (i : Instr) (s : State) : Bool :=
  match i with
  | .acquire => s.held
  | .mult h => (s.slot h).valid && !multShape h s && s.held
  | .exp _ _ =>
    match s.me.seq with
    | .idle => false
    | .run r => expWaits s r
  | .ctxBuild _ => false
  | .ctxRead _ _ => false
  | .ctxDestroy _ => false
  | .hwCapacity => false
  | .release => false
  | .hwModmul => false
  | .hwMontmul => false

/-- The same state with caller `c`'s step being taken. -/
def State.onBehalf (s : State) (c : Nat) : State := { s with cur := c }

/-- Has caller `c` an enabled step? (R13, R30, R204) -/
def State.enabled (s : State) (c : Nat) : Bool :=
  decide (c < s.callers.length) && !s.stopped c &&
    match s.nextOf c with
    | none => false
    | some (.error _) => true
    | some (.ok i) => !waits i (s.onBehalf c)

/-- The callers with an enabled step. -/
def State.enabledCallers (s : State) : List Nat :=
  (List.range s.callers.length).filter s.enabled

/-- The caller that is due, if any: the first in the scheduler's queue that has an enabled step and has
run out of patience (R243). -/
def State.due (s : State) : Option Nat :=
  (s.turns.find? (fun t => t.patience == 0 && s.enabled t.caller)).map Turn.caller

/-- The scheduler's choice among the enabled callers (R213, R243): the caller that is due, if one is; else
the caller the draw names if it is enabled, else the first one. With one enabled caller there is no
choice. Every enabled caller can be the choice (assumption log 4). -/
def choose (d : Draws) (due : Option Nat) : List Nat → Option Nat
  | [] => none
  | [c] => some c
  | c :: cs =>
    match due with
    | some a => some a
    | none => some (if d.pickValue ∈ c :: cs then d.pickValue else c)

/-- The caller whose step comes next, if any step is enabled. -/
def State.nextCaller (s : State) : Option Nat := choose s.draws s.due s.enabledCallers

/-- The turn of a caller that is passed over: it loses patience if its step is enabled. -/
def Turn.passedOver (enabled : Nat → Bool) (t : Turn) : Turn :=
  if enabled t.caller then { t with patience := t.patience - 1 } else t

/-- The scheduler's queue after caller `c` is scheduled: the callers passed over with an enabled step lose
patience, and `c` goes to the end with the patience drawn for it. -/
def turnsAfter (enabled : Nat → Bool) (c patience : Nat) (ts : List Turn) : List Turn :=
  (ts.filter (fun t => t.caller != c)).map (Turn.passedOver enabled) ++
    [{ caller := c, patience := patience }]

/-- The state in which caller `c`'s step is taken: the scheduler's draw is spent and its queue moves on. -/
def State.scheduled (s : State) (c : Nat) : State :=
  { s with
    cur := c
    draws := s.draws.tookPick
    turns := turnsAfter s.enabled c s.draws.patienceValue s.turns }

/-- Has the run finished, given that no step is enabled? (R242) -/
def State.finished (s : State) : Bool :=
  s.callers.all (fun x => x.seq == .idle && x.cp == x.stream.length) &&
    s.faults.isEmpty && s.refused.isEmpty

/-- How a run ends (R242). -/
def State.endOfRun (s : State) : Fault := if s.finished then .runFinished else .runBlocked

/-- The command streams loaded from outside (R20, R62; assumption log 5): caller `c` gets the `c`-th
stream, none if there is no such stream. -/
def State.loadStreams (s : State) (streams : List (List Command)) : State :=
  { s with
    callers := s.callers.zipIdx.map (fun x => { x.1 with stream := streams.getD x.2 [] }) }

/-- Further commands given to the callers from outside, at the ends of their streams (assumption log 5). -/
def State.appendStreams (s : State) (more : List (List Command)) : State :=
  { s with
    callers := s.callers.zipIdx.map
      (fun x => { x.1 with stream := x.1.stream ++ more.getD x.2 [] }) }

/-- A stream with the command at index `cp` replaced, padded with the same command if it is shorter. -/
def placeAt (stream : List Command) (cp : Nat) (cmd : Command) : List Command :=
  stream.take cp ++ List.replicate (cp - stream.length) cmd ++ cmd :: stream.drop (cp + 1)

/-- A command word placed where caller `c`'s next step fetches it, with an empty operand record, and
caller `c` made the one that moves next: its stream, its sequencer idle, no record that stops it, the
scheduler's draw, and its turn, first in the queue and due (assumption log 5). -/
def State.placeWord (s : State) (c : Nat) (w : Word) : State :=
  let x := s.caller c
  { s with
    callers := s.callers.set c
      { x with stream := placeAt x.stream x.cp { word := w, op := OperandRecord.empty }, seq := .idle }
    faults := s.faults.filter (fun r => r.caller != c)
    refused := s.refused.filter (fun r => r.caller != c)
    draws := { s.draws with picks := c :: s.draws.picks }
    turns := { caller := c, patience := 0 } :: s.turns.filter (fun t => t.caller != c) }

end Sys2Proof.Machine
end

