-- ==== Sys2Proof/Machine/Step.lean ====
section
/-! DEFINITION. One step of the block (R13): the scheduler picks a caller with an enabled step, and that
caller's command, decoded, is executed. -/

namespace Sys2Proof.Machine

/-- The step of caller `c` in the state where it is taken: the decoded command, or the refusal of a word
that decodes to none (R75, R203). -/
def stepOf (c : Nat) (s : State) : Host.Outcome State Fault Refusal :=
  match s.nextOf c with
  | some (.ok i) => exec i s
  | some (.error e) => .next (s.refuseCmd (refusalOf e))
  | none => .fault s.endOfRun

/-- One step (R13, R59), or the end of the run when no caller has an enabled step (R242). -/
def step (s : State) : Host.Outcome State Fault Refusal :=
  match s.nextCaller with
  | some c => stepOf c (s.scheduled c)
  | none => .fault s.endOfRun

/-- The state with the word of one instruction, numbered as the opcode table numbers its bits, stored
where the next step of caller 0 fetches its command (assumption log 5). -/
def State.withFetchWord (s : State) (nbits w : Nat) : State :=
  s.placeWord 0 (BitVec.ofNat 32 (w % 2 ^ nbits))

end Sys2Proof.Machine
end

