-- ==== Sys2Proof/Safety.lean ====
section
/-! DEFINITION. What counts as a good state and a good run, in the terms the statements use: the
invariants of R23 to R26, R30 and R132, the frame predicates, runs and fairness (R242, R243). -/

namespace Sys2Proof.Machine

/-! What a command changes and what it leaves. -/

/-- What `ret(status, value)` does to the callers (R11, R27, R37): the current caller's return record is
written, its command pointer goes up by one, its sequencer is idle, its stream stays; every other
caller's private state is as before. -/
structure Returned (s t : State) (status : Status) (value : RetValue) : Prop where
  ret : (t.caller s.cur).ret = { status := status, value := value }
  cp : (t.caller s.cur).cp = (s.caller s.cur).cp + 1
  idle : (t.caller s.cur).seq = .idle
  stream : (t.caller s.cur).stream = (s.caller s.cur).stream
  others : ∀ c, c ≠ s.cur → t.caller c = s.caller c
  number : t.callers.length = s.callers.length

/-- The multiplier's lock, enable and counters are as before. -/
structure SameLock (s t : State) : Prop where
  holder : t.holder = s.holder
  hwEn : t.hwEn = s.hwEn
  acqCount : t.acqCount = s.acqCount
  relCount : t.relCount = s.relCount

/-- The multiplier was taken and given back: free and disabled after, both counters one up. -/
structure TookAndGave (s t : State) : Prop where
  holder : t.holder = none
  hwEn : t.hwEn = false
  acqCount : t.acqCount = s.acqCount + 1
  relCount : t.relCount = s.relCount + 1

/-- Every context slot is as before. -/
def SameSlots (s t : State) : Prop := ∀ h, t.slot h = s.slot h

/-- Every context slot but `h` is as before. -/
def SameSlotsBut (h : SlotNo) (s t : State) : Prop := ∀ g, g ≠ h → t.slot g = s.slot g

/-- The fault and refusal marks, the parameters, the caller whose step it is and the scheduler's queue are
as before. -/
structure SameMarks (s t : State) : Prop where
  faults : t.faults = s.faults
  refused : t.refused = s.refused
  cfg : t.cfg = s.cfg
  cur : t.cur = s.cur
  turns : t.turns = s.turns

/-! Invariants. -/

/-- The invariants of a valid context (R23). -/
structure ContextOk (cfg : Config) (k : Slot) : Prop where
  wc_pos : 1 ≤ k.wc
  wc_M : wc k.M = k.wc
  odd : val k.M % 2 = 1
  hw_eq : k.hw = cap cfg.blockWords k.wc
  wc_le_hw : k.wc ≤ k.hw
  wc_Rinv : wc k.Rinv = k.hw
  val_Rinv : val k.Rinv = 2 ^ (64 * k.hw) % val k.M
  mprime : val k.M * k.mprime.toNat % 2 ^ 32 = 2 ^ 32 - 1

/-- A running sequencer on a slot (R28, R151, R152): a valid slot, the base in `hw` words, what remains
of the plan of a non-zero exponent, and each register present, in `hw` words, once its first writer in
the plan (`CONVX`, then `INITZ`) has run. -/
structure RunOk (s : State) (r : SeqRun) : Prop where
  valid : (s.slot r.slot).valid = true
  wc_X : wc r.X = (s.slot r.slot).hw
  exponent : r.E ≠ 0
  remains : r.plan <:+ plan r.E
  nonempty : r.plan ≠ []
  xm_none : r.plan.length = (plan r.E).length → r.Xm = none
  xm_some : r.plan.length < (plan r.E).length → ∃ x, r.Xm = some x ∧ wc x = (s.slot r.slot).hw
  z_none : (plan r.E).length ≤ r.plan.length + 1 → r.Z = none
  z_some : r.plan.length + 1 < (plan r.E).length → ∃ z, r.Z = some z ∧ wc z = (s.slot r.slot).hw

/-- Is this sequencer running on slot `h`? -/
def runsOn (h : SlotNo) : Seq → Bool
  | .idle => false
  | .run r => r.slot == h

/-- One event of the lock's history (R132): an `ACQ` of a free multiplier, a `REL` or an `HWOP` of its
holder; anything else that touches the lock breaks the discipline. -/
def lockStep (st : Option (Option Nat)) (e : Event) : Option (Option Nat) :=
  match st, e with
  | none, _ => none
  | some none, .acq c => some (some c)
  | some (some _), .acq _ => none
  | some none, .rel _ => none
  | some (some c), .rel d => if c = d then some none else none
  | some none, .hwop _ _ _ _ _ _ => none
  | some (some c), .hwop d _ _ _ _ _ => if c = d then some (some c) else none
  | some h, .live _ _ => some h
  | some h, .ret _ _ => some h

/-- Who holds the multiplier after a history that keeps the lock discipline; none if it breaks it. -/
def lockTrace (evt : List Event) : Option (Option Nat) := evt.foldl lockStep (some none)

/-- Is the event an acquire? -/
def Event.isAcq : Event → Bool
  | .acq _ => true
  | .rel _ => false
  | .hwop _ _ _ _ _ _ => false
  | .live _ _ => false
  | .ret _ _ => false

/-- Is the event a release? -/
def Event.isRel : Event → Bool
  | .rel _ => true
  | .acq _ => false
  | .hwop _ _ _ _ _ _ => false
  | .live _ _ => false
  | .ret _ _ => false

/-- Is the event the end of a command? -/
def Event.isRet : Event → Bool
  | .ret _ _ => true
  | .acq _ => false
  | .rel _ => false
  | .hwop _ _ _ _ _ _ => false
  | .live _ _ => false

/-- The invariant of the block. -/
structure State.Inv (s : State) : Prop where
  /-- The parameters are in the ranges of R6. -/
  cfg_ok : s.cfg.ok = true
  /-- There are `N_CALLERS` callers (R213). -/
  callers_length : s.callers.length = s.cfg.nCallers
  /-- The current caller is one of them. -/
  cur_lt : s.cur < s.callers.length
  /-- The holder is one of them (R24). -/
  holder_lt : ∀ c, s.holder = some c → c < s.callers.length
  /-- `HW_EN = 1` exactly when `HOLDER ≠ none` (R25). -/
  enable : s.hwEn = s.holder.isSome
  /-- `ACQ_COUNT - REL_COUNT` is 1 while the multiplier is held, else 0 (R26). -/
  counts : s.acqCount = s.relCount + (if s.holder.isSome then 1 else 0)
  /-- The counters count the events (R26, R31). -/
  acq_events : s.evt.countP Event.isAcq = s.acqCount
  rel_events : s.evt.countP Event.isRel = s.relCount
  /-- The history keeps the lock discipline and ends with the holder (R132). -/
  trace : lockTrace s.evt = some s.holder
  /-- Every valid slot satisfies R23. -/
  contexts : ∀ h, (s.slot h).valid = true → ContextOk s.cfg (s.slot h)
  /-- `borrows` is the number of exponentiations in progress on the slot (R22). -/
  borrows : ∀ h, (s.slot h).borrows = s.callers.countP (fun x => runsOn h x.seq)
  /-- Every running sequencer is as R28, R151 and R152 make it. -/
  runs : ∀ c r, (s.caller c).seq = .run r → RunOk s r
  /-- A non-`OK` status has no value (R73). -/
  no_value : ∀ c, (s.caller c).ret.status ≠ .ok → (s.caller c).ret.value = .none
  /-- A mark names a caller that stands at the command that raised it (R30, R37). -/
  fault_marks : ∀ f ∈ s.faults, f.caller < s.callers.length ∧ f.cp = (s.caller f.caller).cp
  refusal_marks : ∀ f ∈ s.refused, f.caller < s.callers.length ∧ f.cp = (s.caller f.caller).cp
  /-- Every caller has one turn in the scheduler's queue (R213, R243). -/
  turns_callers : (s.turns.map Turn.caller).Perm (List.range s.callers.length)

/-! The values the sequencer computes (R155). -/

/-- The power of the base that `Z` holds, in the Montgomery domain, after these plan entries (R152,
R155): `INITZ` starts at 0, a square doubles, a multiply adds one. -/
def planPower (es : List PlanEntry) : Nat :=
  es.foldl
    (fun q e =>
      match e with
      | .convx => q
      | .initz => 0
      | .sqr _ => 2 * q
      | .mulx _ => q + 1
      | .convout => q) 0

/-- The entries of the plan that have run. -/
def runDone (r : SeqRun) : List PlanEntry := (plan r.E).take ((plan r.E).length - r.plan.length)

/-- A sequencer's registers hold the values of R155's proof: `Xm = X·ρ` and `Z = X^q·ρ` modulo `M`, with
`q` the power of the entries that have run. -/
structure RunValues (s : State) (r : SeqRun) : Prop where
  xm : ∀ x, r.Xm = some x → val x = val r.X * rho (s.slot r.slot).hw % val (s.slot r.slot).M
  z : ∀ z, r.Z = some z →
    val z = val r.X ^ planPower (runDone r) * rho (s.slot r.slot).hw % val (s.slot r.slot).M

/-- Every running sequencer's registers hold the values of R155's proof. -/
def State.SeqValues (s : State) : Prop := ∀ c r, (s.caller c).seq = .run r → RunValues s r

/-! Runs. -/

/-- The same caller's command executed `n` times, from a next state to the next: an EXP with no other
caller's step between (R150). -/
def execTimes (i : Instr) : Nat → State → Host.Outcome State Fault Refusal
  | 0, s => .next s
  | n + 1, s =>
    match exec i s with
    | .next t => execTimes i n t
    | .fault f => .fault f
    | .refused r => .refused r

/-- Is the event a liveness callback of caller `c`? Its bit, if so (R154). -/
def liveBit (c : Nat) : Event → Option Nat
  | .live d i => if d = c then some i else none
  | .acq _ => none
  | .rel _ => none
  | .hwop _ _ _ _ _ _ => none
  | .ret _ _ => none

/-- The number of hardware steps of a command that completes (R241, R157). -/
def hwSteps (i : Instr) (op : OperandRecord) : Nat :=
  match i with
  | .ctxBuild _ => 0
  | .ctxRead _ _ => 0
  | .ctxDestroy _ => 0
  | .hwCapacity => 0
  | .acquire => 0
  | .release => 0
  | .hwModmul => 1
  | .hwMontmul => 1
  | .mult _ => 1
  | .exp _ _ => expSteps (val op.B)

/-- An infinite run: each state steps to the next, and between two steps the callers may be given further
commands from outside (R20; assumption log 5). With no more commands given every run is finite. -/
def IsRun (run : Nat → State) : Prop :=
  ∀ n, ∃ t more, step (run n) = .next t ∧ run (n + 1) = t.appendStreams more

/-- Weak fairness (R243): a caller whose step stays enabled is eventually scheduled. -/
def WeaklyFair (run : Nat → State) : Prop :=
  ∀ c n, (∀ m, n ≤ m → (run m).enabled c = true) → ∃ m, n ≤ m ∧ (run m).nextCaller = some c

/-- Is caller `c` held for the lock (R204)? Its next step is one that waits, and it is not stopped. -/
def State.heldFor (s : State) (c : Nat) : Prop :=
  s.stopped c = false ∧ ∃ i, s.nextOf c = some (.ok i) ∧ waits i (s.onBehalf c) = true

/-- Strong fairness with respect to the lock (R243): a caller that is held or enabled from some point on
is eventually scheduled if the lock is free infinitely often. -/
def FairForLock (run : Nat → State) : Prop :=
  ∀ c n, (∀ m, n ≤ m → (run m).enabled c = true ∨ (run m).heldFor c) →
    (∀ m, n ≤ m → ∃ j, m ≤ j ∧ (run j).holder = none) → ∃ m, n ≤ m ∧ (run m).nextCaller = some c

/-- A held caller eventually runs, if whoever holds the multiplier from there on eventually releases it
(R204, R243). -/
def HeldCallersRun (run : Nat → State) : Prop :=
  ∀ c n, (run n).heldFor c →
    (∀ m d, n ≤ m → (run m).holder = some d → ∃ j, m ≤ j ∧ (run j).holder ≠ some d) →
    ∃ m, n ≤ m ∧ (run m).nextCaller = some c

/-- A fair run (R243). -/
def FairRun (run : Nat → State) : Prop :=
  IsRun run ∧ WeaklyFair run ∧ FairForLock run ∧ HeldCallersRun run

/-- Can the callers of this list step one after the other, whatever the scheduler would choose? (R13, R213) -/
def CanInterleave : List Nat → State → Prop
  | [], _ => True
  | c :: cs, s =>
    s.enabled c = true ∧ ∃ t, stepOf c (s.scheduled c) = .next t ∧ CanInterleave cs t

/-- The callers whose steps the next `n` steps are. -/
def callersOf : Nat → State → List Nat
  | 0, _ => []
  | n + 1, s =>
    match s.nextCaller, step s with
    | some c, .next t => c :: callersOf n t
    | _, _ => []

end Sys2Proof.Machine
end

