-- ==== Sys2Proof/Certificates/Slice0/Obligations.lean ====
section
/-! DEFINITION. The statements for the provers. Each docstring names the rule of the spec it states, or
says what it rests on. `s.cur` is the caller whose step is taken; every statement about a command takes
it to be one of the callers, which the invariant `State.Inv.cur_lt` says of every state of a run. -/

open Sys2Proof Sys2Proof.Machine

/-! Encoding (R70 to R77). -/

/-- Words written out from the spec's encodings decode to the commands they stand for, and words the
vectors of 95_test_vectors.md section 2.1 call refused are refused under their names. -/
def Obligations.DecodesWordsOfTheSpec : Prop :=
  decode 0x00000F01#32 = .ok (.ctxBuild 15) ∧ decode 0x00006002#32 = .ok (.ctxRead 0 3#3) ∧
  decode 0x00000F03#32 = .ok (.ctxDestroy 15) ∧ decode 0x00000004#32 = .ok .hwCapacity ∧
  decode 0x00000010#32 = .ok .acquire ∧ decode 0x00000011#32 = .ok .release ∧
  decode 0x00000012#32 = .ok .hwModmul ∧ decode 0x00000013#32 = .ok .hwMontmul ∧
  decode 0x00000320#32 = .ok (.mult 3) ∧ decode 0x00001221#32 = .ok (.exp 2 true) ∧
  decode 0x00001001#32 = .error .illegalCommand ∧ decode 0x0000A002#32 = .error .reservedField ∧
  decode 0x00010020#32 = .error .illegalCommand ∧ decode 0x00000000#32 = .error .illegalCommand

/-- R75 over the table of R74: at most one row matches a word; a word that matches no row is refused
`IllegalCommand`; a word that matches a row is that row's command with the fields `h = w[11:8]`,
`l = w[12]`, `f = w[15:13]`, but for CTX_READ with `f ≥ 5`, refused `ReservedField`. -/
def Obligations.DecodeFollowsTheTable : Prop :=
  ∀ w : Word,
    let table : List (Word × Word) :=
      [(0x01#32, 0xFFFFF0FF#32), (0x02#32, 0xFFFF10FF#32), (0x03#32, 0xFFFFF0FF#32),
        (0x04#32, 0xFFFFFFFF#32), (0x10#32, 0xFFFFFFFF#32), (0x11#32, 0xFFFFFFFF#32),
        (0x12#32, 0xFFFFFFFF#32), (0x13#32, 0xFFFFFFFF#32), (0x20#32, 0xFFFFF0FF#32),
        (0x21#32, 0xFFFFE0FF#32)]
    let h : SlotNo := Fin.ofNat 16 (w.toNat / 2 ^ 8)
    let l : Bool := w.toNat / 2 ^ 12 % 2 == 1
    let f : BitVec 3 := BitVec.ofNat 3 (w.toNat / 2 ^ 13)
    (∀ p ∈ table, ∀ q ∈ table, w &&& p.2 = p.1 → w &&& q.2 = q.1 → p = q) ∧
    ((∀ p ∈ table, w &&& p.2 ≠ p.1) → decode w = .error .illegalCommand) ∧
    (w &&& 0xFFFFF0FF#32 = 0x01#32 → decode w = .ok (.ctxBuild h)) ∧
    (w &&& 0xFFFF10FF#32 = 0x02#32 →
      decode w = if 5 ≤ f.toNat then .error .reservedField else .ok (.ctxRead h f)) ∧
    (w &&& 0xFFFFF0FF#32 = 0x03#32 → decode w = .ok (.ctxDestroy h)) ∧
    (w = 0x04#32 → decode w = .ok .hwCapacity) ∧
    (w = 0x10#32 → decode w = .ok .acquire) ∧
    (w = 0x11#32 → decode w = .ok .release) ∧
    (w = 0x12#32 → decode w = .ok .hwModmul) ∧
    (w = 0x13#32 → decode w = .ok .hwMontmul) ∧
    (w &&& 0xFFFFF0FF#32 = 0x20#32 → decode w = .ok (.mult h)) ∧
    (w &&& 0xFFFFE0FF#32 = 0x21#32 → decode w = .ok (.exp h l))

/-- Decoding and encoding agree both ways: a word decodes to a command exactly when the command is well
formed and the word is its encoding. So no field bit is dropped, and no other word is accepted. -/
def Obligations.DecodeEncodeAgree : Prop :=
  ∀ (w : Word) (i : Instr), decode w = .ok i ↔ (i.wf = true ∧ encode i = w)

/-- Byte 0 of a serialized word is its bits 7..0 (R52, PRESUMED there: assumption log 12): four bytes
decode as the word they make, least significant byte first, whatever follows. -/
def Obligations.BytesDecodeLittleEndian : Prop :=
  (∀ (b0 b1 b2 b3 : Byte) (rest : List Byte),
    decodeBytes (b0 :: b1 :: b2 :: b3 :: rest) =
      some (decode (BitVec.ofNat 32
        (b0.toNat + 2 ^ 8 * b1.toNat + 2 ^ 16 * b2.toNat + 2 ^ 24 * b3.toNat)), rest)) ∧
  ∀ (w : Word) (rest : List Byte), decodeBytes (wordToBytes w ++ rest) = some (decode w, rest)

/-! The step. -/

/-- A step runs the decoded command: with caller `c` next, its sequencer idle and a command at its
command pointer, the step is the command's `exec`, in the state where `c`'s step is taken and with that
command's operand record, or the refusal of a word that does not decode; with the sequencer running, it
is EXP's next step. -/
def Obligations.StepRunsDecodedCommand : Prop :=
  ∀ (s : State) (c : Nat), s.nextCaller = some c →
    (∀ cmd, (s.caller c).seq = .idle → (s.caller c).stream[(s.caller c).cp]? = some cmd →
      (s.scheduled c).op = cmd.op ∧
      (∀ i, decode cmd.word = .ok i → step s = exec i (s.scheduled c)) ∧
      (∀ e, decode cmd.word = .error e →
        step s = .next ((s.scheduled c).refuseCmd (refusalOf e)))) ∧
    (∀ r, (s.caller c).seq = .run r → step s = exec (.exp r.slot r.L) (s.scheduled c))

/-- Any enabled step of any caller may be the next one (R13, R213): for every caller with an enabled step
some draw and some patience of the scheduler, all other draws as they were, make the step that caller's.
(The form of the scheduler is the model's: assumption log 4.) -/
def Obligations.AnyEnabledStepMayBeNext : Prop :=
  ∀ (s : State) (c : Nat), s.enabled c = true →
    ∃ (d : Draws) (ts : List Turn), d.szOk = s.draws.szOk ∧ d.allocOk = s.draws.allocOk ∧
      d.bufs = s.draws.bufs ∧ d.taken = s.draws.taken ∧
      ts.map Turn.caller = s.turns.map Turn.caller ∧
      step ((s.setDraws d).setTurns ts) = stepOf c (((s.setDraws d).setTurns ts).scheduled c)

/-- The scheduler's fairness excludes no finite interleaving (R13, R213): if the callers of a list can step
one after the other, each with an enabled step when its turn comes, then under some draws and some
patience of the scheduler, all other draws as they were, the next steps are theirs, in that order. (The
form of the scheduler is the model's: assumption log 4.) -/
def Obligations.EveryInterleavingMayHappen : Prop :=
  ∀ (s : State) (cs : List Nat), CanInterleave cs s →
    ∃ (d : Draws) (ts : List Turn), d.szOk = s.draws.szOk ∧ d.allocOk = s.draws.allocOk ∧
      d.bufs = s.draws.bufs ∧ d.taken = s.draws.taken ∧
      ts.map Turn.caller = s.turns.map Turn.caller ∧
      callersOf cs.length ((s.setDraws d).setTurns ts) = cs

/-- R243: the scheduler is fair. In every infinite run, whatever its draws and whatever commands the callers
are given on the way: a caller whose step stays enabled is eventually scheduled; a caller held for the
lock is eventually scheduled if the lock is free infinitely often; and so a held caller eventually runs
if every holder from there on eventually releases. (A run that is given no more commands is finite:
`LoadedStreamsRunOut`, `HeldAtTheEndIsStuck`.) -/
def Obligations.SchedulerIsFair : Prop :=
  ∀ run : Nat → State, (run 0).Inv → IsRun run →
    WeaklyFair run ∧ FairForLock run ∧ HeldCallersRun run

/-- Every run of loaded streams ends (R242): with no more commands given, no infinite sequence of steps
exists. So in such a run every caller whose step stays enabled is scheduled (R243). -/
def Obligations.LoadedStreamsRunOut : Prop :=
  ∀ run : Nat → State, ∃ n, step (run n) ≠ .next (run (n + 1))

/-- A caller that is held when a run ends is stuck, for a reason R204 names: it holds the multiplier itself,
or the holder has a fault or refusal mark, has finished its stream, or is itself held. -/
def Obligations.HeldAtTheEndIsStuck : Prop :=
  ∀ (s : State) (c : Nat), s.Inv → (∀ d, s.enabled d = false) → s.heldFor c →
    ∃ d, s.holder = some d ∧ d < s.callers.length ∧
      (d = c ∨ s.stopped d = true ∨
        ((s.caller d).seq = .idle ∧ (s.caller d).stream.length ≤ (s.caller d).cp) ∨ s.heldFor d)

/-- The end of a run (R242): `step` stops exactly when no caller has an enabled step, by the name
`runFinished` exactly when moreover every caller is idle at the end of its stream and nothing is marked;
it stops in no other way and refuses nothing. -/
def Obligations.RunEndsWhenNoStepIsEnabled : Prop :=
  ∀ s : State,
    ((∃ f, step s = .fault f) ↔ ∀ c, s.enabled c = false) ∧
    (step s = .fault .runFinished ↔
      (∀ c, c < s.callers.length →
        (s.caller c).seq = .idle ∧ (s.caller c).cp = (s.caller c).stream.length) ∧
      s.faults = [] ∧ s.refused = [] ∧ ∀ c, s.enabled c = false) ∧
    ∀ r, step s ≠ .refused r

/-- R30: the marks are empty at reset, no step removes an entry, and a caller with a mark takes no
further step: it is not the caller of the next step and its private state stays. -/
def Obligations.MarksStayAndStopTheCaller : Prop :=
  (∀ cfg : Config, (State.resetWith cfg).faults = [] ∧ (State.resetWith cfg).refused = []) ∧
  ∀ s t : State, step s = .next t →
    s.faults <+: t.faults ∧ s.refused <+: t.refused ∧
    ∀ c, ((∃ f ∈ s.faults, f.caller = c) ∨ ∃ f ∈ s.refused, f.caller = c) →
      t.cur ≠ c ∧ t.caller c = s.caller c

/-- A step changes the private state of one caller at most (R213), no caller's command stream (R20, R62)
and no parameter (R6). -/
def Obligations.StepTouchesOneCaller : Prop :=
  ∀ s t : State, step s = .next t →
    t.cur < s.callers.length ∧ t.cfg = s.cfg ∧ t.callers.length = s.callers.length ∧
    (∀ c, c ≠ t.cur → t.caller c = s.caller c) ∧
    ∀ c, (t.caller c).stream = (s.caller c).stream

/-- R37: the command pointer is 0 at reset; a step appends to the history, and a caller's command pointer
goes up by one exactly when the step appends a `RET` of that caller, whatever the status, and else
stays. -/
def Obligations.CommandPointerCountsReturns : Prop :=
  (∀ (cfg : Config) (c : Nat), ((State.resetWith cfg).caller c).cp = 0) ∧
  ∀ s t : State, step s = .next t →
    ∃ new : List Event, t.evt = s.evt ++ new ∧
      ∀ c, ((t.caller c).cp = (s.caller c).cp + 1 ∧ ∃ pre st, new = pre ++ [.ret c st] ∧
              ∀ d st', Event.ret d st' ∉ pre) ∨
        ((t.caller c).cp = (s.caller c).cp ∧ ∀ st, Event.ret c st ∉ new)

/-! The arithmetic of the context and the multiplier. -/

/-- R100: `cap(n) = G · ceil(n / G)`, with the properties and the examples the rule lists. -/
def Obligations.CapRoundsUpToTheGranularity : Prop :=
  (∀ G : Nat, 1 ≤ G →
    (∀ n, cap G n = G * ⌈(n : ℚ) / (G : ℚ)⌉₊) ∧ cap G 0 = 0 ∧ (∀ n, n ≤ cap G n) ∧
    (∀ n m, n ≤ m → cap G n ≤ cap G m) ∧ (∀ n, G ∣ cap G n) ∧ ∀ n, cap G (cap G n) = cap G n) ∧
  cap 16 1 = 16 ∧ cap 16 64 = 64 ∧ cap 16 65 = 80 ∧ cap 16 128 = 128

/-- R101: for an odd word `m0` the constant is the one `p` with `m0 · p ≡ -1 (mod 2^32)`, the same for
every modulus with that least word; an odd start has one correct bit, `m0` itself three, and each
iteration doubles the correct low bits; and the result does not depend on the odd start. -/
def Obligations.MprimeIsTheUniqueConstant : Prop :=
  ∀ m0 : Word, m0.toNat % 2 = 1 →
    (∀ M : Nat, M % 2 ^ 32 = m0.toNat → M * (mprimeOf m0).toNat % 2 ^ 32 = 2 ^ 32 - 1) ∧
    (∀ p : Word, m0.toNat * p.toNat % 2 ^ 32 = 2 ^ 32 - 1 → p = mprimeOf m0) ∧
    (∀ (x : Word) (k : Nat), 2 * k ≤ 32 → m0.toNat * x.toNat % 2 ^ k = 1 % 2 ^ k →
      m0.toNat * (newton m0 x).toNat % 2 ^ (2 * k) = 1 % 2 ^ (2 * k)) ∧
    (∀ x : Word, x.toNat % 2 = 1 → m0.toNat * x.toNat % 2 = 1) ∧
    m0.toNat * m0.toNat % 2 ^ 3 = 1 ∧
    ∀ x : Word, x.toNat % 2 = 1 →
      - newton m0 (newton m0 (newton m0 (newton m0 (newton m0 x)))) = mprimeOf m0

/-- R102: `Rinv` has `hw` words and the value `2^(64·hw) mod M = ρ_hw² mod M`; it fits in the words of the
modulus, the words above are zero; for `M = 1` it is 0. -/
def Obligations.RinvIsTheSquaredRadix : Prop :=
  ∀ M n hw : Nat, M % 2 = 1 → M < 2 ^ (32 * n) → n ≤ hw →
    wc (rinvOf M hw) = hw ∧ val (rinvOf M hw) = 2 ^ (64 * hw) % M ∧
    val (rinvOf M hw) = rho hw ^ 2 % M ∧
    (∀ i, n ≤ i → i < hw → (rinvOf M hw)[i]? = some 0#32) ∧
    (M = 1 → val (rinvOf M hw) = 0)

/-- R9, R10 and R120: the one-pass product is the one residue below an odd `M` that times `ρ_h` is `a · b`
modulo `M`. -/
def Obligations.OnePassDividesByTheRadix : Prop :=
  ∀ h M a b : Nat, M % 2 = 1 →
    montMul h M a b < M ∧ montMul h M a b * 2 ^ (32 * h) % M = a * b % M ∧
    ∀ r, r < M → r * 2 ^ (32 * h) % M = a * b % M → r = montMul h M a b

/-- R122, the unit's value: drawn, any `h`-word buffer, where the modulus is even or the constant wrong,
or where under `P_UNREDUCED = draw` an operand is not below the modulus (`D` only in two passes); else
the exact value of one or two passes, below the modulus, in `h` words, with no draw. The modulus fits
`h` words, which the width checks before it ensure. -/
def Obligations.UnitValue : Prop :=
  ∀ (cfg : Config) (d : Draws) (ps : Passes) (X Y M D : Buf) (p : Word) (h : Nat), wc M ≤ h →
    let r := hwValue cfg d ps X Y M D p h
    if val M % 2 = 0 ∨ val M * p.toNat % 2 ^ 32 ≠ 2 ^ 32 - 1 then
      r = (d.bufValue h, d.tookBuf) ∧ wc r.1 = h
    else if cfg.unreduced = .draw ∧
        (val M ≤ val X ∨ val M ≤ val Y ∨ (ps = .two ∧ val M ≤ val D)) then
      r = (d.bufValue h, d.tookBuf) ∧ wc r.1 = h
    else
      r.2 = d ∧ wc r.1 = h ∧ val r.1 < val M ∧
      (ps = .one → val r.1 * 2 ^ (32 * h) % val M = val X * val Y % val M) ∧
      (ps = .two → val r.1 * 2 ^ (64 * h) % val M = val X * val Y * val D % val M)

/-- R12: every value of a draw's type is the value of some draw; and so for the scheduler's two draws, which
are the model's (assumption log 4). -/
def Obligations.EveryDrawIsAdmitted : Prop :=
  (∀ b : Bool, ∃ d : Draws, d.szOkValue = b) ∧ (∀ b : Bool, ∃ d : Draws, d.allocOkValue = b) ∧
  (∀ b : Buf, ∃ d : Draws, d.bufValue (wc b) = b) ∧ (∀ c : Nat, ∃ d : Draws, d.pickValue = c) ∧
  ∀ n : Nat, ∃ d : Draws, d.patienceValue = n

/-! The context commands (R103 to R108). -/

/-- R103: HW_CAPACITY, its word, and its effect: it returns `cap(op.S)`, for every `op.S`, and changes
nothing but the return. -/
def Obligations.HwCapacityReturnsTheCapacity : Prop :=
  decode 0x00000004#32 = .ok .hwCapacity ∧
  ∀ s : State, s.cur < s.callers.length →
    ∃ t, exec .hwCapacity s = .next t ∧
      Returned s t .ok (.scalar (cap s.cfg.blockWords s.op.S)) ∧
      SameSlots s t ∧ SameLock s t ∧ SameMarks s t ∧ t.draws = s.draws ∧
      t.evt = s.evt ++ [.ret s.cur .ok]

/-- R104: CTX_BUILD, its word, its outcomes in order, the context it writes, and what it leaves. -/
def Obligations.CtxBuildWritesTheContext : Prop :=
  (∀ h : SlotNo, decode (0x00000001#32 ||| BitVec.ofNat 32 h.val <<< 8) = .ok (.ctxBuild h)) ∧
  ∀ (s : State) (h : SlotNo), s.cur < s.callers.length → 1 ≤ s.cfg.blockWords →
    ∃ t, exec (.ctxBuild h) s = .next t ∧
      if (s.slot h).valid = true then
        t = { s with faults := s.faults ++ [⟨.slotInUse, s.cur, (s.caller s.cur).cp⟩] }
      else if wc s.op.A ≠ s.op.S then
        t = { s with refused := s.refused ++ [⟨.operandShape, s.cur, (s.caller s.cur).cp⟩] }
      else if s.op.S = 0 ∨ (s.op.A.headD 0#32).toNat % 2 = 0 then
        Returned s t .invalidModulus .none ∧ SameSlots s t ∧ SameLock s t ∧ SameMarks s t ∧
        t.draws = s.draws ∧ t.evt = s.evt ++ [.ret s.cur .invalidModulus]
      else
        SameSlotsBut h s t ∧ SameLock s t ∧ SameMarks s t ∧ t.draws = s.draws.tookAllocOk ∧
        if s.draws.allocOkValue = true then
          Returned s t .ok .none ∧ t.evt = s.evt ++ [.ret s.cur .ok] ∧
          (t.slot h).valid = true ∧ (t.slot h).M = s.op.A ∧ (t.slot h).wc = s.op.S ∧
          (t.slot h).hw = cap s.cfg.blockWords s.op.S ∧
          (s.op.A.headD 0#32).toNat * (t.slot h).mprime.toNat % 2 ^ 32 = 2 ^ 32 - 1 ∧
          wc (t.slot h).Rinv = (t.slot h).hw ∧
          val (t.slot h).Rinv = 2 ^ (64 * (t.slot h).hw) % val s.op.A ∧ (t.slot h).borrows = 0
        else
          Returned s t .allocationFailure .none ∧ t.slot h = s.slot h ∧
          t.evt = s.evt ++ [.ret s.cur .allocationFailure]

/-- R105: CTX_READ, its word, and its effect: it returns the selected field of a valid context and changes
nothing but the return. -/
def Obligations.CtxReadReturnsTheField : Prop :=
  (∀ (h : SlotNo) (f : BitVec 3), f.toNat < 5 →
    decode (0x00000002#32 ||| BitVec.ofNat 32 h.val <<< 8 ||| BitVec.ofNat 32 f.toNat <<< 13) =
      .ok (.ctxRead h f)) ∧
  ∀ (s : State) (h : SlotNo) (f : BitVec 3), s.cur < s.callers.length → f.toNat < 5 →
    ∃ t, exec (.ctxRead h f) s = .next t ∧
      if (s.slot h).valid = true then
        ∃ v, Returned s t .ok v ∧ SameSlots s t ∧ SameLock s t ∧ SameMarks s t ∧
          t.draws = s.draws ∧ t.evt = s.evt ++ [.ret s.cur .ok] ∧
          (f.toNat = 0 → v = .scalar (s.slot h).wc) ∧ (f.toNat = 1 → v = .scalar (s.slot h).hw) ∧
          (f.toNat = 2 → v = .scalar (s.slot h).mprime.toNat) ∧
          (f.toNat = 3 → v = .buffer (s.slot h).Rinv) ∧ (f.toNat = 4 → v = .buffer (s.slot h).M)
      else t = { s with faults := s.faults ++ [⟨.badContext, s.cur, (s.caller s.cur).cp⟩] }

/-- R106: CTX_DESTROY, its word, and its effect: it clears `valid` of a valid slot that no exponentiation
uses; the slot's data fields become unspecified, so nothing is said of them. -/
def Obligations.CtxDestroyClearsValid : Prop :=
  (∀ h : SlotNo, decode (0x00000003#32 ||| BitVec.ofNat 32 h.val <<< 8) = .ok (.ctxDestroy h)) ∧
  ∀ (s : State) (h : SlotNo), s.cur < s.callers.length →
    ∃ t, exec (.ctxDestroy h) s = .next t ∧
      if (s.slot h).valid = false then
        t = { s with faults := s.faults ++ [⟨.badContext, s.cur, (s.caller s.cur).cp⟩] }
      else if 0 < (s.slot h).borrows then
        t = { s with faults := s.faults ++ [⟨.contextBusy, s.cur, (s.caller s.cur).cp⟩] }
      else
        Returned s t .ok .none ∧ (t.slot h).valid = false ∧
        (t.slot h).borrows = (s.slot h).borrows ∧ SameSlotsBut h s t ∧ SameLock s t ∧
        SameMarks s t ∧ t.evt = s.evt ++ [.ret s.cur .ok]

/-- R107: two successful CTX_BUILDs with the same `op.A` and `op.S`, in states with the same `G`, into
any slots, produce the same `wc`, `hw`, `mprime` and `Rinv`. -/
def Obligations.ContextBuildIsDeterministic : Prop :=
  ∀ (s u s' u' : State) (h g : SlotNo), s.cur < s.callers.length → u.cur < u.callers.length →
    s.cfg.blockWords = u.cfg.blockWords → s.op.A = u.op.A → s.op.S = u.op.S →
    exec (.ctxBuild h) s = .next s' → Returned s s' .ok .none →
    exec (.ctxBuild g) u = .next u' → Returned u u' .ok .none →
    (s'.slot h).wc = (u'.slot g).wc ∧ (s'.slot h).hw = (u'.slot g).hw ∧
    (s'.slot h).mprime = (u'.slot g).mprime ∧ (s'.slot h).Rinv = (u'.slot g).Rinv

/-- R108: the four context commands never touch the multiplier: they run whatever the holder, the lock,
the enable and the counters stay, and no `ACQ`, `REL`, `HWOP` or `LIVE` event is emitted. -/
def Obligations.ContextCommandsIgnoreTheLock : Prop :=
  ∀ (s : State) (i : Instr) (h : SlotNo) (f : BitVec 3),
    i = .ctxBuild h ∨ i = .ctxRead h f ∨ i = .ctxDestroy h ∨ i = .hwCapacity →
    (∀ c, c < s.callers.length → s.stopped c = false → s.nextOf c = some (.ok i) →
      s.enabled c = true) ∧
    ∃ t, exec i s = .next t ∧ SameLock s t ∧
      (t.evt = s.evt ∨ ∃ st, t.evt = s.evt ++ [.ret s.cur st])

/-- A step leaves every valid context's fields as they are (R22, R64), but for the destruction of one that
no exponentiation uses, by a CTX_DESTROY of that slot. -/
def Obligations.ValidContextsAreImmutable : Prop :=
  ∀ (s t : State) (h : SlotNo), step s = .next t → (s.slot h).valid = true →
    ((t.slot h).valid = true ∧ (t.slot h).M = (s.slot h).M ∧ (t.slot h).wc = (s.slot h).wc ∧
      (t.slot h).hw = (s.slot h).hw ∧ (t.slot h).mprime = (s.slot h).mprime ∧
      (t.slot h).Rinv = (s.slot h).Rinv) ∨
    ((t.slot h).valid = false ∧ (s.slot h).borrows = 0 ∧
      s.nextOf t.cur = some (.ok (.ctxDestroy h)))

/-! The lock and the primitive multiplies (R124 to R127). -/

/-- R124: ACQUIRE, its word, and its effect: it takes a free multiplier and enables it. Its step is enabled,
for a caller that no mark stops, exactly when no caller, itself included, holds the multiplier. -/
def Obligations.AcquireTakesTheMultiplier : Prop :=
  decode 0x00000010#32 = .ok .acquire ∧
  ∀ s : State,
    (s.cur < s.callers.length → s.holder = none →
      ∃ t, exec .acquire s = .next t ∧ Returned s t .ok .none ∧ t.holder = some s.cur ∧
        t.hwEn = true ∧ t.acqCount = s.acqCount + 1 ∧ t.relCount = s.relCount ∧
        SameSlots s t ∧ SameMarks s t ∧ t.draws = s.draws ∧
        t.evt = s.evt ++ [.acq s.cur, .ret s.cur .ok]) ∧
    ∀ c, c < s.callers.length → s.stopped c = false → s.nextOf c = some (.ok .acquire) →
      (s.enabled c = true ↔ s.holder = none)

/-- R125: RELEASE, its word, and its effect: by the holder it frees and disables the multiplier; by anyone
else it faults. -/
def Obligations.ReleaseGivesTheMultiplierBack : Prop :=
  decode 0x00000011#32 = .ok .release ∧
  ∀ s : State, s.cur < s.callers.length →
    ∃ t, exec .release s = .next t ∧
      if s.holder = some s.cur then
        Returned s t .ok .none ∧ t.holder = none ∧ t.hwEn = false ∧
        t.relCount = s.relCount + 1 ∧ t.acqCount = s.acqCount ∧ SameSlots s t ∧ SameMarks s t ∧
        t.draws = s.draws ∧ t.evt = s.evt ++ [.rel s.cur, .ret s.cur .ok]
      else t = { s with faults := s.faults ++ [⟨.unbalancedRelease, s.cur, (s.caller s.cur).cp⟩] }

/-- R126: HW_MODMUL, its word and its outcomes in order. The value is the unit's (R122, two passes): where the modulus
is odd, the constant right and the setting `exact`, the residue `X·Y·D·ρ_h⁻² mod M`. -/
def Obligations.HwModmulMultipliesInTwoPasses : Prop :=
  decode 0x00000012#32 = .ok .hwModmul ∧
  ∀ s : State, s.cur < s.callers.length →
    ∃ t, exec .hwModmul s = .next t ∧
      if s.holder ≠ some s.cur then
        t = { s with faults := s.faults ++ [⟨.lockNotHeld, s.cur, (s.caller s.cur).cp⟩] }
      else if s.op.S < max (max (wc s.op.A) (wc s.op.B)) (max (wc s.op.C) (wc s.op.D)) then
        t = { s with refused := s.refused ++ [⟨.operandShape, s.cur, (s.caller s.cur).cp⟩] }
      else
        SameSlots s t ∧ SameLock s t ∧ SameMarks s t ∧
        if s.op.S = 0 ∨ s.cfg.hwMaxWords < s.op.S then
          Returned s t .hardwareFault .none ∧ t.draws = s.draws ∧
          t.evt = s.evt ++ [.ret s.cur .hardwareFault]
        else if s.draws.szOkValue = false then
          Returned s t .hardwareFault .none ∧ t.draws = s.draws.tookSzOk ∧
          t.evt = s.evt ++ [.ret s.cur .hardwareFault]
        else
          ∃ r, (r, t.draws) = hwValue s.cfg s.draws.tookSzOk .two s.op.A s.op.B s.op.C s.op.D
              s.op.P s.op.S ∧
            wc r = s.op.S ∧ Returned s t .ok (.buffer r) ∧
            t.evt = s.evt ++ [.hwop s.cur .modmul (val s.op.A) (val s.op.B) (val s.op.C) (val r),
              .ret s.cur .ok] ∧
            (val s.op.C % 2 = 1 → val s.op.C * s.op.P.toNat % 2 ^ 32 = 2 ^ 32 - 1 →
              s.cfg.unreduced = .exact →
              val r < val s.op.C ∧
              val r * 2 ^ (64 * s.op.S) % val s.op.C =
                val s.op.A * val s.op.B * val s.op.D % val s.op.C)

/-- R127: HW_MONTMUL, its word and its outcomes in order. The value is the unit's (R122, one pass): where the modulus is
odd, the constant right and the setting `exact`, the residue `X·Y·ρ_h⁻¹ mod M`. -/
def Obligations.HwMontmulMultipliesInOnePass : Prop :=
  decode 0x00000013#32 = .ok .hwMontmul ∧
  ∀ s : State, s.cur < s.callers.length →
    ∃ t, exec .hwMontmul s = .next t ∧
      if s.holder ≠ some s.cur then
        t = { s with faults := s.faults ++ [⟨.lockNotHeld, s.cur, (s.caller s.cur).cp⟩] }
      else if s.op.S < max (max (wc s.op.A) (wc s.op.B)) (wc s.op.C) then
        t = { s with refused := s.refused ++ [⟨.operandShape, s.cur, (s.caller s.cur).cp⟩] }
      else
        SameSlots s t ∧ SameLock s t ∧ SameMarks s t ∧
        if s.op.S = 0 ∨ s.cfg.hwMaxWords < s.op.S then
          Returned s t .hardwareFault .none ∧ t.draws = s.draws ∧
          t.evt = s.evt ++ [.ret s.cur .hardwareFault]
        else if s.draws.szOkValue = false then
          Returned s t .hardwareFault .none ∧ t.draws = s.draws.tookSzOk ∧
          t.evt = s.evt ++ [.ret s.cur .hardwareFault]
        else
          ∃ r, (∀ D, (r, t.draws) = hwValue s.cfg s.draws.tookSzOk .one s.op.A s.op.B s.op.C D
              s.op.P s.op.S) ∧
            wc r = s.op.S ∧ Returned s t .ok (.buffer r) ∧
            t.evt = s.evt ++ [.hwop s.cur .montmul (val s.op.A) (val s.op.B) (val s.op.C) (val r),
              .ret s.cur .ok] ∧
            (val s.op.C % 2 = 1 → val s.op.C * s.op.P.toNat % 2 ^ 32 = 2 ^ 32 - 1 →
              s.cfg.unreduced = .exact →
              val r < val s.op.C ∧
              val r * 2 ^ (32 * s.op.S) % val s.op.C = val s.op.A * val s.op.B % val s.op.C)

/-! The multiply engine (R128, R129, R131). -/

/-- R128: MULT, its word; its checks first, whatever the lock; then the wait for the lock; then acquire,
multiply and release in one step, with the release on every path. A valid context has `hw ≥ 1` (R23).
Its step is enabled, for a caller that no mark stops, exactly when a check fails or the lock is free. -/
def Obligations.MultAcquiresMultipliesReleases : Prop :=
  (∀ h : SlotNo, decode (0x00000020#32 ||| BitVec.ofNat 32 h.val <<< 8) = .ok (.mult h)) ∧
  ∀ (s : State) (h : SlotNo), s.cur < s.callers.length →
    ((s.slot h).valid = false →
      exec (.mult h) s =
        .next { s with faults := s.faults ++ [⟨.badContext, s.cur, (s.caller s.cur).cp⟩] }) ∧
    ((s.slot h).valid = true → (s.slot h).hw < max (wc s.op.A) (wc s.op.B) →
      exec (.mult h) s =
        .next { s with refused := s.refused ++ [⟨.operandShape, s.cur, (s.caller s.cur).cp⟩] }) ∧
    ((s.slot h).valid = true → max (wc s.op.A) (wc s.op.B) ≤ (s.slot h).hw → s.holder = none →
      1 ≤ (s.slot h).hw →
      ∃ t, exec (.mult h) s = .next t ∧ TookAndGave s t ∧ SameSlots s t ∧ SameMarks s t ∧
        if s.cfg.hwMaxWords < (s.slot h).hw then
          Returned s t .hardwareFault .none ∧ t.draws = s.draws ∧
          t.evt = s.evt ++ [.acq s.cur, .rel s.cur, .ret s.cur .hardwareFault]
        else if s.draws.szOkValue = false then
          Returned s t .hardwareFault .none ∧ t.draws = s.draws.tookSzOk ∧
          t.evt = s.evt ++ [.acq s.cur, .rel s.cur, .ret s.cur .hardwareFault]
        else
          ∃ r, (r, t.draws) = hwValue s.cfg s.draws.tookSzOk .two s.op.A s.op.B (s.slot h).M
              (s.slot h).Rinv (s.slot h).mprime (s.slot h).hw ∧
            wc r = (s.slot h).hw ∧ Returned s t .ok (.buffer r) ∧
            t.evt = s.evt ++ [.acq s.cur,
              .hwop s.cur .modmul (val s.op.A) (val s.op.B) (val (s.slot h).M) (val r),
              .rel s.cur, .ret s.cur .ok]) ∧
    ∀ c, c < s.callers.length → s.stopped c = false → s.nextOf c = some (.ok (.mult h)) →
      (s.enabled c = true ↔
        (s.slot h).valid = false ∨
        (s.slot h).hw < max (wc (s.onBehalf c).op.A) (wc (s.onBehalf c).op.B) ∨ s.holder = none)

/-- The value of MULT (R129): on a valid context, operands that fit, sizing that succeeds, and either
`P_UNREDUCED = exact` or operands below the modulus, it returns `X·Y mod M`. -/
def Obligations.MultReturnsTheProduct : Prop :=
  ∀ (s : State) (h : SlotNo), s.cur < s.callers.length → (s.slot h).valid = true →
    ContextOk s.cfg (s.slot h) → wc s.op.A ≤ (s.slot h).hw → wc s.op.B ≤ (s.slot h).hw →
    s.holder = none → (s.slot h).hw ≤ s.cfg.hwMaxWords → s.draws.szOkValue = true →
    s.cfg.unreduced = .exact ∨
      (val s.op.A < val (s.slot h).M ∧ val s.op.B < val (s.slot h).M) →
    ∃ t, exec (.mult h) s = .next t ∧
      (t.caller s.cur).ret =
        { status := .ok
          value := .buffer (bufOf (s.slot h).hw (val s.op.A * val s.op.B % val (s.slot h).M)) } ∧
      val (bufOf (s.slot h).hw (val s.op.A * val s.op.B % val (s.slot h).M)) =
        val s.op.A * val s.op.B % val (s.slot h).M

/-- MULT against the sequence ACQUIRE, HW_MODMUL, RELEASE (R129): with the context's constants and `hw` as
HW_MODMUL's operands, run by the same caller from the same state but for its stream, the sequence gives
the same return record at HW_MODMUL, the same events but `RET`, the same lock, counters and draws. -/
def Obligations.MultRefinesThePrimitiveSequence : Prop :=
  ∀ (s u : State) (h : SlotNo) (cmd : Command),
    s.cur < s.callers.length → (s.slot h).valid = true → ContextOk s.cfg (s.slot h) →
    wc s.op.A ≤ (s.slot h).hw → wc s.op.B ≤ (s.slot h).hw → s.holder = none →
    u.cfg = s.cfg → u.cur = s.cur → u.callers.length = s.callers.length → u.holder = s.holder →
    u.acqCount = s.acqCount → u.relCount = s.relCount → u.evt = s.evt → u.draws = s.draws →
    (u.caller u.cur).stream[(u.caller u.cur).cp + 1]? = some cmd →
    cmd.op.A = s.op.A → cmd.op.B = s.op.B → cmd.op.C = (s.slot h).M →
    cmd.op.D = (s.slot h).Rinv → cmd.op.P = (s.slot h).mprime → cmd.op.S = (s.slot h).hw →
    ∃ t u1 u2 u3, exec (.mult h) s = .next t ∧ exec .acquire u = .next u1 ∧
      exec .hwModmul u1 = .next u2 ∧ exec .release u2 = .next u3 ∧
      (t.caller s.cur).ret = (u2.caller u.cur).ret ∧ t.holder = u3.holder ∧ t.hwEn = u3.hwEn ∧
      t.acqCount = u3.acqCount ∧ t.relCount = u3.relCount ∧ t.draws = u3.draws ∧
      t.evt.filter (fun e => !e.isRet) = u3.evt.filter (fun e => !e.isRet)

/-- Non-reentrancy (R131): while caller `c` holds the multiplier, neither an ACQUIRE nor a running EXP nor a
MULT that passes its checks is enabled for `c`; and for the first two that stays so after every step:
`c` still holds it, still stands at the same command, and nobody else can release it. (A MULT may leave
its wait by a fault, when another caller destroys its context: DEDUCED, assumption log 18.) -/
def Obligations.HolderCannotAcquireAgain : Prop :=
  ∀ (s : State) (c : Nat), s.holder = some c →
    (s.nextOf c = some (.ok .acquire) ∨ (∃ r, (s.caller c).seq = .run r) →
      s.enabled c = false ∧
      ∀ t, step s = .next t →
        t.holder = some c ∧ t.caller c = s.caller c ∧ t.nextOf c = s.nextOf c) ∧
    ∀ h, s.nextOf c = some (.ok (.mult h)) → (s.slot h).valid = true →
      multShape h (s.onBehalf c) = false → s.enabled c = false

/-- A held caller is let go by the holder's release (R204): in a state of a run, a caller held for the lock
has an enabled step as soon as the holder's RELEASE has run. -/
def Obligations.ReleaseLetsHeldCallersGo : Prop :=
  ∀ (s : State) (c : Nat), s.Inv → s.holder = some s.cur → c ≠ s.cur → c < s.callers.length →
    s.heldFor c → ∃ t, exec .release s = .next t ∧ t.enabled c = true

/-! The exponentiation engine (R150 to R160). -/

/-- R151: EXP's first step. -/
def Obligations.ExpStartLoadsTheSequencer : Prop :=
  ∀ (s : State) (h : SlotNo) (l : Bool), s.cur < s.callers.length → (s.caller s.cur).seq = .idle →
    ∃ t, exec (.exp h l) s = .next t ∧
      if (s.slot h).valid = false then
        t = { s with faults := s.faults ++ [⟨.badContext, s.cur, (s.caller s.cur).cp⟩] }
      else if (s.slot h).hw < wc s.op.A then
        t = { s with refused := s.refused ++ [⟨.operandShape, s.cur, (s.caller s.cur).cp⟩] }
      else if val s.op.B = 0 then
        SameSlots s t ∧ SameLock s t ∧ SameMarks s t ∧ t.draws = s.draws.tookSzOk ∧
        if s.draws.szOkValue = true then
          Returned s t .ok (.buffer (bufOf (s.slot h).hw (1 % val (s.slot h).M))) ∧
          t.evt = s.evt ++ [.ret s.cur .ok]
        else
          Returned s t .hardwareFault .none ∧ t.evt = s.evt ++ [.ret s.cur .hardwareFault]
      else
        t.slot h = { s.slot h with borrows := (s.slot h).borrows + 1 } ∧ SameSlotsBut h s t ∧
        SameLock s t ∧ SameMarks s t ∧ t.draws = s.draws ∧ t.evt = s.evt ∧
        (∀ c, c ≠ s.cur → t.caller c = s.caller c) ∧
        t.caller s.cur =
          { s.caller s.cur with
            seq := .run
              { slot := h, X := zext (s.slot h).hw s.op.A, E := val s.op.B, L := l,
                plan := plan (val s.op.B), Xm := none, Z := none } }

/-- R152: the plan of a non-zero exponent, entry by entry from the top bit down; what each entry reads, in
the order `(a, b)`, whatever the registers it does not read hold, and what it writes; and the last entry
of each bit, which for the top bit is its multiply. -/
def Obligations.PlanOfAnExponent : Prop :=
  (∀ E : Nat, E ≠ 0 →
    plan E = [.convx, .initz] ++
      ((List.range (Nat.log2 E + 1)).reverse.flatMap fun i =>
        (if i ≠ Nat.log2 E then [PlanEntry.sqr i] else []) ++
        (if E.testBit i = true then [PlanEntry.mulx i] else [])) ++ [.convout]) ∧
  (∀ (r : SeqRun) (k : Slot),
    entryOperands r k .convx = some (r.X, k.Rinv) ∧
    entryOperands r k .initz = some (k.Rinv, bufOf k.hw 1) ∧
    (∀ z, r.Z = some z →
      (∀ i, entryOperands r k (.sqr i) = some (z, z)) ∧
      entryOperands r k .convout = some (z, bufOf k.hw 1)) ∧
    ∀ z x i, r.Z = some z → r.Xm = some x → entryOperands r k (.mulx i) = some (z, x)) ∧
  (∀ (r : SeqRun) (rest : List PlanEntry) (i : Nat) (v : Buf),
    entryWrites r .convx rest v = { r with plan := rest, Xm := some v } ∧
    entryWrites r .initz rest v = { r with plan := rest, Z := some v } ∧
    entryWrites r (.sqr i) rest v = { r with plan := rest, Z := some v } ∧
    entryWrites r (.mulx i) rest v = { r with plan := rest, Z := some v } ∧
    entryWrites r .convout rest v = { r with plan := rest, Z := some v }) ∧
  (∀ E : Nat, E ≠ 0 →
    PlanEntry.mulx (Nat.log2 E) ∈ plan E ∧ PlanEntry.sqr (Nat.log2 E) ∉ plan E) ∧
  ∀ (E i : Nat) (e : PlanEntry), e ∈ plan E → E ≠ 0 →
    (lastOf E e = some i ↔ i ≤ Nat.log2 E ∧
      e = if E.testBit i = true then .mulx i else .sqr i)

/-- R153: one hardware step of EXP, the lock free: acquire, multiply in `P_EXP_PASSES` passes, release, the
liveness event, the plan's rest or the return; or, where sizing fails, the release and the failure of
R156. The step is enabled, for a caller that no mark stops, exactly when the lock is free (and the plan's
next entry finds its operands, as in every state of a run). A valid context has `hw ≥ 1`. -/
def Obligations.ExpStepRunsOneEntry : Prop :=
  (∀ (s : State) (h : SlotNo) (l : Bool) (r : SeqRun) (e : PlanEntry) (rest : List PlanEntry)
      (a b : Buf), s.cur < s.callers.length → (s.caller s.cur).seq = .run r →
      r.plan = e :: rest → entryOperands r (s.slot r.slot) e = some (a, b) → s.holder = none →
      1 ≤ (s.slot r.slot).hw →
      ∃ t, exec (.exp h l) s = .next t ∧ TookAndGave s t ∧ SameMarks s t ∧
        SameSlotsBut r.slot s t ∧
        if s.cfg.hwMaxWords < (s.slot r.slot).hw ∨ s.draws.szOkValue = false then
          Returned s t .hardwareFault .none ∧
          t.slot r.slot = { s.slot r.slot with borrows := (s.slot r.slot).borrows - 1 } ∧
          t.draws =
            (if s.cfg.hwMaxWords < (s.slot r.slot).hw then s.draws else s.draws.tookSzOk) ∧
          t.evt = s.evt ++ [.acq s.cur, .rel s.cur, .ret s.cur .hardwareFault]
        else
          ∃ v, (v, t.draws) = hwValue s.cfg s.draws.tookSzOk s.cfg.expPasses a b (s.slot r.slot).M
              (s.slot r.slot).Rinv (s.slot r.slot).mprime (s.slot r.slot).hw ∧
            wc v = (s.slot r.slot).hw ∧
            let live : List Event :=
              match lastOf r.E e with
              | some i => if r.L = true then [.live s.cur i] else []
              | none => []
            let kind : HwKind := if s.cfg.expPasses = .one then .montmul else .modmul
            let head : List Event :=
              [.acq s.cur, .hwop s.cur kind (val a) (val b) (val (s.slot r.slot).M) (val v),
                .rel s.cur] ++ live
            if rest = [] then
              Returned s t .ok (regValue (entryWrites r e rest v).Z) ∧
              t.slot r.slot = { s.slot r.slot with borrows := (s.slot r.slot).borrows - 1 } ∧
              t.evt = s.evt ++ head ++ [.ret s.cur .ok]
            else
              t.slot r.slot = s.slot r.slot ∧ t.evt = s.evt ++ head ∧
              t.caller s.cur =
                { s.caller s.cur with seq := .run (entryWrites r e rest v) } ∧
              ∀ c, c ≠ s.cur → t.caller c = s.caller c) ∧
  ∀ (s : State) (c : Nat) (r : SeqRun) (e : PlanEntry) (rest : List PlanEntry),
    c < s.callers.length → s.stopped c = false → (s.caller c).seq = .run r → r.plan = e :: rest →
    entryOperands r (s.slot r.slot) e ≠ none → (s.enabled c = true ↔ s.holder = none)

/-- The number of hardware steps (R157): `N(E) = t + popcount(E) + 3` is the length of the plan that EXP's
first step loads for `E ≠ 0`. For `E = 0` it is 0: the first step loads no plan and takes no lock, and
the sequencer stays idle. With the rule's four examples. -/
def Obligations.PlanLengthIsTheStepCount : Prop :=
  (∀ E : Nat, E ≠ 0 →
    (plan E).length = expSteps E ∧ expSteps E = msb E + popcount E + 3) ∧
  (∀ E : Nat, popcount E = ((List.range (msb E + 1)).map (fun i => E / 2 ^ i % 2)).sum) ∧
  (∀ (s : State) (h : SlotNo) (l : Bool), s.cur < s.callers.length →
    (s.caller s.cur).seq = .idle → (s.slot h).valid = true → wc s.op.A ≤ (s.slot h).hw →
    ∃ t, exec (.exp h l) s = .next t ∧
      (val s.op.B ≠ 0 →
        ∃ r, (t.caller s.cur).seq = .run r ∧ r.plan.length = expSteps (val s.op.B)) ∧
      (val s.op.B = 0 →
        expSteps (val s.op.B) = 0 ∧ (t.caller s.cur).seq = .idle ∧
        (t.caller s.cur).cp = (s.caller s.cur).cp + 1 ∧ SameLock s t ∧
        ∃ st, t.evt = s.evt ++ [.ret s.cur st])) ∧
  (plan 1).length = 4 ∧ (plan 3).length = 6 ∧ (plan 5).length = 7 ∧
  ∀ E : Nat, 2 ^ 2047 ≤ E → E < 2 ^ 2048 → popcount E = 1024 → (plan E).length = 3074

/-- The value and the cost of EXP (R155, R157): with one pass a step, a valid context, the lock free, every
sizing draw of its `N(E)` hardware steps true, and either `exact` or `X < M` with `M ≠ 1`, EXP ends after
its first step and `N(E)` more with `(OK, X^E mod M)`, both counters up by `N(E)`, the borrow returned
and the lock free. (`M = 1` under `draw`: assumption log 17.) -/
def Obligations.ExpReturnsThePower : Prop :=
  ∀ (s : State) (h : SlotNo) (l : Bool) (more : List Bool),
    s.cur < s.callers.length → (s.caller s.cur).seq = .idle → (s.slot h).valid = true →
    ContextOk s.cfg (s.slot h) → wc s.op.A ≤ (s.slot h).hw → val s.op.B ≠ 0 →
    (s.slot h).hw ≤ s.cfg.hwMaxWords → s.holder = none → s.cfg.expPasses = .one →
    s.cfg.unreduced = .exact ∨ (val s.op.A < val (s.slot h).M ∧ 1 < val (s.slot h).M) →
    s.draws.szOk = List.replicate (expSteps (val s.op.B)) true ++ more →
    ∃ t, execTimes (.exp h l) (expSteps (val s.op.B) + 1) s = .next t ∧
      Returned s t .ok
        (.buffer (bufOf (s.slot h).hw (val s.op.A ^ val s.op.B % val (s.slot h).M))) ∧
      t.acqCount = s.acqCount + expSteps (val s.op.B) ∧
      t.relCount = s.relCount + expSteps (val s.op.B) ∧ t.holder = none ∧
      SameSlots s t ∧ SameMarks s t ∧ t.draws.szOk = more

/-- Liveness (R154): a completed EXP emits `LIVE(c, i)` once for each exponent bit from `t` down to 0 when
`l = 1`, and none when `l = 0`; and the setting of `l` changes no value: the return is the same. -/
def Obligations.ExpEmitsOneLivenessEventPerBit : Prop :=
  ∀ (s : State) (h : SlotNo) (more : List Bool),
    s.cur < s.callers.length → (s.caller s.cur).seq = .idle → (s.slot h).valid = true →
    ContextOk s.cfg (s.slot h) → wc s.op.A ≤ (s.slot h).hw → val s.op.B ≠ 0 →
    (s.slot h).hw ≤ s.cfg.hwMaxWords → s.holder = none →
    s.draws.szOk = List.replicate (expSteps (val s.op.B)) true ++ more →
    ∃ t u new old,
      execTimes (.exp h true) (expSteps (val s.op.B) + 1) s = .next t ∧
      execTimes (.exp h false) (expSteps (val s.op.B) + 1) s = .next u ∧
      t.evt = s.evt ++ new ∧ u.evt = s.evt ++ old ∧
      new.filterMap (liveBit s.cur) = (List.range (msb (val s.op.B) + 1)).reverse ∧
      old.filterMap (liveBit s.cur) = [] ∧
      new.filter (fun e => (liveBit s.cur e).isNone) = old ∧
      t.caller s.cur = u.caller s.cur

/-- Failure (R156, R157): if the sizing draw of hardware step `j + 1` is false and those before are true,
EXP ends at that step with `(HardwareFault, none)`, both counters up by `j + 1`, the borrow returned, the
sequencer idle and the lock free. -/
def Obligations.ExpFailsAtTheFirstBadSizing : Prop :=
  ∀ (s : State) (h : SlotNo) (l : Bool) (j : Nat) (more : List Bool),
    s.cur < s.callers.length → (s.caller s.cur).seq = .idle → (s.slot h).valid = true →
    ContextOk s.cfg (s.slot h) → wc s.op.A ≤ (s.slot h).hw → val s.op.B ≠ 0 →
    (s.slot h).hw ≤ s.cfg.hwMaxWords → s.holder = none → j < expSteps (val s.op.B) →
    s.draws.szOk = List.replicate j true ++ false :: more →
    ∃ t, execTimes (.exp h l) (j + 2) s = .next t ∧ Returned s t .hardwareFault .none ∧
      t.acqCount = s.acqCount + j + 1 ∧ t.relCount = s.relCount + j + 1 ∧ t.holder = none ∧
      SameSlots s t ∧ SameMarks s t ∧ t.draws.szOk = more

/-- Exponent 1 (R158): the plan is `CONVX, INITZ, MULX(0), CONVOUT`, no square, and EXP returns `X mod M`
after 4 hardware steps. -/
def Obligations.ExponentOneRunsNoSquare : Prop :=
  plan 1 = [.convx, .initz, .mulx 0, .convout] ∧
  ∀ (s : State) (h : SlotNo) (l : Bool) (more : List Bool),
    s.cur < s.callers.length → (s.caller s.cur).seq = .idle → (s.slot h).valid = true →
    ContextOk s.cfg (s.slot h) → wc s.op.A ≤ (s.slot h).hw → val s.op.B = 1 →
    (s.slot h).hw ≤ s.cfg.hwMaxWords → s.holder = none → s.cfg.expPasses = .one →
    s.cfg.unreduced = .exact → s.draws.szOk = [true, true, true, true] ++ more →
    ∃ t, execTimes (.exp h l) 5 s = .next t ∧
      Returned s t .ok (.buffer (bufOf (s.slot h).hw (val s.op.A % val (s.slot h).M))) ∧
      t.acqCount = s.acqCount + 4

/-- The two-pass alternative (R160): under `P_EXP_PASSES = 2` (and `exact`) a completed EXP with `E ≠ 0`
returns `X^E · R_hw^(E + 2^t) mod M`. -/
def Obligations.TwoPassExpReturnsTheScaledPower : Prop :=
  ∀ (s : State) (h : SlotNo) (l : Bool) (more : List Bool),
    s.cur < s.callers.length → (s.caller s.cur).seq = .idle → (s.slot h).valid = true →
    ContextOk s.cfg (s.slot h) → wc s.op.A ≤ (s.slot h).hw → val s.op.B ≠ 0 →
    (s.slot h).hw ≤ s.cfg.hwMaxWords → s.holder = none → s.cfg.expPasses = .two →
    s.cfg.unreduced = .exact →
    s.draws.szOk = List.replicate (expSteps (val s.op.B)) true ++ more →
    ∃ t, execTimes (.exp h l) (expSteps (val s.op.B) + 1) s = .next t ∧
      Returned s t .ok
        (.buffer (bufOf (s.slot h).hw
          (val s.op.A ^ val s.op.B *
            radixR (s.slot h).hw ^ (val s.op.B + 2 ^ msb (val s.op.B)) % val (s.slot h).M)))

/-- Every step of every caller keeps the values of R155's proof in every running sequencer, whatever the
other callers do between; and a sequencer that stops running has returned `X^E mod M` or
`HardwareFault`. One pass, `exact`. -/
def Obligations.StepKeepsTheSequencerValues : Prop :=
  ∀ s t : State, s.Inv → s.SeqValues → s.cfg.expPasses = .one → s.cfg.unreduced = .exact →
    step s = .next t →
    t.SeqValues ∧
    ∀ c r, (s.caller c).seq = .run r → (t.caller c).seq = .idle →
      (t.caller c).ret = { status := .hardwareFault, value := .none } ∨
      (t.caller c).ret =
        { status := .ok
          value := .buffer (bufOf (s.slot r.slot).hw
            (val r.X ^ r.E % val (s.slot r.slot).M)) }

/-- Another caller's step cannot disturb an exponentiation (R159): neither its sequencer nor any field of
its context but the number of borrows. -/
def Obligations.OthersCannotDisturbAnExponentiation : Prop :=
  ∀ (s t : State) (c : Nat) (r : SeqRun), s.Inv → step s = .next t → t.cur ≠ c →
    (s.caller c).seq = .run r →
    t.caller c = s.caller c ∧
    t.slot r.slot = { s.slot r.slot with borrows := (t.slot r.slot).borrows }

/-! Faults and refusals (R201 to R203). -/

/-- R201 and R73: the codes of the four statuses. -/
def Obligations.StatusCodes : Prop :=
  Status.code .ok = 0 ∧ Status.code .invalidModulus = 1 ∧ Status.code .hardwareFault = 2 ∧
  Status.code .allocationFailure = 3

/-- R202: each fault kind, from each cause, by each command: the record `(kind, c, S.CP[c])` is appended to
`S.FAULTS`, nothing else changes, and the caller has no enabled step any more. -/
def Obligations.FaultsRecordAndStop : Prop :=
  ∀ (s : State) (h : SlotNo) (f : BitVec 3) (l : Bool) (i : Instr) (k : FaultKind),
    ((s.slot h).valid = false ∧ k = .badContext ∧
        ((i = .ctxRead h f ∧ f.toNat < 5) ∨ i = .ctxDestroy h ∨ i = .mult h ∨
          (i = .exp h l ∧ (s.caller s.cur).seq = .idle))) ∨
      ((s.slot h).valid = true ∧ k = .slotInUse ∧ i = .ctxBuild h) ∨
      ((s.slot h).valid = true ∧ 0 < (s.slot h).borrows ∧ k = .contextBusy ∧ i = .ctxDestroy h) ∨
      (s.holder ≠ some s.cur ∧ k = .lockNotHeld ∧ (i = .hwModmul ∨ i = .hwMontmul)) ∨
      (s.holder ≠ some s.cur ∧ k = .unbalancedRelease ∧ i = .release) →
    ∃ t, exec i s = .next t ∧
      t = { s with faults := s.faults ++ [⟨k, s.cur, (s.caller s.cur).cp⟩] } ∧
      t.enabled s.cur = false

/-- R203: each refusal kind, from each cause: decoding's two when the word is fetched, `OperandShape` by the
command; the record `(kind, c, S.CP[c])` is appended to `S.REFUSED`, nothing else changes (but the
model's own scheduling fields), and the caller has no enabled step any more. -/
def Obligations.RefusalsRecordAndStop : Prop :=
  (∀ (s : State) (c : Nat) (cmd : Command) (e : DecodeError), s.nextCaller = some c →
    (s.caller c).seq = .idle → (s.caller c).stream[(s.caller c).cp]? = some cmd →
    decode cmd.word = .error e →
    ∃ t, step s = .next t ∧
      t = { s with
        cur := c
        draws := s.draws.tookPick
        turns := turnsAfter s.enabled c s.draws.patienceValue s.turns
        refused := s.refused ++
          [⟨if e = .illegalCommand then .illegalCommand else .reservedField, c,
            (s.caller c).cp⟩] } ∧
      t.enabled c = false) ∧
  ∀ (s : State) (h : SlotNo) (l : Bool) (i : Instr),
    (i = .ctxBuild h ∧ (s.slot h).valid = false ∧ wc s.op.A ≠ s.op.S) ∨
      (i = .hwModmul ∧ s.holder = some s.cur ∧
        (s.op.S < wc s.op.A ∨ s.op.S < wc s.op.B ∨ s.op.S < wc s.op.C ∨ s.op.S < wc s.op.D)) ∨
      (i = .hwMontmul ∧ s.holder = some s.cur ∧
        (s.op.S < wc s.op.A ∨ s.op.S < wc s.op.B ∨ s.op.S < wc s.op.C)) ∨
      (i = .mult h ∧ (s.slot h).valid = true ∧
        ((s.slot h).hw < wc s.op.A ∨ (s.slot h).hw < wc s.op.B)) ∨
      (i = .exp h l ∧ (s.slot h).valid = true ∧ (s.caller s.cur).seq = .idle ∧
        (s.slot h).hw < wc s.op.A) →
    ∃ t, exec i s = .next t ∧
      t = { s with refused := s.refused ++ [⟨.operandShape, s.cur, (s.caller s.cur).cp⟩] } ∧
      t.enabled s.cur = false

/-! Reset, and the invariants of a run. -/

/-- R35: the reset values the spec gives, for every setting of the parameters. Nothing is said of the
fields the spec leaves unspecified. -/
def Obligations.ResetValues : Prop :=
  ∀ cfg : Config,
    (∀ h, ((State.resetWith cfg).slot h).valid = false ∧
      ((State.resetWith cfg).slot h).borrows = 0) ∧
    (State.resetWith cfg).holder = none ∧ (State.resetWith cfg).hwEn = false ∧
    (State.resetWith cfg).acqCount = 0 ∧ (State.resetWith cfg).relCount = 0 ∧
    (State.resetWith cfg).callers.length = cfg.nCallers ∧
    (∀ c, ((State.resetWith cfg).caller c).cp = 0 ∧
      ((State.resetWith cfg).caller c).ret = { status := .ok, value := .none } ∧
      ((State.resetWith cfg).caller c).seq = .idle) ∧
    (State.resetWith cfg).faults = [] ∧ (State.resetWith cfg).refused = [] ∧
    (State.resetWith cfg).evt = []

/-- The invariant holds after reset, for every setting of the parameters in its range and whatever
streams are loaded. -/
def Obligations.InvariantHoldsAtReset : Prop :=
  ∀ (cfg : Config) (streams : List (List Command)), cfg.ok = true →
    ((State.resetWith cfg).loadStreams streams).Inv

/-- Every step of every caller keeps the invariant: R23 of every valid context, R25 and R26 of the enable
and the counters, R132 of the history, the borrows, the sequencers, R73 and the marks. -/
def Obligations.StepKeepsTheInvariant : Prop :=
  ∀ s t : State, s.Inv → step s = .next t → t.Inv

/-- Exclusivity (R132): in the history of a state of a run, every hardware multiply of `c` lies after an
`ACQ(c)` with no `ACQ` or `REL` between, and the next `ACQ` or `REL` after it, if any, is `REL(c)`. -/
def Obligations.MultipliesLieInsideAHold : Prop :=
  ∀ (s : State) (pre post : List Event) (c : Nat) (k : HwKind) (a b m r : Nat), s.Inv →
    s.evt = pre ++ .hwop c k a b m r :: post →
    (∃ p q, pre = p ++ .acq c :: q ∧ ∀ e ∈ q, e.isAcq = false ∧ e.isRel = false) ∧
    ((∀ e ∈ post, e.isAcq = false ∧ e.isRel = false) ∨
      ∃ p q, post = p ++ .rel c :: q ∧ ∀ e ∈ p, e.isAcq = false ∧ e.isRel = false)

/-- The word of a well-formed command, placed by `withFetchWord`, is what the very next step runs, in any
state with a caller 0 in which the command does not wait for the lock (the model's own loading of one
command: assumption log 5). -/
def Obligations.PlacedWordRunsNext : Prop :=
  ∀ (s : State) (i : Instr), i.wf = true → 0 < s.callers.length →
    waits i ((s.withFetchWord 32 (encode i).toNat).onBehalf 0) = false →
    step (s.withFetchWord 32 (encode i).toNat) =
      exec i ((s.withFetchWord 32 (encode i).toNat).scheduled 0)
end

