-- ==== Sys2Proof/Laws/Buffers.lean ====
section
/-! SUPPORT. Buffers and their values: the lengths and values of `buf_h`, `zext_h` and a drawn buffer
(R7, R8, R12, R53). -/

namespace Sys2Proof.Machine

@[simp] theorem val_nil : val [] = 0 := rfl

@[simp] theorem val_cons (w : Word) (b : Buf) : val (w :: b) = w.toNat + 2 ^ 32 * val b := rfl

@[simp] theorem wc_bufOf (h v : Nat) : wc (bufOf h v) = h := by
  induction h generalizing v with
  | zero => rfl
  | succ h ih => exact congrArg (· + 1) (ih (v / 2 ^ 32))

/-- `val(buf_h(v)) = v mod 2^(32·h)`, for every `v`. -/
theorem val_bufOf_mod (h v : Nat) : val (bufOf h v) = v % 2 ^ (32 * h) := by
  induction h generalizing v with
  | zero => simp [bufOf, Nat.mod_one]
  | succ h ih =>
    have e : 2 ^ (32 * (h + 1)) = 2 ^ 32 * 2 ^ (32 * h) := by rw [← Nat.pow_add]; congr 1; omega
    rw [bufOf, val_cons, ih, BitVec.toNat_ofNat, e, Nat.mod_mul]

/-- `val(buf_h(v)) = v` where R8 defines `buf_h(v)`. -/
theorem val_bufOf (h v : Nat) (hv : v < 2 ^ (32 * h)) : val (bufOf h v) = v := by
  rw [val_bufOf_mod, Nat.mod_eq_of_lt hv]

/-- A buffer of `n` words has a value below `2^(32·n)`. -/
theorem val_lt (b : Buf) : val b < 2 ^ (32 * wc b) := by
  induction b with
  | nil => simp [wc]
  | cons w b ih =>
    have hw := w.isLt
    have e : 2 ^ (32 * wc (w :: b)) = 2 ^ 32 * 2 ^ (32 * wc b) := by
      rw [← Nat.pow_add]; congr 1; simp [wc]; omega
    rw [val_cons, e]
    have : val b + 1 ≤ 2 ^ (32 * wc b) := ih
    have := Nat.mul_le_mul_left (2 ^ 32) this
    omega

/-- A buffer of at most `h` words has a value below `2^(32·h)`. -/
theorem val_lt_of_wc_le (b : Buf) (h : Nat) (hb : wc b ≤ h) : val b < 2 ^ (32 * h) :=
  lt_of_lt_of_le (val_lt b) (Nat.pow_le_pow_right (by decide) (by omega))

theorem val_append (a b : Buf) : val (a ++ b) = val a + 2 ^ (32 * wc a) * val b := by
  induction a with
  | nil => simp [wc]
  | cons w a ih =>
    have e : 2 ^ (32 * wc (w :: a)) = 2 ^ 32 * 2 ^ (32 * wc a) := by
      rw [← Nat.pow_add]; congr 1; simp [wc]; omega
    rw [List.cons_append, val_cons, val_cons, ih, e, Nat.mul_add, Nat.mul_assoc, Nat.add_assoc]

@[simp] theorem val_zeros (n : Nat) : val (List.replicate n 0#32) = 0 := by
  induction n with
  | zero => rfl
  | succ n ih => simp [List.replicate_succ, ih]

/-- Zero extension does not change an operand's value (R53). -/
@[simp] theorem val_zext (h : Nat) (b : Buf) : val (zext h b) = val b := by
  simp [zext, val_append]

/-- A buffer of at most `h` words is zero-extended to exactly `h` (R53). -/
theorem wc_zext (h : Nat) (b : Buf) (hb : wc b ≤ h) : wc (zext h b) = h := by
  simp only [wc] at hb
  simp only [wc, zext, List.length_append, List.length_replicate]; omega

@[simp] theorem wc_fitBuf (h : Nat) (b : Buf) : wc (fitBuf h b) = h := by
  simp only [fitBuf, wc, zext, List.length_append, List.length_replicate, List.length_take]; omega

/-- Every `h`-word buffer is a drawn one (R12). -/
theorem fitBuf_self (b : Buf) : fitBuf (wc b) b = b := by
  simp [fitBuf, zext, wc]

end Sys2Proof.Machine
end

