-- ==== Sys2Proof/Laws/Arith.lean ====
section
/-! SUPPORT. The radices and the one-pass product (R9, R10, R120). -/

namespace Sys2Proof.Machine

theorem rho_pos (h : Nat) : 0 < rho h := Nat.two_pow_pos _

theorem radixR_eq (h : Nat) : radixR h = rho h * rho h := by
  rw [radixR, rho, ← Nat.pow_add]; congr 1; omega

/-- `2^k · ((M + 1) / 2)^k mod M = 1 mod M` for odd `M`. -/
theorem two_pow_mul_half_pow (M k : Nat) (hM : M % 2 = 1) :
    2 ^ k * ((M + 1) / 2) ^ k % M = 1 % M := by
  rw [← Nat.mul_pow]
  have e : 2 * ((M + 1) / 2) = M + 1 := by omega
  rw [e, Nat.pow_mod, Nat.add_mod_left, ← Nat.pow_mod, Nat.one_pow]

/-- `rhoInv h M` is `ρ_h⁻¹ mod M` of R9: below `M`, and `ρ_h` times it is 1 modulo `M`. -/
theorem rho_mul_rhoInv (h M : Nat) (hM : M % 2 = 1) : rho h * rhoInv h M % M = 1 % M := by
  rw [rhoInv, rho, Nat.mul_mod_mod]
  exact two_pow_mul_half_pow M (32 * h) hM

theorem rhoInv_lt (h M : Nat) (hM : 0 < M) : rhoInv h M < M := Nat.mod_lt _ hM

theorem montMul_lt (h M a b : Nat) (hM : 0 < M) : montMul h M a b < M := Nat.mod_lt _ hM

theorem hwExact_lt (ps : Passes) (h M X Y D : Nat) (hM : 0 < M) : hwExact ps h M X Y D < M := by
  cases ps <;> exact montMul_lt h M _ _ hM

end Sys2Proof.Machine
end

