-- ==== Sys2Proof/Laws/State.lean ====
section
/-! SUPPORT. One lemma per field per update of the state, so that no proof unfolds a record update; then
what each update does to a slot and to a caller. -/

namespace Sys2Proof.Machine

variable (s : State)

/-! `setSlot` -/

@[simp] theorem State.setSlot_cfg (h : SlotNo) (k : Slot) :
    (s.setSlot h k).cfg = s.cfg := rfl
@[simp] theorem State.setSlot_ctx (h : SlotNo) (k : Slot) :
    (s.setSlot h k).ctx = s.ctx.set h.val k := rfl
@[simp] theorem State.setSlot_holder (h : SlotNo) (k : Slot) :
    (s.setSlot h k).holder = s.holder := rfl
@[simp] theorem State.setSlot_hwEn (h : SlotNo) (k : Slot) :
    (s.setSlot h k).hwEn = s.hwEn := rfl
@[simp] theorem State.setSlot_acqCount (h : SlotNo) (k : Slot) :
    (s.setSlot h k).acqCount = s.acqCount := rfl
@[simp] theorem State.setSlot_relCount (h : SlotNo) (k : Slot) :
    (s.setSlot h k).relCount = s.relCount := rfl
@[simp] theorem State.setSlot_callers (h : SlotNo) (k : Slot) :
    (s.setSlot h k).callers = s.callers := rfl
@[simp] theorem State.setSlot_faults (h : SlotNo) (k : Slot) :
    (s.setSlot h k).faults = s.faults := rfl
@[simp] theorem State.setSlot_refused (h : SlotNo) (k : Slot) :
    (s.setSlot h k).refused = s.refused := rfl
@[simp] theorem State.setSlot_evt (h : SlotNo) (k : Slot) :
    (s.setSlot h k).evt = s.evt := rfl
@[simp] theorem State.setSlot_cur (h : SlotNo) (k : Slot) :
    (s.setSlot h k).cur = s.cur := rfl
@[simp] theorem State.setSlot_draws (h : SlotNo) (k : Slot) :
    (s.setSlot h k).draws = s.draws := rfl
@[simp] theorem State.setSlot_turns (h : SlotNo) (k : Slot) :
    (s.setSlot h k).turns = s.turns := rfl

@[simp] theorem State.setSlot_me (h : SlotNo) (k : Slot) :
    (s.setSlot h k).me = s.me := rfl
@[simp] theorem State.setSlot_op (h : SlotNo) (k : Slot) :
    (s.setSlot h k).op = s.op := rfl
@[simp] theorem State.setSlot_caller (h : SlotNo) (k : Slot) (a : Nat) :
    (s.setSlot h k).caller a = s.caller a := rfl
@[simp] theorem State.setSlot_held (h : SlotNo) (k : Slot) :
    (s.setSlot h k).held = s.held := rfl

/-! `setMe` -/

@[simp] theorem State.setMe_cfg (x : Caller) :
    (s.setMe x).cfg = s.cfg := rfl
@[simp] theorem State.setMe_ctx (x : Caller) :
    (s.setMe x).ctx = s.ctx := rfl
@[simp] theorem State.setMe_holder (x : Caller) :
    (s.setMe x).holder = s.holder := rfl
@[simp] theorem State.setMe_hwEn (x : Caller) :
    (s.setMe x).hwEn = s.hwEn := rfl
@[simp] theorem State.setMe_acqCount (x : Caller) :
    (s.setMe x).acqCount = s.acqCount := rfl
@[simp] theorem State.setMe_relCount (x : Caller) :
    (s.setMe x).relCount = s.relCount := rfl
@[simp] theorem State.setMe_callers (x : Caller) :
    (s.setMe x).callers = s.callers.set s.cur x := rfl
@[simp] theorem State.setMe_faults (x : Caller) :
    (s.setMe x).faults = s.faults := rfl
@[simp] theorem State.setMe_refused (x : Caller) :
    (s.setMe x).refused = s.refused := rfl
@[simp] theorem State.setMe_evt (x : Caller) :
    (s.setMe x).evt = s.evt := rfl
@[simp] theorem State.setMe_cur (x : Caller) :
    (s.setMe x).cur = s.cur := rfl
@[simp] theorem State.setMe_draws (x : Caller) :
    (s.setMe x).draws = s.draws := rfl
@[simp] theorem State.setMe_turns (x : Caller) :
    (s.setMe x).turns = s.turns := rfl

@[simp] theorem State.setMe_slot (x : Caller) (g : SlotNo) :
    (s.setMe x).slot g = s.slot g := rfl
@[simp] theorem State.setMe_held (x : Caller) :
    (s.setMe x).held = s.held := rfl

/-! `setSeq` -/

@[simp] theorem State.setSeq_cfg (q : Seq) :
    (s.setSeq q).cfg = s.cfg := rfl
@[simp] theorem State.setSeq_ctx (q : Seq) :
    (s.setSeq q).ctx = s.ctx := rfl
@[simp] theorem State.setSeq_holder (q : Seq) :
    (s.setSeq q).holder = s.holder := rfl
@[simp] theorem State.setSeq_hwEn (q : Seq) :
    (s.setSeq q).hwEn = s.hwEn := rfl
@[simp] theorem State.setSeq_acqCount (q : Seq) :
    (s.setSeq q).acqCount = s.acqCount := rfl
@[simp] theorem State.setSeq_relCount (q : Seq) :
    (s.setSeq q).relCount = s.relCount := rfl
@[simp] theorem State.setSeq_callers (q : Seq) :
    (s.setSeq q).callers = s.callers.set s.cur { s.me with seq := q } := rfl
@[simp] theorem State.setSeq_faults (q : Seq) :
    (s.setSeq q).faults = s.faults := rfl
@[simp] theorem State.setSeq_refused (q : Seq) :
    (s.setSeq q).refused = s.refused := rfl
@[simp] theorem State.setSeq_evt (q : Seq) :
    (s.setSeq q).evt = s.evt := rfl
@[simp] theorem State.setSeq_cur (q : Seq) :
    (s.setSeq q).cur = s.cur := rfl
@[simp] theorem State.setSeq_draws (q : Seq) :
    (s.setSeq q).draws = s.draws := rfl
@[simp] theorem State.setSeq_turns (q : Seq) :
    (s.setSeq q).turns = s.turns := rfl

@[simp] theorem State.setSeq_slot (q : Seq) (g : SlotNo) :
    (s.setSeq q).slot g = s.slot g := rfl
@[simp] theorem State.setSeq_held (q : Seq) :
    (s.setSeq q).held = s.held := rfl

/-! `emit` -/

@[simp] theorem State.emit_cfg (e : Event) :
    (s.emit e).cfg = s.cfg := rfl
@[simp] theorem State.emit_ctx (e : Event) :
    (s.emit e).ctx = s.ctx := rfl
@[simp] theorem State.emit_holder (e : Event) :
    (s.emit e).holder = s.holder := rfl
@[simp] theorem State.emit_hwEn (e : Event) :
    (s.emit e).hwEn = s.hwEn := rfl
@[simp] theorem State.emit_acqCount (e : Event) :
    (s.emit e).acqCount = s.acqCount := rfl
@[simp] theorem State.emit_relCount (e : Event) :
    (s.emit e).relCount = s.relCount := rfl
@[simp] theorem State.emit_callers (e : Event) :
    (s.emit e).callers = s.callers := rfl
@[simp] theorem State.emit_faults (e : Event) :
    (s.emit e).faults = s.faults := rfl
@[simp] theorem State.emit_refused (e : Event) :
    (s.emit e).refused = s.refused := rfl
@[simp] theorem State.emit_evt (e : Event) :
    (s.emit e).evt = s.evt ++ [e] := rfl
@[simp] theorem State.emit_cur (e : Event) :
    (s.emit e).cur = s.cur := rfl
@[simp] theorem State.emit_draws (e : Event) :
    (s.emit e).draws = s.draws := rfl
@[simp] theorem State.emit_turns (e : Event) :
    (s.emit e).turns = s.turns := rfl

@[simp] theorem State.emit_me (e : Event) :
    (s.emit e).me = s.me := rfl
@[simp] theorem State.emit_op (e : Event) :
    (s.emit e).op = s.op := rfl
@[simp] theorem State.emit_caller (e : Event) (a : Nat) :
    (s.emit e).caller a = s.caller a := rfl
@[simp] theorem State.emit_slot (e : Event) (g : SlotNo) :
    (s.emit e).slot g = s.slot g := rfl
@[simp] theorem State.emit_held (e : Event) :
    (s.emit e).held = s.held := rfl

/-! `setDraws` -/

@[simp] theorem State.setDraws_cfg (d : Draws) :
    (s.setDraws d).cfg = s.cfg := rfl
@[simp] theorem State.setDraws_ctx (d : Draws) :
    (s.setDraws d).ctx = s.ctx := rfl
@[simp] theorem State.setDraws_holder (d : Draws) :
    (s.setDraws d).holder = s.holder := rfl
@[simp] theorem State.setDraws_hwEn (d : Draws) :
    (s.setDraws d).hwEn = s.hwEn := rfl
@[simp] theorem State.setDraws_acqCount (d : Draws) :
    (s.setDraws d).acqCount = s.acqCount := rfl
@[simp] theorem State.setDraws_relCount (d : Draws) :
    (s.setDraws d).relCount = s.relCount := rfl
@[simp] theorem State.setDraws_callers (d : Draws) :
    (s.setDraws d).callers = s.callers := rfl
@[simp] theorem State.setDraws_faults (d : Draws) :
    (s.setDraws d).faults = s.faults := rfl
@[simp] theorem State.setDraws_refused (d : Draws) :
    (s.setDraws d).refused = s.refused := rfl
@[simp] theorem State.setDraws_evt (d : Draws) :
    (s.setDraws d).evt = s.evt := rfl
@[simp] theorem State.setDraws_cur (d : Draws) :
    (s.setDraws d).cur = s.cur := rfl
@[simp] theorem State.setDraws_draws (d : Draws) :
    (s.setDraws d).draws = d := rfl
@[simp] theorem State.setDraws_turns (d : Draws) :
    (s.setDraws d).turns = s.turns := rfl

@[simp] theorem State.setDraws_me (d : Draws) :
    (s.setDraws d).me = s.me := rfl
@[simp] theorem State.setDraws_op (d : Draws) :
    (s.setDraws d).op = s.op := rfl
@[simp] theorem State.setDraws_caller (d : Draws) (a : Nat) :
    (s.setDraws d).caller a = s.caller a := rfl
@[simp] theorem State.setDraws_slot (d : Draws) (g : SlotNo) :
    (s.setDraws d).slot g = s.slot g := rfl
@[simp] theorem State.setDraws_held (d : Draws) :
    (s.setDraws d).held = s.held := rfl

/-! `setTurns` -/

@[simp] theorem State.setTurns_cfg (ts : List Turn) :
    (s.setTurns ts).cfg = s.cfg := rfl
@[simp] theorem State.setTurns_ctx (ts : List Turn) :
    (s.setTurns ts).ctx = s.ctx := rfl
@[simp] theorem State.setTurns_holder (ts : List Turn) :
    (s.setTurns ts).holder = s.holder := rfl
@[simp] theorem State.setTurns_hwEn (ts : List Turn) :
    (s.setTurns ts).hwEn = s.hwEn := rfl
@[simp] theorem State.setTurns_acqCount (ts : List Turn) :
    (s.setTurns ts).acqCount = s.acqCount := rfl
@[simp] theorem State.setTurns_relCount (ts : List Turn) :
    (s.setTurns ts).relCount = s.relCount := rfl
@[simp] theorem State.setTurns_callers (ts : List Turn) :
    (s.setTurns ts).callers = s.callers := rfl
@[simp] theorem State.setTurns_faults (ts : List Turn) :
    (s.setTurns ts).faults = s.faults := rfl
@[simp] theorem State.setTurns_refused (ts : List Turn) :
    (s.setTurns ts).refused = s.refused := rfl
@[simp] theorem State.setTurns_evt (ts : List Turn) :
    (s.setTurns ts).evt = s.evt := rfl
@[simp] theorem State.setTurns_cur (ts : List Turn) :
    (s.setTurns ts).cur = s.cur := rfl
@[simp] theorem State.setTurns_draws (ts : List Turn) :
    (s.setTurns ts).draws = s.draws := rfl
@[simp] theorem State.setTurns_turns (ts : List Turn) :
    (s.setTurns ts).turns = ts := rfl

@[simp] theorem State.setTurns_me (ts : List Turn) :
    (s.setTurns ts).me = s.me := rfl
@[simp] theorem State.setTurns_op (ts : List Turn) :
    (s.setTurns ts).op = s.op := rfl
@[simp] theorem State.setTurns_caller (ts : List Turn) (a : Nat) :
    (s.setTurns ts).caller a = s.caller a := rfl
@[simp] theorem State.setTurns_slot (ts : List Turn) (g : SlotNo) :
    (s.setTurns ts).slot g = s.slot g := rfl
@[simp] theorem State.setTurns_held (ts : List Turn) :
    (s.setTurns ts).held = s.held := rfl

/-! `retCmd` -/

@[simp] theorem State.retCmd_cfg (st : Status) (v : RetValue) :
    (s.retCmd st v).cfg = s.cfg := rfl
@[simp] theorem State.retCmd_ctx (st : Status) (v : RetValue) :
    (s.retCmd st v).ctx = s.ctx := rfl
@[simp] theorem State.retCmd_holder (st : Status) (v : RetValue) :
    (s.retCmd st v).holder = s.holder := rfl
@[simp] theorem State.retCmd_hwEn (st : Status) (v : RetValue) :
    (s.retCmd st v).hwEn = s.hwEn := rfl
@[simp] theorem State.retCmd_acqCount (st : Status) (v : RetValue) :
    (s.retCmd st v).acqCount = s.acqCount := rfl
@[simp] theorem State.retCmd_relCount (st : Status) (v : RetValue) :
    (s.retCmd st v).relCount = s.relCount := rfl
@[simp] theorem State.retCmd_callers (st : Status) (v : RetValue) :
    (s.retCmd st v).callers = s.callers.set s.cur
      { s.me with ret := { status := st, value := v }, cp := s.me.cp + 1, seq := .idle } := rfl
@[simp] theorem State.retCmd_faults (st : Status) (v : RetValue) :
    (s.retCmd st v).faults = s.faults := rfl
@[simp] theorem State.retCmd_refused (st : Status) (v : RetValue) :
    (s.retCmd st v).refused = s.refused := rfl
@[simp] theorem State.retCmd_evt (st : Status) (v : RetValue) :
    (s.retCmd st v).evt = s.evt ++ [.ret s.cur st] := rfl
@[simp] theorem State.retCmd_cur (st : Status) (v : RetValue) :
    (s.retCmd st v).cur = s.cur := rfl
@[simp] theorem State.retCmd_draws (st : Status) (v : RetValue) :
    (s.retCmd st v).draws = s.draws := rfl
@[simp] theorem State.retCmd_turns (st : Status) (v : RetValue) :
    (s.retCmd st v).turns = s.turns := rfl

@[simp] theorem State.retCmd_slot (st : Status) (v : RetValue) (g : SlotNo) :
    (s.retCmd st v).slot g = s.slot g := rfl
@[simp] theorem State.retCmd_held (st : Status) (v : RetValue) :
    (s.retCmd st v).held = s.held := rfl

/-! `raiseFault` -/

@[simp] theorem State.raiseFault_cfg (k : FaultKind) :
    (s.raiseFault k).cfg = s.cfg := rfl
@[simp] theorem State.raiseFault_ctx (k : FaultKind) :
    (s.raiseFault k).ctx = s.ctx := rfl
@[simp] theorem State.raiseFault_holder (k : FaultKind) :
    (s.raiseFault k).holder = s.holder := rfl
@[simp] theorem State.raiseFault_hwEn (k : FaultKind) :
    (s.raiseFault k).hwEn = s.hwEn := rfl
@[simp] theorem State.raiseFault_acqCount (k : FaultKind) :
    (s.raiseFault k).acqCount = s.acqCount := rfl
@[simp] theorem State.raiseFault_relCount (k : FaultKind) :
    (s.raiseFault k).relCount = s.relCount := rfl
@[simp] theorem State.raiseFault_callers (k : FaultKind) :
    (s.raiseFault k).callers = s.callers := rfl
@[simp] theorem State.raiseFault_faults (k : FaultKind) :
    (s.raiseFault k).faults = s.faults ++ [{ kind := k, caller := s.cur, cp := s.me.cp }] := rfl
@[simp] theorem State.raiseFault_refused (k : FaultKind) :
    (s.raiseFault k).refused = s.refused := rfl
@[simp] theorem State.raiseFault_evt (k : FaultKind) :
    (s.raiseFault k).evt = s.evt := rfl
@[simp] theorem State.raiseFault_cur (k : FaultKind) :
    (s.raiseFault k).cur = s.cur := rfl
@[simp] theorem State.raiseFault_draws (k : FaultKind) :
    (s.raiseFault k).draws = s.draws := rfl
@[simp] theorem State.raiseFault_turns (k : FaultKind) :
    (s.raiseFault k).turns = s.turns := rfl

@[simp] theorem State.raiseFault_me (k : FaultKind) :
    (s.raiseFault k).me = s.me := rfl
@[simp] theorem State.raiseFault_op (k : FaultKind) :
    (s.raiseFault k).op = s.op := rfl
@[simp] theorem State.raiseFault_caller (k : FaultKind) (a : Nat) :
    (s.raiseFault k).caller a = s.caller a := rfl
@[simp] theorem State.raiseFault_slot (k : FaultKind) (g : SlotNo) :
    (s.raiseFault k).slot g = s.slot g := rfl
@[simp] theorem State.raiseFault_held (k : FaultKind) :
    (s.raiseFault k).held = s.held := rfl

/-! `refuseCmd` -/

@[simp] theorem State.refuseCmd_cfg (k : RefusalKind) :
    (s.refuseCmd k).cfg = s.cfg := rfl
@[simp] theorem State.refuseCmd_ctx (k : RefusalKind) :
    (s.refuseCmd k).ctx = s.ctx := rfl
@[simp] theorem State.refuseCmd_holder (k : RefusalKind) :
    (s.refuseCmd k).holder = s.holder := rfl
@[simp] theorem State.refuseCmd_hwEn (k : RefusalKind) :
    (s.refuseCmd k).hwEn = s.hwEn := rfl
@[simp] theorem State.refuseCmd_acqCount (k : RefusalKind) :
    (s.refuseCmd k).acqCount = s.acqCount := rfl
@[simp] theorem State.refuseCmd_relCount (k : RefusalKind) :
    (s.refuseCmd k).relCount = s.relCount := rfl
@[simp] theorem State.refuseCmd_callers (k : RefusalKind) :
    (s.refuseCmd k).callers = s.callers := rfl
@[simp] theorem State.refuseCmd_faults (k : RefusalKind) :
    (s.refuseCmd k).faults = s.faults := rfl
@[simp] theorem State.refuseCmd_refused (k : RefusalKind) :
    (s.refuseCmd k).refused = s.refused ++ [{ kind := k, caller := s.cur, cp := s.me.cp }] := rfl
@[simp] theorem State.refuseCmd_evt (k : RefusalKind) :
    (s.refuseCmd k).evt = s.evt := rfl
@[simp] theorem State.refuseCmd_cur (k : RefusalKind) :
    (s.refuseCmd k).cur = s.cur := rfl
@[simp] theorem State.refuseCmd_draws (k : RefusalKind) :
    (s.refuseCmd k).draws = s.draws := rfl
@[simp] theorem State.refuseCmd_turns (k : RefusalKind) :
    (s.refuseCmd k).turns = s.turns := rfl

@[simp] theorem State.refuseCmd_me (k : RefusalKind) :
    (s.refuseCmd k).me = s.me := rfl
@[simp] theorem State.refuseCmd_op (k : RefusalKind) :
    (s.refuseCmd k).op = s.op := rfl
@[simp] theorem State.refuseCmd_caller (k : RefusalKind) (a : Nat) :
    (s.refuseCmd k).caller a = s.caller a := rfl
@[simp] theorem State.refuseCmd_slot (k : RefusalKind) (g : SlotNo) :
    (s.refuseCmd k).slot g = s.slot g := rfl
@[simp] theorem State.refuseCmd_held (k : RefusalKind) :
    (s.refuseCmd k).held = s.held := rfl

/-! `acquireLock` -/

@[simp] theorem State.acquireLock_cfg :
    (s.acquireLock).cfg = s.cfg := rfl
@[simp] theorem State.acquireLock_ctx :
    (s.acquireLock).ctx = s.ctx := rfl
@[simp] theorem State.acquireLock_holder :
    (s.acquireLock).holder = some s.cur := rfl
@[simp] theorem State.acquireLock_hwEn :
    (s.acquireLock).hwEn = true := rfl
@[simp] theorem State.acquireLock_acqCount :
    (s.acquireLock).acqCount = s.acqCount + 1 := rfl
@[simp] theorem State.acquireLock_relCount :
    (s.acquireLock).relCount = s.relCount := rfl
@[simp] theorem State.acquireLock_callers :
    (s.acquireLock).callers = s.callers := rfl
@[simp] theorem State.acquireLock_faults :
    (s.acquireLock).faults = s.faults := rfl
@[simp] theorem State.acquireLock_refused :
    (s.acquireLock).refused = s.refused := rfl
@[simp] theorem State.acquireLock_evt :
    (s.acquireLock).evt = s.evt ++ [.acq s.cur] := rfl
@[simp] theorem State.acquireLock_cur :
    (s.acquireLock).cur = s.cur := rfl
@[simp] theorem State.acquireLock_draws :
    (s.acquireLock).draws = s.draws := rfl
@[simp] theorem State.acquireLock_turns :
    (s.acquireLock).turns = s.turns := rfl

@[simp] theorem State.acquireLock_me :
    (s.acquireLock).me = s.me := rfl
@[simp] theorem State.acquireLock_op :
    (s.acquireLock).op = s.op := rfl
@[simp] theorem State.acquireLock_caller (a : Nat) :
    (s.acquireLock).caller a = s.caller a := rfl
@[simp] theorem State.acquireLock_slot (g : SlotNo) :
    (s.acquireLock).slot g = s.slot g := rfl

/-! `releaseLock` -/

@[simp] theorem State.releaseLock_cfg :
    (s.releaseLock).cfg = s.cfg := rfl
@[simp] theorem State.releaseLock_ctx :
    (s.releaseLock).ctx = s.ctx := rfl
@[simp] theorem State.releaseLock_holder :
    (s.releaseLock).holder = none := rfl
@[simp] theorem State.releaseLock_hwEn :
    (s.releaseLock).hwEn = false := rfl
@[simp] theorem State.releaseLock_acqCount :
    (s.releaseLock).acqCount = s.acqCount := rfl
@[simp] theorem State.releaseLock_relCount :
    (s.releaseLock).relCount = s.relCount + 1 := rfl
@[simp] theorem State.releaseLock_callers :
    (s.releaseLock).callers = s.callers := rfl
@[simp] theorem State.releaseLock_faults :
    (s.releaseLock).faults = s.faults := rfl
@[simp] theorem State.releaseLock_refused :
    (s.releaseLock).refused = s.refused := rfl
@[simp] theorem State.releaseLock_evt :
    (s.releaseLock).evt = s.evt ++ [.rel s.cur] := rfl
@[simp] theorem State.releaseLock_cur :
    (s.releaseLock).cur = s.cur := rfl
@[simp] theorem State.releaseLock_draws :
    (s.releaseLock).draws = s.draws := rfl
@[simp] theorem State.releaseLock_turns :
    (s.releaseLock).turns = s.turns := rfl

@[simp] theorem State.releaseLock_me :
    (s.releaseLock).me = s.me := rfl
@[simp] theorem State.releaseLock_op :
    (s.releaseLock).op = s.op := rfl
@[simp] theorem State.releaseLock_caller (a : Nat) :
    (s.releaseLock).caller a = s.caller a := rfl
@[simp] theorem State.releaseLock_slot (g : SlotNo) :
    (s.releaseLock).slot g = s.slot g := rfl

/-! `takeBorrow` -/

@[simp] theorem State.takeBorrow_cfg (h : SlotNo) :
    (s.takeBorrow h).cfg = s.cfg := rfl
@[simp] theorem State.takeBorrow_ctx (h : SlotNo) :
    (s.takeBorrow h).ctx = s.ctx.set h.val { s.slot h with borrows := (s.slot h).borrows + 1 } := rfl
@[simp] theorem State.takeBorrow_holder (h : SlotNo) :
    (s.takeBorrow h).holder = s.holder := rfl
@[simp] theorem State.takeBorrow_hwEn (h : SlotNo) :
    (s.takeBorrow h).hwEn = s.hwEn := rfl
@[simp] theorem State.takeBorrow_acqCount (h : SlotNo) :
    (s.takeBorrow h).acqCount = s.acqCount := rfl
@[simp] theorem State.takeBorrow_relCount (h : SlotNo) :
    (s.takeBorrow h).relCount = s.relCount := rfl
@[simp] theorem State.takeBorrow_callers (h : SlotNo) :
    (s.takeBorrow h).callers = s.callers := rfl
@[simp] theorem State.takeBorrow_faults (h : SlotNo) :
    (s.takeBorrow h).faults = s.faults := rfl
@[simp] theorem State.takeBorrow_refused (h : SlotNo) :
    (s.takeBorrow h).refused = s.refused := rfl
@[simp] theorem State.takeBorrow_evt (h : SlotNo) :
    (s.takeBorrow h).evt = s.evt := rfl
@[simp] theorem State.takeBorrow_cur (h : SlotNo) :
    (s.takeBorrow h).cur = s.cur := rfl
@[simp] theorem State.takeBorrow_draws (h : SlotNo) :
    (s.takeBorrow h).draws = s.draws := rfl
@[simp] theorem State.takeBorrow_turns (h : SlotNo) :
    (s.takeBorrow h).turns = s.turns := rfl

@[simp] theorem State.takeBorrow_me (h : SlotNo) :
    (s.takeBorrow h).me = s.me := rfl
@[simp] theorem State.takeBorrow_op (h : SlotNo) :
    (s.takeBorrow h).op = s.op := rfl
@[simp] theorem State.takeBorrow_caller (h : SlotNo) (a : Nat) :
    (s.takeBorrow h).caller a = s.caller a := rfl
@[simp] theorem State.takeBorrow_held (h : SlotNo) :
    (s.takeBorrow h).held = s.held := rfl

/-! `returnBorrow` -/

@[simp] theorem State.returnBorrow_cfg (h : SlotNo) :
    (s.returnBorrow h).cfg = s.cfg := rfl
@[simp] theorem State.returnBorrow_ctx (h : SlotNo) :
    (s.returnBorrow h).ctx = s.ctx.set h.val { s.slot h with borrows := (s.slot h).borrows - 1 } := rfl
@[simp] theorem State.returnBorrow_holder (h : SlotNo) :
    (s.returnBorrow h).holder = s.holder := rfl
@[simp] theorem State.returnBorrow_hwEn (h : SlotNo) :
    (s.returnBorrow h).hwEn = s.hwEn := rfl
@[simp] theorem State.returnBorrow_acqCount (h : SlotNo) :
    (s.returnBorrow h).acqCount = s.acqCount := rfl
@[simp] theorem State.returnBorrow_relCount (h : SlotNo) :
    (s.returnBorrow h).relCount = s.relCount := rfl
@[simp] theorem State.returnBorrow_callers (h : SlotNo) :
    (s.returnBorrow h).callers = s.callers := rfl
@[simp] theorem State.returnBorrow_faults (h : SlotNo) :
    (s.returnBorrow h).faults = s.faults := rfl
@[simp] theorem State.returnBorrow_refused (h : SlotNo) :
    (s.returnBorrow h).refused = s.refused := rfl
@[simp] theorem State.returnBorrow_evt (h : SlotNo) :
    (s.returnBorrow h).evt = s.evt := rfl
@[simp] theorem State.returnBorrow_cur (h : SlotNo) :
    (s.returnBorrow h).cur = s.cur := rfl
@[simp] theorem State.returnBorrow_draws (h : SlotNo) :
    (s.returnBorrow h).draws = s.draws := rfl
@[simp] theorem State.returnBorrow_turns (h : SlotNo) :
    (s.returnBorrow h).turns = s.turns := rfl

@[simp] theorem State.returnBorrow_me (h : SlotNo) :
    (s.returnBorrow h).me = s.me := rfl
@[simp] theorem State.returnBorrow_op (h : SlotNo) :
    (s.returnBorrow h).op = s.op := rfl
@[simp] theorem State.returnBorrow_caller (h : SlotNo) (a : Nat) :
    (s.returnBorrow h).caller a = s.caller a := rfl
@[simp] theorem State.returnBorrow_held (h : SlotNo) :
    (s.returnBorrow h).held = s.held := rfl

/-! `onBehalf` -/

@[simp] theorem State.onBehalf_cfg (c : Nat) :
    (s.onBehalf c).cfg = s.cfg := rfl
@[simp] theorem State.onBehalf_ctx (c : Nat) :
    (s.onBehalf c).ctx = s.ctx := rfl
@[simp] theorem State.onBehalf_holder (c : Nat) :
    (s.onBehalf c).holder = s.holder := rfl
@[simp] theorem State.onBehalf_hwEn (c : Nat) :
    (s.onBehalf c).hwEn = s.hwEn := rfl
@[simp] theorem State.onBehalf_acqCount (c : Nat) :
    (s.onBehalf c).acqCount = s.acqCount := rfl
@[simp] theorem State.onBehalf_relCount (c : Nat) :
    (s.onBehalf c).relCount = s.relCount := rfl
@[simp] theorem State.onBehalf_callers (c : Nat) :
    (s.onBehalf c).callers = s.callers := rfl
@[simp] theorem State.onBehalf_faults (c : Nat) :
    (s.onBehalf c).faults = s.faults := rfl
@[simp] theorem State.onBehalf_refused (c : Nat) :
    (s.onBehalf c).refused = s.refused := rfl
@[simp] theorem State.onBehalf_evt (c : Nat) :
    (s.onBehalf c).evt = s.evt := rfl
@[simp] theorem State.onBehalf_cur (c : Nat) :
    (s.onBehalf c).cur = c := rfl
@[simp] theorem State.onBehalf_draws (c : Nat) :
    (s.onBehalf c).draws = s.draws := rfl
@[simp] theorem State.onBehalf_turns (c : Nat) :
    (s.onBehalf c).turns = s.turns := rfl

@[simp] theorem State.onBehalf_caller (c : Nat) (a : Nat) :
    (s.onBehalf c).caller a = s.caller a := rfl
@[simp] theorem State.onBehalf_slot (c : Nat) (g : SlotNo) :
    (s.onBehalf c).slot g = s.slot g := rfl
@[simp] theorem State.onBehalf_held (c : Nat) :
    (s.onBehalf c).held = s.held := rfl

/-! `appendStreams` -/

@[simp] theorem State.appendStreams_cfg (more : List (List Command)) :
    (s.appendStreams more).cfg = s.cfg := rfl
@[simp] theorem State.appendStreams_ctx (more : List (List Command)) :
    (s.appendStreams more).ctx = s.ctx := rfl
@[simp] theorem State.appendStreams_holder (more : List (List Command)) :
    (s.appendStreams more).holder = s.holder := rfl
@[simp] theorem State.appendStreams_hwEn (more : List (List Command)) :
    (s.appendStreams more).hwEn = s.hwEn := rfl
@[simp] theorem State.appendStreams_acqCount (more : List (List Command)) :
    (s.appendStreams more).acqCount = s.acqCount := rfl
@[simp] theorem State.appendStreams_relCount (more : List (List Command)) :
    (s.appendStreams more).relCount = s.relCount := rfl
@[simp] theorem State.appendStreams_callers (more : List (List Command)) :
    (s.appendStreams more).callers = s.callers.zipIdx.map
      (fun x => { x.1 with stream := x.1.stream ++ more.getD x.2 [] }) := rfl
@[simp] theorem State.appendStreams_faults (more : List (List Command)) :
    (s.appendStreams more).faults = s.faults := rfl
@[simp] theorem State.appendStreams_refused (more : List (List Command)) :
    (s.appendStreams more).refused = s.refused := rfl
@[simp] theorem State.appendStreams_evt (more : List (List Command)) :
    (s.appendStreams more).evt = s.evt := rfl
@[simp] theorem State.appendStreams_cur (more : List (List Command)) :
    (s.appendStreams more).cur = s.cur := rfl
@[simp] theorem State.appendStreams_draws (more : List (List Command)) :
    (s.appendStreams more).draws = s.draws := rfl
@[simp] theorem State.appendStreams_turns (more : List (List Command)) :
    (s.appendStreams more).turns = s.turns := rfl

@[simp] theorem State.appendStreams_slot (more : List (List Command)) (g : SlotNo) :
    (s.appendStreams more).slot g = s.slot g := rfl
@[simp] theorem State.appendStreams_held (more : List (List Command)) :
    (s.appendStreams more).held = s.held := rfl

/-! `scheduled` -/

@[simp] theorem State.scheduled_cfg (c : Nat) :
    (s.scheduled c).cfg = s.cfg := rfl
@[simp] theorem State.scheduled_ctx (c : Nat) :
    (s.scheduled c).ctx = s.ctx := rfl
@[simp] theorem State.scheduled_holder (c : Nat) :
    (s.scheduled c).holder = s.holder := rfl
@[simp] theorem State.scheduled_hwEn (c : Nat) :
    (s.scheduled c).hwEn = s.hwEn := rfl
@[simp] theorem State.scheduled_acqCount (c : Nat) :
    (s.scheduled c).acqCount = s.acqCount := rfl
@[simp] theorem State.scheduled_relCount (c : Nat) :
    (s.scheduled c).relCount = s.relCount := rfl
@[simp] theorem State.scheduled_callers (c : Nat) :
    (s.scheduled c).callers = s.callers := rfl
@[simp] theorem State.scheduled_faults (c : Nat) :
    (s.scheduled c).faults = s.faults := rfl
@[simp] theorem State.scheduled_refused (c : Nat) :
    (s.scheduled c).refused = s.refused := rfl
@[simp] theorem State.scheduled_evt (c : Nat) :
    (s.scheduled c).evt = s.evt := rfl
@[simp] theorem State.scheduled_cur (c : Nat) :
    (s.scheduled c).cur = c := rfl
@[simp] theorem State.scheduled_draws (c : Nat) :
    (s.scheduled c).draws = s.draws.tookPick := rfl
@[simp] theorem State.scheduled_turns (c : Nat) :
    (s.scheduled c).turns = turnsAfter s.enabled c s.draws.patienceValue s.turns := rfl

@[simp] theorem State.scheduled_caller (c : Nat) (a : Nat) :
    (s.scheduled c).caller a = s.caller a := rfl
@[simp] theorem State.scheduled_slot (c : Nat) (g : SlotNo) :
    (s.scheduled c).slot g = s.slot g := rfl
@[simp] theorem State.scheduled_held (c : Nat) :
    (s.scheduled c).held = s.held := rfl

/-! What the updates of slots and callers do to one slot and one caller. -/

@[simp] theorem State.setSlot_slot (h g : SlotNo) (k : Slot) :
    (s.setSlot h k).slot g = if g = h then k else s.slot g := by
  unfold State.slot State.setSlot
  by_cases e : g = h
  · subst e; simp
  · have : h.val ≠ g.val := fun hv => e (Fin.ext hv.symm)
    simp [e, Vector.getElem_set_ne, this]

@[simp] theorem State.takeBorrow_slot (h g : SlotNo) :
    (s.takeBorrow h).slot g =
      if g = h then { s.slot h with borrows := (s.slot h).borrows + 1 } else s.slot g :=
  s.setSlot_slot h g _

@[simp] theorem State.returnBorrow_slot (h g : SlotNo) :
    (s.returnBorrow h).slot g =
      if g = h then { s.slot h with borrows := (s.slot h).borrows - 1 } else s.slot g :=
  s.setSlot_slot h g _

theorem State.setMe_caller (x : Caller) (c : Nat) (hc : s.cur < s.callers.length) :
    (s.setMe x).caller c = if c = s.cur then x else s.caller c := by
  unfold State.caller State.setMe
  by_cases e : c = s.cur
  · subst e; simp [List.getD_eq_getElem?_getD, hc]
  · simp [e, List.getD_eq_getElem?_getD, List.getElem?_set_ne (Ne.symm e)]

theorem State.setMe_caller_ne (x : Caller) (c : Nat) (hc : c ≠ s.cur) :
    (s.setMe x).caller c = s.caller c := by
  unfold State.caller State.setMe
  simp [List.getD_eq_getElem?_getD, List.getElem?_set_ne (Ne.symm hc)]

theorem State.setSeq_caller (q : Seq) (c : Nat) (hc : s.cur < s.callers.length) :
    (s.setSeq q).caller c = if c = s.cur then { s.me with seq := q } else s.caller c :=
  s.setMe_caller _ c hc

theorem State.retCmd_caller (st : Status) (v : RetValue) (c : Nat) (hc : s.cur < s.callers.length) :
    (s.retCmd st v).caller c =
      if c = s.cur then
        { s.me with ret := { status := st, value := v }, cp := s.me.cp + 1, seq := .idle }
      else s.caller c :=
  s.setMe_caller _ c hc

theorem State.retCmd_caller_ne (st : Status) (v : RetValue) (c : Nat) (hc : c ≠ s.cur) :
    (s.retCmd st v).caller c = s.caller c :=
  s.setMe_caller_ne _ c hc

theorem State.setSeq_caller_ne (q : Seq) (c : Nat) (hc : c ≠ s.cur) :
    (s.setSeq q).caller c = s.caller c :=
  s.setMe_caller_ne _ c hc

/-- Further commands change a caller's record in its stream alone, at the end (assumption log 5). -/
theorem State.appendStreams_caller (more : List (List Command)) (c : Nat) :
    ∃ cmds, (s.appendStreams more).caller c =
      { s.caller c with stream := (s.caller c).stream ++ cmds } := by
  unfold State.caller State.appendStreams
  simp only [List.getD_eq_getElem?_getD, List.getElem?_map, List.getElem?_zipIdx]
  cases s.callers[c]? with
  | none => exact ⟨[], rfl⟩
  | some x => exact ⟨_, rfl⟩

@[simp] theorem State.retMultiply_some (r : Buf) : s.retMultiply (some r) = s.retCmd .ok (.buffer r) := rfl

@[simp] theorem State.retMultiply_none : s.retMultiply none = s.retCmd .hardwareFault .none := rfl

end Sys2Proof.Machine
end

