-- ==== Sys2Proof/Laws/Ops.lean ====
section
/-! SUPPORT. One lemma for each shared operation that says once what it can do: `hw_value` (R122), the
hardware multiply (R122, R123), the sequencer's step (R153), the scheduler's choice (R213). -/

namespace Sys2Proof.Machine

@[simp] theorem wc_bufValue (d : Draws) (h : Nat) : wc (d.bufValue h) = h := wc_fitBuf h _

/-- `hw_value` gives a drawn buffer or the exact value, and in either case `h` words (R121, R122). -/
theorem hwValue_cases (cfg : Config) (d : Draws) (ps : Passes) (X Y M D : Buf) (p : Word) (h : Nat) :
    (montgomeryOk (val M) p = true ∧
        unreducedDrawn cfg ps (val X) (val Y) (val D) (val M) = false ∧
        hwValue cfg d ps X Y M D p h =
          (bufOf h (hwExact ps h (val M) (val X) (val Y) (val D)), d)) ∨
      ((montgomeryOk (val M) p = false ∨
          unreducedDrawn cfg ps (val X) (val Y) (val D) (val M) = true) ∧
        hwValue cfg d ps X Y M D p h = (d.bufValue h, d.tookBuf)) := by
  unfold hwValue
  cases hm : montgomeryOk (val M) p <;>
    cases hu : unreducedDrawn cfg ps (val X) (val Y) (val D) (val M) <;> simp

theorem wc_hwValue (cfg : Config) (d : Draws) (ps : Passes) (X Y M D : Buf) (p : Word) (h : Nat) :
    wc (hwValue cfg d ps X Y M D p h).1 = h := by
  rcases hwValue_cases cfg d ps X Y M D p h with ⟨-, -, e⟩ | ⟨-, e⟩ <;> simp [e]

/-- Everything a hardware multiply can do (R122, R123): not sizable, no draw; `szOk` drawn false; or a
value of `h` words with its event. -/
theorem hwMultiply_cases (s : State) (ps : Passes) (X Y M D : Buf) (p : Word) (h : Nat) :
    (unsizable s.cfg h = true ∧ s.hwMultiply ps X Y M D p h = (none, s)) ∨
      (unsizable s.cfg h = false ∧ s.draws.szOkValue = false ∧
        s.hwMultiply ps X Y M D p h = (none, s.setDraws s.draws.tookSzOk)) ∨
      (unsizable s.cfg h = false ∧ s.draws.szOkValue = true ∧
        ∃ r d, hwValue s.cfg s.draws.tookSzOk ps X Y M D p h = (r, d) ∧ wc r = h ∧
          s.hwMultiply ps X Y M D p h =
            (some r, (s.setDraws d).emit (.hwop s.cur (hwKind ps) (val X) (val Y) (val M) (val r)))) := by
  unfold State.hwMultiply
  cases hu : unsizable s.cfg h
  · cases hs : s.draws.szOkValue
    · simp
    · refine Or.inr (Or.inr ⟨rfl, rfl, (hwValue s.cfg s.draws.tookSzOk ps X Y M D p h).1,
        (hwValue s.cfg s.draws.tookSzOk ps X Y M D p h).2, rfl, wc_hwValue _ _ _ _ _ _ _ _ _, ?_⟩)
      simp only [Bool.false_eq_true, if_false, if_true]
  · simp

/-- Everything one step of the sequencer can do (R153): it waits, or it runs the plan's first entry with
operands that its registers hold, the lock free. -/
theorem expStep_cases (s : State) (r : SeqRun) :
    (expWaits s r = true ∧ expStep s r = s) ∨
      ∃ e rest a b, r.plan = e :: rest ∧ entryOperands r (s.slot r.slot) e = some (a, b) ∧
        s.held = false ∧ expWaits s r = false ∧ expStep s r = expEntry s r e rest a b := by
  unfold expStep expWaits
  cases hp : r.plan with
  | nil => simp
  | cons e rest =>
    cases ho : entryOperands r (s.slot r.slot) e with
    | none => simp [ho]
    | some ab =>
      obtain ⟨a, b⟩ := ab
      cases hh : s.held
      · exact Or.inr ⟨e, rest, a, b, rfl, ho, rfl, by simp [ho], by simp [ho]⟩
      · simp [ho]

/-- What the scheduler can choose (R213, R243): nothing from nothing; the only one; the one that is due;
or, when none is due, one of those it is given. -/
theorem choose_cases (d : Draws) (due : Option Nat) (cs : List Nat) :
    (cs = [] ∧ choose d due cs = none) ∨ (∃ c, cs = [c] ∧ choose d due cs = some c) ∨
    (∃ c, due = some c ∧ choose d due cs = some c) ∨
    (due = none ∧ ∃ c ∈ cs, choose d due cs = some c) := by
  match cs, due with
  | [], _ => exact .inl ⟨rfl, rfl⟩
  | [c], _ => exact .inr (.inl ⟨c, rfl, rfl⟩)
  | _ :: _ :: _, some a => exact .inr (.inr (.inl ⟨a, rfl, rfl⟩))
  | a :: b :: cs, none =>
    refine .inr (.inr (.inr ⟨rfl, _, ?_, rfl⟩))
    split
    · assumption
    · exact List.mem_cons_self

theorem choose_eq_none_iff (d : Draws) (due : Option Nat) (cs : List Nat) :
    choose d due cs = none ↔ cs = [] := by
  match cs, due with
  | [], _ => simp [choose]
  | [a], _ => simp [choose]
  | a :: b :: cs, none => simp [choose]
  | a :: b :: cs, some c => simp [choose]

theorem mem_enabledCallers (s : State) (c : Nat) : c ∈ s.enabledCallers ↔ s.enabled c = true := by
  simp only [State.enabledCallers, List.mem_filter, List.mem_range, and_iff_right_iff_imp]
  intro h
  simp only [State.enabled, Bool.and_eq_true, decide_eq_true_eq] at h
  exact h.1.1

/-- A caller that is due has an enabled step. -/
theorem due_enabled (s : State) (c : Nat) (h : s.due = some c) : s.enabled c = true := by
  simp only [State.due, Option.map_eq_some_iff] at h
  obtain ⟨t, ht, rfl⟩ := h
  have := List.find?_some ht
  simp only [Bool.and_eq_true] at this
  exact this.2

/-- The caller whose step comes next has an enabled step. -/
theorem nextCaller_enabled (s : State) (c : Nat) (h : s.nextCaller = some c) : s.enabled c = true := by
  unfold State.nextCaller at h
  rcases choose_cases s.draws s.due s.enabledCallers with ⟨-, e⟩ | ⟨a, hc, e⟩ | ⟨a, hd, e⟩ | ⟨-, a, hm, e⟩ <;>
    rw [e] at h <;> cases h
  · exact (mem_enabledCallers s c).1 (by simp [hc])
  · exact due_enabled s c hd
  · exact (mem_enabledCallers s c).1 hm

/-- What an enabled step says (R13, R30, R204). -/
theorem enabled_inv (s : State) (c : Nat) (h : s.enabled c = true) :
    c < s.callers.length ∧ s.stopped c = false ∧
      ((∃ e, s.nextOf c = some (.error e)) ∨
        ∃ i, s.nextOf c = some (.ok i) ∧ waits i (s.onBehalf c) = false) := by
  simp only [State.enabled, Bool.and_eq_true, decide_eq_true_eq, Bool.not_eq_true'] at h
  obtain ⟨⟨h1, h2⟩, h3⟩ := h
  refine ⟨h1, h2, ?_⟩
  cases hn : s.nextOf c with
  | none => simp [hn] at h3
  | some x =>
    cases x with
    | error e => exact Or.inl ⟨e, rfl⟩
    | ok i => refine Or.inr ⟨i, rfl, ?_⟩; simpa [hn] using h3

/-- What holds of every caller's record and of the reset one holds of `s.caller c` for every `c`. -/
theorem caller_forall (s : State) (P : Caller → Prop) (h : ∀ x ∈ s.callers, P x)
    (h0 : P Caller.reset) (c : Nat) : P (s.caller c) := by
  unfold State.caller
  rw [List.getD_eq_getElem?_getD]
  cases hc : s.callers[c]? with
  | none => exact h0
  | some x => exact h x (List.mem_of_getElem? hc)

end Sys2Proof.Machine
end

