-- ==== Sys2Proof/Laws/Exec.lean ====
section
/-! SUPPORT. What one command can do, said once: the shapes of the next state of `exec`, and of `step`. -/

namespace Sys2Proof.Machine

/-- One hardware multiply, without the lock: how it can end (R122, R123). `HwResult s ps X Y M D p h v t`:
from `s`, with hardware word count `h`, it ends in `t` with value `v`. -/
inductive HwResult (s : State) (ps : Passes) (X Y M D : Buf) (p : Word) (h : Nat) :
    Option Buf → State → Prop where
  | unsizable (hu : unsizable s.cfg h = true) : HwResult s ps X Y M D p h none s
  | badSizing (hu : unsizable s.cfg h = false) (hz : s.draws.szOkValue = false) :
      HwResult s ps X Y M D p h none (s.setDraws s.draws.tookSzOk)
  | value (hu : Machine.unsizable s.cfg h = false) (hz : s.draws.szOkValue = true) (r : Buf)
      (d : Draws) (hv : hwValue s.cfg s.draws.tookSzOk ps X Y M D p h = (r, d)) (hr : wc r = h) :
      HwResult s ps X Y M D p h (some r)
        ((s.setDraws d).emit (.hwop s.cur (hwKind ps) (val X) (val Y) (val M) (val r)))

theorem hwMultiply_result (s : State) (ps : Passes) (X Y M D : Buf) (p : Word) (h : Nat) :
    HwResult s ps X Y M D p h (s.hwMultiply ps X Y M D p h).1 (s.hwMultiply ps X Y M D p h).2 := by
  rcases hwMultiply_cases s ps X Y M D p h with ⟨h1, e⟩ | ⟨h1, h2, e⟩ | ⟨h1, h2, r, d, hv, hr, e⟩ <;>
    rw [e]
  · exact .unsizable h1
  · exact .badSizing h1 h2
  · exact .value h1 h2 r d hv hr

/-- What one hardware multiply leaves as it is, and what it appends to the history (R122, R123). -/
theorem HwResult.frame {s : State} {ps : Passes} {X Y M D : Buf} {p : Word} {h : Nat}
    {v : Option Buf} {t : State} (hr : HwResult s ps X Y M D p h v t) :
    t.cfg = s.cfg ∧ t.ctx = s.ctx ∧ t.holder = s.holder ∧ t.hwEn = s.hwEn ∧
    t.acqCount = s.acqCount ∧ t.relCount = s.relCount ∧ t.callers = s.callers ∧
    t.faults = s.faults ∧ t.refused = s.refused ∧ t.cur = s.cur ∧
    ((v = none ∧ t.evt = s.evt) ∨
      ∃ r, v = some r ∧ wc r = h ∧
        t.evt = s.evt ++ [.hwop s.cur (hwKind ps) (val X) (val Y) (val M) (val r)]) := by
  cases hr <;> simp_all

/-- The liveness callback changes nothing but the history, by at most one `LIVE` (R154). -/
theorem emitLive_frame (s : State) (r : SeqRun) (e : PlanEntry) :
    ∃ new, s.emitLive r e = { s with evt := s.evt ++ new } ∧
      (new = [] ∨ ∃ i, new = [.live s.cur i]) := by
  unfold State.emitLive
  split
  · exact ⟨_, rfl, .inr ⟨_, rfl⟩⟩
  · exact ⟨[], by simp, .inl rfl⟩

/-- The shapes of the next state of a command (R103 to R106, R124 to R128, R151, R153). -/
inductive ExecShape (s : State) : Instr → State → Prop where
  /-- The command waits for the lock. -/
  | waits (i : Instr) (hw : waits i s = true) : ExecShape s i s
  /-- A fault is taken. -/
  | fault (i : Instr) (k : FaultKind) (hw : Machine.waits i s = false) :
      ExecShape s i (s.raiseFault k)
  /-- A refusal is taken. -/
  | refusal (i : Instr) (k : RefusalKind) (hw : Machine.waits i s = false) :
      ExecShape s i (s.refuseCmd k)
  /-- A return that touches no slot and no lock; a failure has no value. -/
  | plain (i : Instr) (d : Draws) (st : Status) (v : RetValue) (hw : Machine.waits i s = false)
      (hq : ∀ h l, i = .exp h l → s.me.seq = .idle) (hv : st ≠ .ok → v = .none) :
      ExecShape s i ((s.setDraws d).retCmd st v)
  /-- CTX_BUILD writes a context into an invalid slot. -/
  | build (h : SlotNo) (hi : (s.slot h).valid = false) (hA : wc s.op.A = s.op.S)
      (hm : badModulus s.op.A = false) (hd : s.draws.allocOkValue = true) :
      ExecShape s (.ctxBuild h)
        (((s.setDraws s.draws.tookAllocOk).setSlot h (builtSlot s.cfg s.op.A)).retCmd .ok .none)
  /-- CTX_DESTROY ends a valid context that no exponentiation uses. -/
  | destroy (h : SlotNo) (hv : (s.slot h).valid = true) (hb : (s.slot h).borrows = 0) :
      ExecShape s (.ctxDestroy h)
        (((s.setSlot h (destroyedSlot s.draws.taken (s.slot h))).setDraws
          s.draws.next.next.next).retCmd .ok .none)
  /-- ACQUIRE takes the free multiplier. -/
  | acquire (hh : s.held = false) : ExecShape s .acquire (s.acquireLock.retCmd .ok .none)
  /-- RELEASE by the holder. -/
  | release (hh : s.holder = some s.cur) : ExecShape s .release (s.releaseLock.retCmd .ok .none)
  /-- HW_MODMUL or HW_MONTMUL by the holder. -/
  | primitive (i : Instr) (ps : Passes) (X Y M D : Buf) (p : Word) (h : Nat) (v : Option Buf)
      (t : State) (hi : i = .hwModmul ∨ i = .hwMontmul) (hh : s.holder = some s.cur)
      (hr : HwResult s ps X Y M D p h v t) : ExecShape s i (t.retMultiply v)
  /-- MULT, the lock free. -/
  | mult (h : SlotNo) (v : Option Buf) (t : State) (hv : (s.slot h).valid = true)
      (hs : multShape h s = false) (hh : s.held = false)
      (hr : HwResult s.acquireLock .two s.op.A s.op.B (s.slot h).M (s.slot h).Rinv (s.slot h).mprime
        (s.slot h).hw v t) : ExecShape s (.mult h) (t.releaseLock.retMultiply v)
  /-- EXP's first step loads the sequencer. -/
  | expStart (h : SlotNo) (l : Bool) (hq : s.me.seq = .idle) (hv : (s.slot h).valid = true)
      (hX : wc s.op.A ≤ (s.slot h).hw) (hE : val s.op.B ≠ 0) :
      ExecShape s (.exp h l) ((s.takeBorrow h).setSeq (.run (freshRun h l s)))
  /-- A plan entry whose multiply fails. -/
  | expFail (h : SlotNo) (l : Bool) (r : SeqRun) (e : PlanEntry) (rest : List PlanEntry) (a b : Buf)
      (t : State) (hq : s.me.seq = .run r) (hp : r.plan = e :: rest)
      (ho : entryOperands r (s.slot r.slot) e = some (a, b)) (hh : s.held = false)
      (hr : HwResult s.acquireLock s.cfg.expPasses a b (s.slot r.slot).M (s.slot r.slot).Rinv
        (s.slot r.slot).mprime (s.slot r.slot).hw none t) :
      ExecShape s (.exp h l) ((t.releaseLock.returnBorrow r.slot).retCmd .hardwareFault .none)
  /-- A plan entry whose multiply gives a value, with more entries to come. -/
  | expEntry (h : SlotNo) (l : Bool) (r : SeqRun) (e e' : PlanEntry) (rest : List PlanEntry)
      (a b v : Buf) (t : State) (hq : s.me.seq = .run r) (hp : r.plan = e :: e' :: rest)
      (ho : entryOperands r (s.slot r.slot) e = some (a, b)) (hh : s.held = false)
      (hr : HwResult s.acquireLock s.cfg.expPasses a b (s.slot r.slot).M (s.slot r.slot).Rinv
        (s.slot r.slot).mprime (s.slot r.slot).hw (some v) t) :
      ExecShape s (.exp h l)
        ((t.releaseLock.emitLive r e).setSeq (.run (entryWrites r e (e' :: rest) v)))
  /-- The last plan entry, whose multiply gives a value. -/
  | expLast (h : SlotNo) (l : Bool) (r : SeqRun) (e : PlanEntry) (a b v : Buf) (t : State)
      (hq : s.me.seq = .run r) (hp : r.plan = [e])
      (ho : entryOperands r (s.slot r.slot) e = some (a, b)) (hh : s.held = false)
      (hr : HwResult s.acquireLock s.cfg.expPasses a b (s.slot r.slot).M (s.slot r.slot).Rinv
        (s.slot r.slot).mprime (s.slot r.slot).hw (some v) t) :
      ExecShape s (.exp h l)
        (((t.releaseLock.emitLive r e).returnBorrow r.slot).retCmd .ok
          (regValue (entryWrites r e [] v).Z))

theorem entryWrites_plan (r : SeqRun) (e : PlanEntry) (rest : List PlanEntry) (v : Buf) :
    (entryWrites r e rest v).plan = rest := by cases e <;> rfl

theorem entryWrites_slot (r : SeqRun) (e : PlanEntry) (rest : List PlanEntry) (v : Buf) :
    (entryWrites r e rest v).slot = r.slot := by cases e <;> rfl

theorem entryWrites_X (r : SeqRun) (e : PlanEntry) (rest : List PlanEntry) (v : Buf) :
    (entryWrites r e rest v).X = r.X := by cases e <;> rfl

theorem entryWrites_E (r : SeqRun) (e : PlanEntry) (rest : List PlanEntry) (v : Buf) :
    (entryWrites r e rest v).E = r.E := by cases e <;> rfl

/-- Every shape of EXP's hardware step. -/
theorem exec_exp_run_shape (h : SlotNo) (l : Bool) (s : State) (r : SeqRun)
    (hq : s.me.seq = .run r) : ExecShape s (.exp h l) (expStep s r) := by
  rcases expStep_cases s r with ⟨hw, e⟩ | ⟨e, rest, a, b, hp, ho, hh, hw, eq⟩
  · rw [e]
    exact .waits _ (by simpa [waits, hq] using hw)
  · rw [eq]
    have hr := hwMultiply_result s.acquireLock s.cfg.expPasses a b (s.slot r.slot).M
      (s.slot r.slot).Rinv (s.slot r.slot).mprime (s.slot r.slot).hw
    unfold expEntry
    simp only
    revert hr
    generalize s.acquireLock.hwMultiply s.cfg.expPasses a b (s.slot r.slot).M (s.slot r.slot).Rinv
      (s.slot r.slot).mprime (s.slot r.slot).hw = m
    obtain ⟨v, t⟩ := m
    intro hr
    cases v with
    | none => exact .expFail h l r e rest a b t hq hp ho hh hr
    | some v =>
      simp only [expAdvance, entryWrites_plan, entryWrites_slot]
      cases rest with
      | nil => exact .expLast h l r e a b v t hq hp ho hh hr
      | cons e' rest => exact .expEntry h l r e e' rest a b v t hq hp ho hh hr

/-- Every command answers a next state, of one of the shapes. -/
theorem exec_shape (i : Instr) (s : State) : ∃ t, exec i s = .next t ∧ ExecShape s i t := by
  cases i with
  | ctxBuild h =>
    simp only [exec, execCtxBuild]
    split
    · exact ⟨_, rfl, .fault _ _ rfl⟩
    · rename_i hv
      split
      · exact ⟨_, rfl, .refusal _ _ rfl⟩
      · rename_i hA
        split
        · exact ⟨_, rfl, .plain _ s.draws _ _ rfl (fun _ _ e => by cases e) (fun _ => rfl)⟩
        · rename_i hm
          refine ⟨_, rfl, ?_⟩
          unfold buildContext
          split
          · rename_i hd
            exact .build h (by simpa using hv) (by simpa using hA) (by simpa using hm) hd
          · exact .plain _ _ _ _ rfl (fun _ _ e => by cases e) (fun _ => rfl)
  | ctxRead h f =>
    simp only [exec, execCtxRead]
    split
    · exact ⟨_, rfl, .refusal _ _ rfl⟩
    · split
      · exact ⟨_, rfl, .plain _ s.draws _ _ rfl (fun _ _ e => by cases e) (fun h => absurd rfl h)⟩
      · exact ⟨_, rfl, .fault _ _ rfl⟩
  | ctxDestroy h =>
    simp only [exec, execCtxDestroy]
    split
    · rename_i hv
      split
      · exact ⟨_, rfl, .fault _ _ rfl⟩
      · exact ⟨_, rfl, .destroy h hv (by omega)⟩
    · exact ⟨_, rfl, .fault _ _ rfl⟩
  | hwCapacity => exact ⟨_, rfl, .plain _ s.draws _ _ rfl (fun _ _ e => by cases e) (fun h => absurd rfl h)⟩
  | acquire =>
    simp only [exec, execAcquire]
    split
    · rename_i hh; exact ⟨_, rfl, .waits _ hh⟩
    · rename_i hh; exact ⟨_, rfl, .acquire (by simpa using hh)⟩
  | release =>
    simp only [exec, execRelease]
    split
    · rename_i hh; exact ⟨_, rfl, .release hh⟩
    · exact ⟨_, rfl, .fault _ _ rfl⟩
  | hwModmul =>
    simp only [exec, execHwModmul]
    split
    · exact ⟨_, rfl, .fault _ _ rfl⟩
    · rename_i hh
      split
      · exact ⟨_, rfl, .refusal _ _ rfl⟩
      · exact ⟨_, rfl, .primitive _ _ _ _ _ _ _ _ _ _ (.inl rfl) (by simpa using hh)
          (hwMultiply_result _ _ _ _ _ _ _ _)⟩
  | hwMontmul =>
    simp only [exec, execHwMontmul]
    split
    · exact ⟨_, rfl, .fault _ _ rfl⟩
    · rename_i hh
      split
      · exact ⟨_, rfl, .refusal _ _ rfl⟩
      · exact ⟨_, rfl, .primitive _ _ _ _ _ _ _ _ _ _ (.inr rfl) (by simpa using hh)
          (hwMultiply_result _ _ _ _ _ _ _ _)⟩
  | mult h =>
    simp only [exec, execMult]
    split
    · rename_i hv; exact ⟨_, rfl, .fault _ _ (by simp_all [waits])⟩
    · rename_i hv
      split
      · rename_i hs; exact ⟨_, rfl, .refusal _ _ (by simp_all [waits])⟩
      · rename_i hs
        split
        · rename_i hh; exact ⟨_, rfl, .waits _ (by simp_all [waits])⟩
        · rename_i hh
          exact ⟨_, rfl, .mult h _ _ (by simpa using hv) (by simpa using hs) (by simpa using hh)
            (hwMultiply_result _ _ _ _ _ _ _ _)⟩
  | exp h l =>
    cases hq : s.me.seq with
    | run r => exact ⟨_, by simp [exec, execExp, hq], exec_exp_run_shape h l s r hq⟩
    | idle =>
      have hw : waits (.exp h l) s = false := by simp [waits, hq]
      refine ⟨expStart h l s, by simp [exec, execExp, hq], ?_⟩
      unfold expStart
      split
      · exact .fault _ _ hw
      · rename_i hv
        split
        · exact .refusal _ _ hw
        · rename_i hX
          split
          · unfold expZero
            split
            · exact .plain _ _ _ _ hw (fun _ _ _ => hq) (fun h => absurd rfl h)
            · exact .plain _ _ _ _ hw (fun _ _ _ => hq) (fun _ => rfl)
          · rename_i hE
            exact .expStart h l hq (by simpa using hv) (by simpa [anyWider] using hX) hE

/-- What a step does (R13): the caller the scheduler picks has an enabled step, and in the state where it
is taken either its word is refused or its command, which does not wait, runs. -/
theorem step_cases (s t : State) (h : step s = .next t) :
    ∃ c, s.nextCaller = some c ∧ s.enabled c = true ∧ c < s.callers.length ∧ s.stopped c = false ∧
      ((∃ e, s.nextOf c = some (.error e) ∧ t = (s.scheduled c).refuseCmd (refusalOf e)) ∨
        ∃ i, s.nextOf c = some (.ok i) ∧ waits i (s.scheduled c) = false ∧
          exec i (s.scheduled c) = .next t ∧ ExecShape (s.scheduled c) i t) := by
  unfold step at h
  cases hn : s.nextCaller with
  | none => simp [hn] at h
  | some c =>
    have he := nextCaller_enabled s c hn
    obtain ⟨hc, hs, ho⟩ := enabled_inv s c he
    refine ⟨c, rfl, he, hc, hs, ?_⟩
    simp only [hn] at h
    have hnx : (s.scheduled c).nextOf c = s.nextOf c := rfl
    unfold stepOf at h
    rw [hnx] at h
    rcases ho with ⟨e, ho⟩ | ⟨i, ho, hw⟩
    · simp only [ho, Host.Outcome.next.injEq] at h
      exact .inl ⟨e, ho, h.symm⟩
    · simp only [ho] at h
      obtain ⟨t', ht, hsh⟩ := exec_shape i (s.scheduled c)
      have : t' = t := by rw [ht] at h; exact Host.Outcome.next.inj h
      subst this
      exact .inr ⟨i, ho, hw, h, hsh⟩

end Sys2Proof.Machine
end

