-- ==== Sys2Proof/Laws/PerInstr.lean ====
section
/-! SUPPORT. Statements for all instructions, made per instruction. -/

/-- The word of a well-formed command decodes to the command (R74, R75). -/
def Sys2Proof.Laws.RoundTrip.Statement (i : Sys2Proof.Instr) : Prop :=
  i.wf = true → Sys2Proof.decode (Sys2Proof.encode i) = .ok i

namespace Sys2Proof.Laws.RoundTrip

theorem ctxBuild (h : SlotNo) : Statement (.ctxBuild h) := by
  unfold Statement; revert h; decide

theorem ctxRead (h : SlotNo) (f : BitVec 3) : Statement (.ctxRead h f) := by
  unfold Statement; revert h f; decide +kernel

theorem ctxDestroy (h : SlotNo) : Statement (.ctxDestroy h) := by
  unfold Statement; revert h; decide

theorem hwCapacity : Statement .hwCapacity := by unfold Statement; decide

theorem acquire : Statement .acquire := by unfold Statement; decide

theorem release : Statement .release := by unfold Statement; decide

theorem hwModmul : Statement .hwModmul := by unfold Statement; decide

theorem hwMontmul : Statement .hwMontmul := by unfold Statement; decide

theorem mult (h : SlotNo) : Statement (.mult h) := by
  unfold Statement; revert h; decide

theorem exp (h : SlotNo) (l : Bool) : Statement (.exp h l) := by
  unfold Statement; revert h l; decide +kernel

end Sys2Proof.Laws.RoundTrip
end

