-- ==== Sys2Proof/Laws/Schedule.lean ====
section
/-! SUPPORT. The scheduler's queue: a caller passed over with an enabled step comes nearer to its turn with
every such step, and moves back with none (R243). -/

namespace Sys2Proof.Machine

/-- How long caller `a` may still be passed over with an enabled step: its patience and the number of
turns before its own. -/
def turnsWait (a : Nat) : List Turn → Nat
  | [] => 0
  | t :: ts => if t.caller = a then t.patience else turnsWait a ts + 1

@[simp] theorem passedOver_caller (en : Nat → Bool) (t : Turn) :
    (t.passedOver en).caller = t.caller := by
  unfold Turn.passedOver; split <;> rfl

theorem passedOver_patience_le (en : Nat → Bool) (t : Turn) :
    (t.passedOver en).patience ≤ t.patience := by
  unfold Turn.passedOver; split <;> simp

theorem passedOver_patience_of_enabled (en : Nat → Bool) (t : Turn) (h : en t.caller = true) :
    (t.passedOver en).patience = t.patience - 1 := by
  simp [Turn.passedOver, h]

/-- Nobody leaves the queue: the scheduled caller goes to its end. -/
theorem turnsAfter_callers (en : Nat → Bool) (c p : Nat) (ts : List Turn) :
    (turnsAfter en c p ts).map Turn.caller = (ts.map Turn.caller).filter (· != c) ++ [c] := by
  simp only [turnsAfter, List.map_append, List.map_map, List.map_cons, List.map_nil, List.filter_map]
  congr 1
  exact List.map_congr_left fun t _ => passedOver_caller en t

theorem mem_turnsAfter (en : Nat → Bool) (c p a : Nat) (ts : List Turn) :
    a ∈ (turnsAfter en c p ts).map Turn.caller ↔ a = c ∨ a ∈ ts.map Turn.caller := by
  rw [turnsAfter_callers, List.mem_append, List.mem_filter, List.mem_singleton]
  by_cases h : a = c <;> simp [h]

/-- The queue of one turn each stays one of one turn each. -/
theorem turnsAfter_perm (en : Nat → Bool) (c p n : Nat) (ts : List Turn) (hc : c < n)
    (h : (ts.map Turn.caller).Perm (List.range n)) :
    ((turnsAfter en c p ts).map Turn.caller).Perm (List.range n) := by
  rw [turnsAfter_callers]
  refine ((h.filter _).append_right [c]).trans ?_
  refine (List.perm_ext_iff_of_nodup ?_ List.nodup_range).2 fun a => ?_
  · refine List.nodup_append'.2 ⟨List.nodup_range.filter _, List.nodup_singleton c, ?_⟩
    simp [List.Disjoint]
  · by_cases e : a = c <;> simp [e, hc]

theorem turnsWait_append_of_mem (a : Nat) (ts us : List Turn) (h : a ∈ ts.map Turn.caller) :
    turnsWait a (ts ++ us) = turnsWait a ts := by
  induction ts with
  | nil => simp at h
  | cons t ts ih =>
    by_cases e : t.caller = a
    · simp [turnsWait, e]
    · have : a ∈ ts.map Turn.caller := by simpa [Ne.symm e] using h
      simp [turnsWait, e, ih this]

/-- The queue's turns but the scheduled caller's, passed over. -/
def turnsKept (en : Nat → Bool) (c : Nat) (ts : List Turn) : List Turn :=
  (ts.filter (fun t => t.caller != c)).map (Turn.passedOver en)

theorem turnsKept_cons_of_eq (en : Nat → Bool) (c : Nat) (t : Turn) (ts : List Turn)
    (h : t.caller = c) : turnsKept en c (t :: ts) = turnsKept en c ts := by
  simp [turnsKept, h]

theorem turnsKept_cons_of_ne (en : Nat → Bool) (c : Nat) (t : Turn) (ts : List Turn)
    (h : t.caller ≠ c) : turnsKept en c (t :: ts) = t.passedOver en :: turnsKept en c ts := by
  simp [turnsKept, h]

theorem turnsWait_cons_of_eq (a : Nat) (t : Turn) (ts : List Turn) (h : t.caller = a) :
    turnsWait a (t :: ts) = t.patience := by simp [turnsWait, h]

theorem turnsWait_cons_of_ne (a : Nat) (t : Turn) (ts : List Turn) (h : t.caller ≠ a) :
    turnsWait a (t :: ts) = turnsWait a ts + 1 := by simp [turnsWait, h]

/-- A caller that is not scheduled does not move back. -/
theorem turnsWait_kept_le (en : Nat → Bool) (c a : Nat) (ts : List Turn) (hca : c ≠ a) :
    turnsWait a (turnsKept en c ts) ≤ turnsWait a ts := by
  induction ts with
  | nil => exact Nat.le_refl _
  | cons t ts ih =>
    by_cases e : t.caller = a
    · rw [turnsKept_cons_of_ne en c t ts (by omega),
        turnsWait_cons_of_eq a _ _ (by rw [passedOver_caller, e]), turnsWait_cons_of_eq a t ts e]
      exact passedOver_patience_le en t
    · rw [turnsWait_cons_of_ne a t ts e]
      by_cases e2 : t.caller = c
      · rw [turnsKept_cons_of_eq en c t ts e2]; omega
      · rw [turnsKept_cons_of_ne en c t ts e2,
          turnsWait_cons_of_ne a _ _ (by rw [passedOver_caller]; exact e)]
        omega

/-- A caller passed over with an enabled step moves nearer, if it has patience left, or if the first caller
that is due was the one scheduled. -/
theorem turnsWait_kept_lt (en : Nat → Bool) (c a : Nat) (ts : List Turn) (hca : c ≠ a)
    (hen : en a = true) (hm : a ∈ ts.map Turn.caller)
    (hd : (∃ t ∈ ts, t.caller = a ∧ t.patience = 0) →
      (ts.find? (fun t => t.patience == 0 && en t.caller)).map Turn.caller = some c) :
    turnsWait a (turnsKept en c ts) < turnsWait a ts := by
  induction ts with
  | nil => cases hm
  | cons t ts ih =>
    by_cases e : t.caller = a
    · rw [turnsKept_cons_of_ne en c t ts (by omega),
        turnsWait_cons_of_eq a _ _ (by rw [passedOver_caller, e]), turnsWait_cons_of_eq a t ts e,
        passedOver_patience_of_enabled en t (e ▸ hen)]
      by_cases hp : t.patience = 0
      · have := hd ⟨t, List.mem_cons_self, e, hp⟩
        simp [hp, e, hen] at this
        exact absurd this.symm hca
      · omega
    · rw [turnsWait_cons_of_ne a t ts e]
      by_cases e2 : t.caller = c
      · have := turnsWait_kept_le en c a ts hca
        rw [turnsKept_cons_of_eq en c t ts e2]; omega
      · have hm' : a ∈ ts.map Turn.caller := by simpa [Ne.symm e] using hm
        have := ih hm' fun ⟨u, hu, hua, hup⟩ => by
          have h := hd ⟨u, List.mem_cons_of_mem t hu, hua, hup⟩
          rw [List.find?_cons] at h
          split at h
          · exact absurd (Option.some.inj h) e2
          · exact h
        rw [turnsKept_cons_of_ne en c t ts e2,
          turnsWait_cons_of_ne a _ _ (by rw [passedOver_caller]; exact e)]
        omega

/-- With a caller of no patience and an enabled step in the queue, some caller is due. -/
theorem due_isSome (s : State) (t : Turn) (ht : t ∈ s.turns) (hp : t.patience = 0)
    (he : s.enabled t.caller = true) : ∃ d, s.due = some d := by
  unfold State.due
  cases hf : s.turns.find? (fun t => t.patience == 0 && s.enabled t.caller) with
  | some u => exact ⟨u.caller, rfl⟩
  | none =>
    have := List.find?_eq_none.1 hf t ht
    simp [hp, he] at this

/-- With a due caller and more than one caller enabled, the due one is next. -/
theorem nextCaller_of_due (s : State) (c d a : Nat) (hn : s.nextCaller = some c)
    (hd : s.due = some d) (ha : s.enabled a = true) (hca : c ≠ a) : c = d := by
  have ha' := (mem_enabledCallers s a).2 ha
  unfold State.nextCaller at hn
  rcases choose_cases s.draws s.due s.enabledCallers with ⟨e, -⟩ | ⟨b, hb, e⟩ | ⟨b, hb, e⟩ | ⟨hb, -⟩
  · rw [e] at ha'; cases ha'
  · rw [hb, List.mem_singleton] at ha'
    rw [e] at hn; cases hn; exact absurd ha'.symm hca
  · rw [e] at hn; cases hn; rw [hb] at hd; exact Option.some.inj hd
  · rw [hb] at hd; cases hd

/-- What scheduling caller `c` does to the wait of another caller: it grows for none, and it shrinks for
each one whose step is enabled (R243). -/
theorem scheduled_turnsWait (s : State) (c a : Nat) (hn : s.nextCaller = some c) (hca : c ≠ a)
    (hm : a ∈ s.turns.map Turn.caller) :
    turnsWait a (s.scheduled c).turns ≤ turnsWait a s.turns ∧
      (s.enabled a = true → turnsWait a (s.scheduled c).turns < turnsWait a s.turns) := by
  have hk : a ∈ (turnsKept s.enabled c s.turns).map Turn.caller := by
    have := (mem_turnsAfter s.enabled c 0 a s.turns).2 (.inr hm)
    simpa [turnsAfter, turnsKept, Ne.symm hca] using this
  have he : turnsWait a (s.scheduled c).turns = turnsWait a (turnsKept s.enabled c s.turns) :=
    turnsWait_append_of_mem a _ _ hk
  rw [he]
  refine ⟨turnsWait_kept_le _ c a _ hca, fun hen => turnsWait_kept_lt _ c a _ hca hen hm ?_⟩
  rintro ⟨t, ht, hta, htp⟩
  obtain ⟨d, hd⟩ := due_isSome s t ht htp (hta ▸ hen)
  have hcd := nextCaller_of_due s c d a hn hd hen hca
  subst hcd
  exact hd

end Sys2Proof.Machine
end

