-- ==== Sys2Proof/Machine/Assembly.lean ====
section
/-! DEFINITION. The textual syntax of a command (R78): its mnemonic, its field text and its operands, as
one line. The block does not read text; this is the rendering the spec gives. -/

namespace Sys2Proof.Machine

/-- The textual mnemonic of a command (R78). -/
def asmMnemonic : Instr → String
  | .ctxBuild _ => "ctx.build"
  | .ctxRead _ _ => "ctx.read"
  | .ctxDestroy _ => "ctx.destroy"
  | .hwCapacity => "hw.cap"
  | .acquire => "hw.acquire"
  | .release => "hw.release"
  | .hwModmul => "hw.modmul"
  | .hwMontmul => "hw.montmul"
  | .mult _ => "mult"
  | .exp _ l => if l then "exp.live" else "exp"

/-- The name of a CTX_READ selector (R76, R78); a reserved selector has none. -/
def asmField (f : BitVec 3) : Option String :=
  if f = 0#3 then some "wc"
  else if f = 1#3 then some "hw"
  else if f = 2#3 then some "mprime"
  else if f = 3#3 then some "rinv"
  else if f = 4#3 then some "m"
  else none

/-- The selector a field name stands for (R78). -/
def asmFieldOf (name : String) : Option (BitVec 3) :=
  if name = "wc" then some 0#3
  else if name = "hw" then some 1#3
  else if name = "mprime" then some 2#3
  else if name = "rinv" then some 3#3
  else if name = "m" then some 4#3
  else none

/-- A buffer as a list of decimal word literals, least significant first (R78). -/
def asmBuf (b : Buf) : String :=
  "[" ++ String.intercalate ", " (b.map (fun w => toString w.toNat)) ++ "]"

/-- The shorthand `<v>:<k>` stands for `buf_k(v)` (R78). -/
def asmShorthand (v k : Nat) : Buf := bufOf k v

/-- One line of assembler for a command and the operand slots it uses (R72, R78); a reserved selector has
no text. -/
def asmLine (i : Instr) (op : OperandRecord) : Option String :=
  match i with
  | .ctxBuild h => some (asmMnemonic i ++ " " ++ toString h.val ++ ", S=" ++ toString op.S ++ ", A=" ++ asmBuf op.A)
  | .ctxRead h f => (asmField f).map (fun n => asmMnemonic i ++ " " ++ toString h.val ++ ", " ++ n)
  | .ctxDestroy h => some (asmMnemonic i ++ " " ++ toString h.val)
  | .hwCapacity => some (asmMnemonic i ++ " S=" ++ toString op.S)
  | .acquire => some (asmMnemonic i)
  | .release => some (asmMnemonic i)
  | .hwModmul =>
    some (asmMnemonic i ++ " A=" ++ asmBuf op.A ++ ", B=" ++ asmBuf op.B ++ ", C=" ++ asmBuf op.C ++
      ", D=" ++ asmBuf op.D ++ ", P=" ++ toString op.P.toNat ++ ", S=" ++ toString op.S)
  | .hwMontmul =>
    some (asmMnemonic i ++ " A=" ++ asmBuf op.A ++ ", B=" ++ asmBuf op.B ++ ", C=" ++ asmBuf op.C ++
      ", P=" ++ toString op.P.toNat ++ ", S=" ++ toString op.S)
  | .mult h => some (asmMnemonic i ++ " " ++ toString h.val ++ ", A=" ++ asmBuf op.A ++ ", B=" ++ asmBuf op.B)
  | .exp h _ => some (asmMnemonic i ++ " " ++ toString h.val ++ ", A=" ++ asmBuf op.A ++ ", B=" ++ asmBuf op.B)

end Sys2Proof.Machine
end

