-- ==== Sys2Proof/Tests/Slice0.lean ====
section
/-! SUPPORT. Tests: expected values are those of 95_test_vectors.md, named by section and row, and for
every statement with hypotheses a theorem `witness_<Name>` that something meets them. -/

namespace Sys2Proof.Tests

open Sys2Proof Sys2Proof.Machine

/-! Helpers: small states and what to read off an outcome. -/

/-- The state of a next state; the reset state otherwise. -/
def after : Host.Outcome State Fault Refusal → State
  | .next t => t
  | .fault _ => State.reset
  | .refused _ => State.reset

/-- Is the outcome a next state? -/
def goesOn : Host.Outcome State Fault Refusal → Bool
  | .next _ => true
  | .fault _ => false
  | .refused _ => false

theorem exists_next {o : Host.Outcome State Fault Refusal} (h : goesOn o = true) :
    ∃ t, o = .next t := by
  cases o with
  | next t => exact ⟨t, rfl⟩
  | fault f => cases h
  | refused r => cases h

/-- An operand record. -/
def ops (A B : Buf) (C D : Buf := []) (P : Word := 0#32) (S : Nat := 0) : OperandRecord :=
  { A := A, B := B, C := C, D := D, P := P, S := S }

/-- Every draw true, and the scheduler's picks; a scheduled caller gets patience 9. -/
def allTrue (picks : List Nat) : Draws :=
  { allocOk := List.replicate 8 true, szOk := List.replicate 16 true, bufs := [], picks := picks,
    patiences := List.replicate 8 9, taken := 0 }

/-- Reset with one caller per stream, the streams loaded, every draw true, no caller due. -/
def start (streams : List (List Command)) (picks : List Nat := []) : State :=
  (((State.resetWith { Config.default with nCallers := streams.length }).loadStreams
    streams).setDraws (allTrue picks)).setTurns
    ((List.range streams.length).map fun c => ⟨c, 9⟩)

/-- One caller with one command. -/
def one (w : Word) (op : OperandRecord) : State := start [[⟨w, op⟩]]

/-- The context of `[7]` (95 section 2.2, and the end state of program P3). -/
def ctx7 : Slot :=
  { valid := true, M := [7#32], wc := 1, hw := 16, mprime := 0x49249249#32, Rinv := bufOf 16 2,
    borrows := 0 }

/-- One caller with one command, and slot 0 built from `[7]`. -/
def on7 (w : Word) (op : OperandRecord) : State := (one w op).setSlot 0 ctx7

/-- The same with the multiplier held by caller `c`. -/
def heldBy (c : Nat) (s : State) : State :=
  { s with holder := some c, hwEn := true, acqCount := 1, evt := [.acq c] }

/-- The same with `szOk` drawn false at draw `j`. -/
def badSizing (j : Nat) (s : State) : State :=
  s.setDraws { s.draws with szOk := List.replicate j true ++ [false] }

/-- The return record of caller 0 after an outcome. -/
def ret0 (o : Host.Outcome State Fault Refusal) : RetRecord := ((after o).caller 0).ret

/-! Well-formedness: the one check refuses each reserved selector (R76). -/

theorem test_wf_refuses_reserved_selectors :
    (Instr.ctxRead 0 5#3).wf = false ∧ (Instr.ctxRead 0 6#3).wf = false ∧
    (Instr.ctxRead 15 7#3).wf = false ∧ (Instr.ctxRead 15 4#3).wf = true := by decide

/-! Decoding: words written out from R103 to R106, R124 to R128 and R150, bit by bit (section 2.1). -/

theorem test_decode_ctx_build :
    decode 0b0000_0000_0000_0000_0000_1111_0000_0001#32 = .ok (.ctxBuild 15) := by decide

theorem test_decode_ctx_read :
    decode 0b0000_0000_0000_0000_1000_0000_0000_0010#32 = .ok (.ctxRead 0 4#3) := by decide

theorem test_decode_ctx_destroy :
    decode 0b0000_0000_0000_0000_0000_1111_0000_0011#32 = .ok (.ctxDestroy 15) := by decide

theorem test_decode_hw_capacity :
    decode 0b0000_0000_0000_0000_0000_0000_0000_0100#32 = .ok .hwCapacity := by decide

theorem test_decode_acquire :
    decode 0b0000_0000_0000_0000_0000_0000_0001_0000#32 = .ok .acquire := by decide

theorem test_decode_release :
    decode 0b0000_0000_0000_0000_0000_0000_0001_0001#32 = .ok .release := by decide

theorem test_decode_hw_modmul :
    decode 0b0000_0000_0000_0000_0000_0000_0001_0010#32 = .ok .hwModmul := by decide

theorem test_decode_hw_montmul :
    decode 0b0000_0000_0000_0000_0000_0000_0001_0011#32 = .ok .hwMontmul := by decide

theorem test_decode_mult :
    decode 0b0000_0000_0000_0000_0000_0011_0010_0000#32 = .ok (.mult 3) := by decide

theorem test_decode_exp :
    decode 0b0000_0000_0000_0000_0001_0010_0010_0001#32 = .ok (.exp 2 true) := by decide

theorem test_decode_refuses :
    decode 0x00001001#32 = .error .illegalCommand ∧ decode 0x0000A002#32 = .error .reservedField ∧
    decode 0x0000E002#32 = .error .reservedField ∧ decode 0x00001002#32 = .error .illegalCommand ∧
    decode 0x00000104#32 = .error .illegalCommand ∧ decode 0x00002021#32 = .error .illegalCommand ∧
    decode 0x80000010#32 = .error .illegalCommand ∧ decode 0x000000FF#32 = .error .illegalCommand := by
  decide

theorem test_encode_words :
    encode (.ctxBuild 15) = 0x00000F01#32 ∧ encode (.ctxRead 0 3#3) = 0x00006002#32 ∧
    encode (.ctxDestroy 15) = 0x00000F03#32 ∧ encode .hwCapacity = 0x00000004#32 ∧
    encode .acquire = 0x00000010#32 ∧ encode .release = 0x00000011#32 ∧
    encode .hwModmul = 0x00000012#32 ∧ encode .hwMontmul = 0x00000013#32 ∧
    encode (.mult 3) = 0x00000320#32 ∧ encode (.exp 2 true) = 0x00001221#32 := by decide

theorem test_decode_table_word :
    decodeTableWord 32 0x00001221 = some (.exp 2 true) ∧ decodeTableWord 32 0x00010020 = none ∧
    decodeTableWord 16 0x1221 = some (.exp 2 true) := by decide

/-! One step of each command. -/

/-- Section 2.2: `hw.cap S=65` gives 80, `S=0` gives 0. -/
theorem test_hw_capacity :
    ret0 (exec .hwCapacity (one 0x04#32 (ops [] [] (S := 65)))) = ⟨.ok, .scalar 80⟩ ∧
    ret0 (exec .hwCapacity (one 0x04#32 (ops [] []))) = ⟨.ok, .scalar 0⟩ := by decide

/-- Section 2.2: the context of `[7]`. -/
theorem test_ctx_build :
    (after (exec (.ctxBuild 0) (one 0x01#32 (ops [7#32] [] (S := 1))))).slot 0 = ctx7 := by
  decide +kernel

/-- Section 2.2: an even modulus, no modulus, and a word count that is not `op.S`. -/
theorem test_ctx_build_outcomes :
    ret0 (exec (.ctxBuild 0) (one 0x01#32 (ops [6#32] [] (S := 1)))) = ⟨.invalidModulus, .none⟩ ∧
    ret0 (exec (.ctxBuild 0) (one 0x01#32 (ops [] []))) = ⟨.invalidModulus, .none⟩ ∧
    (after (exec (.ctxBuild 0) (one 0x01#32 (ops [5#32] [] (S := 2))))).refused =
      [⟨.operandShape, 0, 0⟩] ∧
    (after (exec (.ctxBuild 0) (on7 0x01#32 (ops [5#32] [] (S := 2))))).faults =
      [⟨.slotInUse, 0, 0⟩] := by decide +kernel

/-- Section 2.2: `mprime`, `Rinv`; and an invalid slot. -/
theorem test_ctx_read :
    ret0 (exec (.ctxRead 0 2#3) (on7 0x4002#32 (ops [] []))) = ⟨.ok, .scalar 0x49249249⟩ ∧
    ret0 (exec (.ctxRead 0 3#3) (on7 0x6002#32 (ops [] []))) = ⟨.ok, .buffer (bufOf 16 2)⟩ ∧
    (after (exec (.ctxRead 5 0#3) (on7 0x0502#32 (ops [] [])))).faults = [⟨.badContext, 0, 0⟩] := by
  decide +kernel

/-- Section 2.2: the slot is invalid after; and the precedence of `ContextBusy` (R106). -/
theorem test_ctx_destroy :
    ((after (exec (.ctxDestroy 0) (on7 0x03#32 (ops [] [])))).slot 0).valid = false ∧
    (after (exec (.ctxDestroy 0) ((on7 0x03#32 (ops [] [])).takeBorrow 0))).faults =
      [⟨.contextBusy, 0, 0⟩] := by decide +kernel

/-- Section 2.3: ACQUIRE of the free multiplier. -/
theorem test_acquire :
    (after (exec .acquire (one 0x10#32 (ops [] [])))).holder = some 0 ∧
    (after (exec .acquire (one 0x10#32 (ops [] [])))).evt = [.acq 0, .ret 0 .ok] := by decide

/-- Section 2.3: RELEASE by the holder, and by a caller that is not. -/
theorem test_release :
    (after (exec .release (heldBy 0 (one 0x11#32 (ops [] []))))).holder = none ∧
    (after (exec .release (heldBy 1 (one 0x11#32 (ops [] []))))).faults =
      [⟨.unbalancedRelease, 0, 0⟩] := by decide

/-- Section 2.4, `M = 7`: `3·5`, and its note with `D = 1`. -/
theorem test_hw_modmul :
    ret0 (exec .hwModmul (heldBy 0 (one 0x12#32
      (ops [3#32] [5#32] [7#32] [2#32] 0x49249249#32 16)))) = ⟨.ok, .buffer (bufOf 16 1)⟩ ∧
    ret0 (exec .hwModmul (heldBy 0 (one 0x12#32
      (ops [3#32] [5#32] [7#32] [1#32] 0x49249249#32 16)))) = ⟨.ok, .buffer (bufOf 16 4)⟩ := by
  decide +kernel

/-- Section 2.4, the failure rows: `h = 0`, and a wide operand before it. -/
theorem test_hw_modmul_outcomes :
    ret0 (exec .hwModmul (heldBy 0 (one 0x12#32 (ops [] [])))) = ⟨.hardwareFault, .none⟩ ∧
    (after (exec .hwModmul (heldBy 0 (one 0x12#32
      (ops [] [5#32] [7#32] [2#32] 0x49249249#32 0))))).refused = [⟨.operandShape, 0, 0⟩] := by
  decide +kernel

/-- Section 2.4, `M = 4294967291`: `3·5`; and `M = 13`: `9·10`. -/
theorem test_hw_montmul :
    ret0 (exec .hwMontmul (heldBy 0 (one 0x13#32
      (ops [3#32] [5#32] [0xFFFFFFFB#32] [] 0xCCCCCCCD#32 16)))) =
      ⟨.ok, .buffer (bufOf 16 293447823)⟩ ∧
    ret0 (exec .hwMontmul (heldBy 0 (one 0x13#32
      (ops [9#32] [10#32] [13#32] [] 0x3B13B13B#32 16)))) = ⟨.ok, .buffer (bufOf 16 10)⟩ := by
  decide +kernel

/-- Section 2.4, the failure rows: not the holder, and `h > HW_MAX_WORDS`. -/
theorem test_hw_montmul_outcomes :
    (after (exec .hwMontmul (one 0x13#32
      (ops [3#32] [5#32] [7#32] [] 0x49249249#32 16)))).faults = [⟨.lockNotHeld, 0, 0⟩] ∧
    ret0 (exec .hwMontmul (heldBy 0 (one 0x13#32
      (ops [3#32] [5#32] [7#32] [] 0x49249249#32 129)))) = ⟨.hardwareFault, .none⟩ := by
  decide +kernel

/-- Section 2.5, row M2: value and events. -/
theorem test_mult :
    ret0 (exec (.mult 0) (on7 0x20#32 (ops [3#32] [5#32]))) = ⟨.ok, .buffer (bufOf 16 1)⟩ ∧
    (after (exec (.mult 0) (on7 0x20#32 (ops [3#32] [5#32])))).evt =
      [.acq 0, .hwop 0 .modmul 3 5 7 1, .rel 0, .ret 0 .ok] := by decide +kernel

/-- Section 2.5, row M10: sizing fails, the lock is released all the same. -/
theorem test_mult_bad_sizing :
    (after (exec (.mult 0) (badSizing 0 (on7 0x20#32 (ops [3#32] [5#32]))))).evt =
      [.acq 0, .rel 0, .ret 0 .hardwareFault] := by decide +kernel

/-- Section 2.6, row X4: `3^5 mod 7 = 5` after 7 hardware steps. -/
theorem test_exp :
    ret0 (execTimes (.exp 0 true) 8 (on7 0x1021#32 (ops [3#32] [5#32]))) =
      ⟨.ok, .buffer (bufOf 16 5)⟩ ∧
    (after (execTimes (.exp 0 true) 8 (on7 0x1021#32 (ops [3#32] [5#32])))).acqCount = 7 := by
  decide +kernel

/-- Section 2.6, rows X9 and X13: a zero exponent, and no exponent words. -/
theorem test_exp_zero :
    ret0 (exec (.exp 0 false) (on7 0x21#32 (ops [3#32] [0#32]))) = ⟨.ok, .buffer (bufOf 16 1)⟩ ∧
    ret0 (exec (.exp 0 false) (heldBy 0 (on7 0x21#32 (ops [3#32] [])))) =
      ⟨.ok, .buffer (bufOf 16 1)⟩ := by decide +kernel

/-- R131, program P5: with the lock held by the caller itself, MULT has no step, and the run is blocked. -/
theorem test_reentrant_mult_is_stuck :
    (heldBy 0 (on7 0x20#32 (ops [3#32] [5#32]))).enabled 0 = false ∧
    goesOn (step (heldBy 0 (on7 0x20#32 (ops [3#32] [5#32])))) = false := by decide

/-! Witnesses: for each statement with hypotheses, states and operands that meet them, at boundary values
of each clause. -/

theorem witness_DecodeFollowsTheTable :
    0x00000F01#32 &&& 0xFFFFF0FF#32 = 0x01#32 ∧ 0x0000E002#32 &&& 0xFFFF10FF#32 = 0x02#32 ∧
    0x00008F02#32 &&& 0xFFFF10FF#32 = 0x02#32 ∧ 0x00000003#32 &&& 0xFFFFF0FF#32 = 0x03#32 ∧
    0x00000F20#32 &&& 0xFFFFF0FF#32 = 0x20#32 ∧ 0x00001F21#32 &&& 0xFFFFE0FF#32 = 0x21#32 := by decide

theorem witness_DecodeFollowsTheTable_no_row :
    ∀ p ∈ rows, (0xFFFFFFFF#32 &&& p.mask == p.pat) = false := by decide

theorem witness_DecodeEncodeAgree :
    decode 0x00008F02#32 = .ok (.ctxRead 15 4#3) ∧ (Instr.ctxRead 15 4#3).wf = true ∧
    encode (.ctxRead 15 4#3) = 0x00008F02#32 := by decide

/-- One caller whose stream has a command, and one whose word does not decode. -/
theorem witness_StepRunsDecodedCommand :
    (one 0x04#32 (ops [] [])).nextCaller = some 0 ∧
    ((one 0x04#32 (ops [] [])).caller 0).seq = .idle ∧
    ((one 0x04#32 (ops [] [])).caller 0).stream[((one 0x04#32 (ops [] [])).caller 0).cp]? =
      some ⟨0x04#32, ops [] []⟩ ∧ decode 0x04#32 = .ok .hwCapacity ∧
    (one 0x00#32 (ops [] [])).nextCaller = some 0 ∧ decode 0x00#32 = .error .illegalCommand := by decide

/-- Caller 0 runs the last entry of `3^1 mod 7` (`ρ = 4` modulo 7), caller 1 has a HW_CAPACITY; the history
holds one multiply of caller 1. -/
def lastRun : SeqRun :=
  { slot := 0, X := bufOf 16 3, E := 1, L := true, plan := [.convout], Xm := some (bufOf 16 5),
    Z := some (bufOf 16 5) }

/-- The state of `lastRun`, the scheduler's pick given. -/
def twoCallers (pick : Nat) : State :=
  let s := (start [[⟨0x1021#32, ops [3#32] [1#32]⟩], [⟨0x04#32, ops [] []⟩]] [pick]).setSlot 0
    { ctx7 with borrows := 1 }
  { s.setSeq (.run lastRun) with
    cur := 1, acqCount := 1, relCount := 1, evt := [.acq 1, .hwop 1 .montmul 3 5 7 2, .rel 1] }

/-- Caller 0 holds the multiplier; caller 1 is held at its ACQUIRE. -/
def twoHeld : State :=
  heldBy 0 (start [[⟨0x11#32, ops [] []⟩], [⟨0x10#32, ops [] []⟩]] [0])

theorem ctx7_ok_default : ContextOk Config.default ctx7 :=
  ⟨by decide, by decide, by decide, by decide, by decide, by decide, by decide +kernel, by decide⟩

theorem ctx7_ok (cfg : Config) (h : cfg.blockWords = 16) (n : Nat) :
    ContextOk cfg { ctx7 with borrows := n } := by
  have k := ctx7_ok_default
  refine ⟨k.wc_pos, k.wc_M, k.odd, ?_, k.wc_le_hw, k.wc_Rinv, k.val_Rinv, k.mprime⟩
  rw [h]; exact k.hw_eq

theorem lastRun_ok (n : Nat) : RunOk (twoCallers n) lastRun := by
  refine ⟨by rfl, by rfl, by decide, ⟨[.convx, .initz, .mulx 0], by decide⟩, by decide, ?_, ?_, ?_, ?_⟩
  · intro h; exact absurd h (by decide)
  · intro _; exact ⟨bufOf 16 5, rfl, rfl⟩
  · intro h; exact absurd h (by decide)
  · intro _; exact ⟨bufOf 16 5, rfl, rfl⟩

theorem twoCallers_seq (n c : Nat) (r : SeqRun) (h : ((twoCallers n).caller c).seq = .run r) :
    r = lastRun := by
  refine caller_forall (twoCallers n) (fun x => x.seq = .run r → r = lastRun) ?_ ?_ c h
  · intro x hx
    rcases List.mem_pair.1 (show x ∈ [_, _] from hx) with rfl | rfl
    · intro h; exact (Seq.run.inj h).symm
    · intro h; cases h
  · intro h; cases h

theorem twoCallers_inv (n : Nat) : (twoCallers n).Inv := by
  refine ⟨by rfl, by rfl, Nat.one_lt_two, (by intro c h; cases h), by rfl, by rfl, by rfl, by rfl,
    by rfl, ?_, ?_, ?_, ?_, (by intro f h; cases h), (by intro f h; cases h), List.Perm.refl _⟩
  · intro h hv
    have h0 : ∀ g, ((twoCallers 0).slot g).valid = true → g = 0 := by decide
    have : h = 0 := h0 h hv
    subst this
    exact ctx7_ok _ rfl 1
  · show ∀ h, ((twoCallers 0).slot h).borrows =
      (twoCallers 0).callers.countP (fun x => runsOn h x.seq)
    decide
  · intro c r h
    rw [twoCallers_seq n c r h]; exact lastRun_ok n
  · intro c h
    refine absurd ?_ h
    refine caller_forall (twoCallers n) (fun x => x.ret.status = .ok) ?_ rfl c
    intro x hx
    rcases List.mem_pair.1 (show x ∈ [_, _] from hx) with rfl | rfl <;> rfl

theorem twoCallers_values (n : Nat) : (twoCallers n).SeqValues := by
  intro c r h
  rw [twoCallers_seq n c r h]
  refine ⟨?_, ?_⟩
  · intro x hx; cases hx
    show val (bufOf 16 5) = val lastRun.X * rho ctx7.hw % val ctx7.M
    decide +kernel
  · intro z hz; cases hz
    show val (bufOf 16 5) =
      val lastRun.X ^ planPower (runDone lastRun) * rho ctx7.hw % val ctx7.M
    decide +kernel

theorem twoHeld_inv : twoHeld.Inv := by
  have hs : ∀ c, (twoHeld.caller c).seq = .idle ∧ (twoHeld.caller c).ret = ⟨.ok, .none⟩ := by
    refine caller_forall twoHeld (fun x => x.seq = .idle ∧ x.ret = ⟨.ok, .none⟩) ?_ ⟨rfl, rfl⟩
    intro x hx
    rcases List.mem_pair.1 (show x ∈ [_, _] from hx) with rfl | rfl <;> exact ⟨rfl, rfl⟩
  refine ⟨by rfl, by rfl, by decide, (by intro c h; cases h; decide), by rfl, by rfl, by rfl, by rfl,
    by rfl, ?_, by decide, ?_, ?_, (by intro f h; cases h), (by intro f h; cases h),
    List.Perm.refl _⟩
  · intro h hv
    have h0 : ∀ g, (twoHeld.slot g).valid = false := by decide
    rw [h0 h] at hv; cases hv
  · intro c r h; rw [(hs c).1] at h; cases h
  · intro c h; rw [(hs c).2] at h; exact absurd rfl h

/-- The sequencer clause of the statement, and an ordinary step. -/
theorem witness_StepRunsDecodedCommand_running :
    (twoCallers 0).nextCaller = some 0 ∧ ((twoCallers 0).caller 0).seq = .run lastRun ∧
    (twoCallers 1).nextCaller = some 1 := by decide

theorem witness_AnyEnabledStepMayBeNext :
    (twoCallers 0).enabled 0 = true ∧ (twoCallers 0).enabled 1 = true := by decide

/-- Both ends of a run: an empty stream, and a caller waiting for its own lock. -/
theorem witness_RunEndsWhenNoStepIsEnabled :
    (∀ c, (start [[]]).enabled c = false) ∧ (start [[]]).finished = true ∧
    (heldBy 0 (one 0x10#32 (ops [] []))).nextCaller = none := by
  refine ⟨?_, by decide, by decide⟩
  intro c
  cases c with
  | zero => decide
  | succ c => simp [State.enabled, start, State.loadStreams, State.resetWith]

/-- A two-caller state with caller 1 faulted: caller 0 steps. -/
theorem witness_MarksStayAndStopTheCaller :
    (∃ t, step { twoCallers 0 with faults := [⟨.contextBusy, 1, 0⟩] } = .next t) ∧
    (⟨.contextBusy, 1, 0⟩ : FaultRecord) ∈ [(⟨.contextBusy, 1, 0⟩ : FaultRecord)] :=
  ⟨exists_next (by decide +kernel), by decide⟩

/-- A step of each caller, one of them the end of a command. -/
theorem witness_StepTouchesOneCaller :
    (∃ t, step (twoCallers 0) = .next t) ∧ ∃ t, step (twoCallers 1) = .next t :=
  ⟨exists_next (by decide +kernel), exists_next (by decide +kernel)⟩

theorem witness_CommandPointerCountsReturns :
    (∃ t, step (twoCallers 1) = .next t) ∧ ∃ t, step (on7 0x21#32 (ops [3#32] [5#32])) = .next t :=
  ⟨exists_next (by decide +kernel), exists_next (by decide +kernel)⟩

theorem witness_MprimeIsTheUniqueConstant :
    (7#32).toNat % 2 = 1 ∧ 7 % 2 ^ 32 = (7#32).toNat ∧
    (7#32).toNat * (0x49249249#32).toNat % 2 ^ 32 = 2 ^ 32 - 1 ∧
    2 * 0 ≤ 32 ∧ (7#32).toNat * (0#32).toNat % 2 ^ 0 = 1 % 2 ^ 0 ∧
    2 * 16 ≤ 32 ∧ (7#32).toNat * (0xB6DB6DB7#32).toNat % 2 ^ 16 = 1 % 2 ^ 16 := by decide

theorem witness_RinvIsTheSquaredRadix :
    7 % 2 = 1 ∧ 7 < 2 ^ (32 * 1) ∧ 1 ≤ 16 ∧ 1 % 2 = 1 ∧ 1 < 2 ^ (32 * 1) ∧ 1 ≤ 1 := by decide

theorem witness_CapRoundsUpToTheGranularity : 1 ≤ 16 ∧ 1 ≤ 1 := by decide

theorem witness_OnePassDividesByTheRadix :
    7 % 2 = 1 ∧ 2 < 7 ∧ 2 * 2 ^ (32 * 16) % 7 = 3 * 5 % 7 := by decide +kernel

/-- Each clause: an even modulus, a wrong constant, an operand equal to the modulus under `draw`, `D` alone
too large in two passes, and the exact value. -/
theorem witness_UnitValue :
    wc [8#32] ≤ 16 ∧ val [8#32] % 2 = 0 ∧
    val [7#32] * (0x12345678#32).toNat % 2 ^ 32 ≠ 2 ^ 32 - 1 ∧
    (val [7#32] % 2 = 1 ∧ val [7#32] * (0x49249249#32).toNat % 2 ^ 32 = 2 ^ 32 - 1) ∧
    val [7#32] ≤ val [7#32] ∧ ¬ val [7#32] ≤ val [6#32] := by decide

theorem witness_HwCapacityReturnsTheCapacity :
    (one 0x04#32 (ops [] [] (S := 65))).cur < (one 0x04#32 (ops [] [] (S := 65))).callers.length := by
  decide

/-- Each clause of CTX_BUILD: slot in use; shape; no words; an even word; success; allocation failure. -/
theorem witness_CtxBuildWritesTheContext :
    (one 0x01#32 (ops [7#32] [] (S := 1))).cur < (one 0x01#32 (ops [7#32] [] (S := 1))).callers.length ∧
    1 ≤ (one 0x01#32 (ops [7#32] [] (S := 1))).cfg.blockWords ∧
    ((on7 0x01#32 (ops [7#32] [] (S := 1))).slot 0).valid = true ∧
    ((one 0x01#32 (ops [7#32] [] (S := 2))).slot 0).valid = false ∧
    wc (one 0x01#32 (ops [7#32] [] (S := 2))).op.A ≠ (one 0x01#32 (ops [7#32] [] (S := 2))).op.S ∧
    (one 0x01#32 (ops [] [])).op.S = 0 ∧
    ((one 0x01#32 (ops [6#32] [] (S := 1))).op.A.headD 0#32).toNat % 2 = 0 ∧
    (one 0x01#32 (ops [7#32] [] (S := 1))).draws.allocOkValue = true ∧
    Draws.allocOkValue { (one 0x01#32 (ops [7#32] [] (S := 1))).draws with allocOk := [false] } =
      false := by
  decide

theorem witness_CtxReadReturnsTheField :
    (on7 0x02#32 (ops [] [])).cur < (on7 0x02#32 (ops [] [])).callers.length ∧
    (0#3).toNat < 5 ∧ (4#3).toNat < 5 ∧ ((on7 0x02#32 (ops [] [])).slot 0).valid = true ∧
    ((on7 0x02#32 (ops [] [])).slot 15).valid = false := by decide

/-- Each clause of CTX_DESTROY: an invalid slot, a borrowed one, a free one. -/
theorem witness_CtxDestroyClearsValid :
    (on7 0x03#32 (ops [] [])).cur < (on7 0x03#32 (ops [] [])).callers.length ∧
    ((on7 0x03#32 (ops [] [])).slot 15).valid = false ∧
    0 < (((on7 0x03#32 (ops [] [])).takeBorrow 0).slot 0).borrows ∧
    ((on7 0x03#32 (ops [] [])).slot 0).valid = true ∧
    ((on7 0x03#32 (ops [] [])).slot 0).borrows = 0 := by decide

theorem witness_ContextBuildIsDeterministic :
    Returned (one 0x01#32 (ops [7#32] [] (S := 1)))
      (after (exec (.ctxBuild 0) (one 0x01#32 (ops [7#32] [] (S := 1))))) .ok .none ∧
    exec (.ctxBuild 0) (one 0x01#32 (ops [7#32] [] (S := 1))) =
      .next (after (exec (.ctxBuild 0) (one 0x01#32 (ops [7#32] [] (S := 1))))) ∧
    Returned (one 0x0F01#32 (ops [7#32] [] (S := 1)))
      (after (exec (.ctxBuild 15) (one 0x0F01#32 (ops [7#32] [] (S := 1))))) .ok .none ∧
    exec (.ctxBuild 15) (one 0x0F01#32 (ops [7#32] [] (S := 1))) =
      .next (after (exec (.ctxBuild 15) (one 0x0F01#32 (ops [7#32] [] (S := 1))))) := by
  refine ⟨⟨rfl, rfl, rfl, rfl, ?_, rfl⟩, rfl, ⟨rfl, rfl, rfl, rfl, ?_, rfl⟩, rfl⟩ <;>
  · intro c hc
    cases c with
    | zero => exact absurd rfl hc
    | succ c => rfl

/-- While caller 1 holds the lock, caller 0 stands at a CTX_READ. -/
theorem witness_ContextCommandsIgnoreTheLock :
    (heldBy 1 (on7 0x02#32 (ops [] []))).stopped 0 = false ∧
    0 < (heldBy 1 (on7 0x02#32 (ops [] []))).callers.length ∧
    (heldBy 1 (on7 0x02#32 (ops [] []))).nextOf 0 = some (.ok (.ctxRead 0 0#3)) := by decide

/-- Both outcomes: a step that keeps a valid context, and a CTX_DESTROY of it. -/
theorem witness_ValidContextsAreImmutable :
    ((twoCallers 1).slot 0).valid = true ∧ (∃ t, step (twoCallers 1) = .next t) ∧
    ((on7 0x03#32 (ops [] [])).slot 0).valid = true ∧
    ∃ t, step (on7 0x03#32 (ops [] [])) = .next t :=
  ⟨by decide, exists_next (by decide +kernel), by decide, exists_next (by decide +kernel)⟩

theorem witness_AcquireTakesTheMultiplier :
    (one 0x10#32 (ops [] [])).cur < (one 0x10#32 (ops [] [])).callers.length ∧
    (one 0x10#32 (ops [] [])).holder = none ∧ 1 < twoHeld.callers.length ∧
    twoHeld.stopped 1 = false ∧ twoHeld.nextOf 1 = some (.ok .acquire) := by decide

theorem witness_ReleaseGivesTheMultiplierBack :
    twoHeld.cur < twoHeld.callers.length ∧ twoHeld.holder = some twoHeld.cur ∧
    (one 0x11#32 (ops [] [])).holder ≠ some (one 0x11#32 (ops [] [])).cur := by decide

/-- The hypothesis, and the conditions of the deepest clause at `S = HW_MAX_WORDS`. -/
theorem witness_HwModmulMultipliesInTwoPasses :
    let s := heldBy 0 (one 0x12#32 (ops [3#32] [5#32] [7#32] [2#32] 0x49249249#32 128))
    s.cur < s.callers.length ∧ s.holder = some s.cur ∧
    ¬ s.op.S < max (max (wc s.op.A) (wc s.op.B)) (max (wc s.op.C) (wc s.op.D)) ∧
    ¬ (s.op.S = 0 ∨ s.cfg.hwMaxWords < s.op.S) ∧ s.draws.szOkValue = true ∧
    val s.op.C % 2 = 1 ∧ val s.op.C * s.op.P.toNat % 2 ^ 32 = 2 ^ 32 - 1 ∧
    s.cfg.unreduced = .exact := by decide

theorem witness_HwMontmulMultipliesInOnePass :
    let s := heldBy 0 (one 0x13#32 (ops [3#32] [5#32] [7#32] [] 0x49249249#32 1))
    s.cur < s.callers.length ∧ s.holder = some s.cur ∧
    ¬ s.op.S < max (max (wc s.op.A) (wc s.op.B)) (wc s.op.C) ∧
    ¬ (s.op.S = 0 ∨ s.cfg.hwMaxWords < s.op.S) ∧ s.draws.szOkValue = true ∧
    val s.op.C % 2 = 1 ∧ val s.op.C * s.op.P.toNat % 2 ^ 32 = 2 ^ 32 - 1 ∧
    s.cfg.unreduced = .exact := by decide

/-- Each clause of MULT: an invalid slot; an operand one word too wide; a free lock with operands of the
full width; a held one. -/
theorem witness_MultAcquiresMultipliesReleases :
    let s := on7 0x20#32 (ops (bufOf 16 3) [5#32])
    let w := on7 0x20#32 (ops (bufOf 17 3) [5#32])
    let u := heldBy 1 s
    s.cur < s.callers.length ∧ (s.slot 15).valid = false ∧ (s.slot 0).valid = true ∧
    (w.slot 0).hw < max (wc w.op.A) (wc w.op.B) ∧
    max (wc s.op.A) (wc s.op.B) ≤ (s.slot 0).hw ∧ s.holder = none ∧ 1 ≤ (s.slot 0).hw ∧
    0 < u.callers.length ∧ u.stopped 0 = false ∧ u.nextOf 0 = some (.ok (.mult 0)) := by decide

/-- Under `exact` with an operand above the modulus, and under `draw` with operands one below it. -/
theorem witness_MultReturnsTheProduct :
    let s := on7 0x20#32 (ops [9#32] [10#32])
    let d := { on7 0x20#32 (ops [6#32] [6#32]) with
      cfg := { Config.default with unreduced := .draw } }
    ContextOk s.cfg (s.slot 0) ∧ ContextOk d.cfg (d.slot 0) ∧
    s.cur < s.callers.length ∧ (s.slot 0).valid = true ∧ wc s.op.A ≤ (s.slot 0).hw ∧
    wc s.op.B ≤ (s.slot 0).hw ∧ s.holder = none ∧ (s.slot 0).hw ≤ s.cfg.hwMaxWords ∧
    s.draws.szOkValue = true ∧ s.cfg.unreduced = .exact ∧
    d.cur < d.callers.length ∧ (d.slot 0).valid = true ∧ wc d.op.A ≤ (d.slot 0).hw ∧
    wc d.op.B ≤ (d.slot 0).hw ∧ d.holder = none ∧ (d.slot 0).hw ≤ d.cfg.hwMaxWords ∧
    d.draws.szOkValue = true ∧ val d.op.A < val (d.slot 0).M ∧ val d.op.B < val (d.slot 0).M :=
  ⟨ctx7_ok _ rfl 0, ctx7_ok _ rfl 0, by decide⟩

theorem witness_MultRefinesThePrimitiveSequence :
    let s := on7 0x20#32 (ops [3#32] [5#32])
    let cmd : Command := ⟨0x12#32, ops [3#32] [5#32] [7#32] (bufOf 16 2) 0x49249249#32 16⟩
    let u := (start [[⟨0x10#32, ops [] []⟩, cmd, ⟨0x11#32, ops [] []⟩]]).setSlot 0 ctx7
    ContextOk s.cfg (s.slot 0) ∧
    s.cur < s.callers.length ∧ (s.slot 0).valid = true ∧ wc s.op.A ≤ (s.slot 0).hw ∧
    wc s.op.B ≤ (s.slot 0).hw ∧ s.holder = none ∧ u.cfg = s.cfg ∧ u.cur = s.cur ∧
    u.callers.length = s.callers.length ∧ u.holder = s.holder ∧ u.acqCount = s.acqCount ∧
    u.relCount = s.relCount ∧ u.evt = s.evt ∧ u.draws = s.draws ∧
    (u.caller u.cur).stream[(u.caller u.cur).cp + 1]? = some cmd ∧
    cmd.op.A = s.op.A ∧ cmd.op.B = s.op.B ∧ cmd.op.C = (s.slot 0).M ∧
    cmd.op.D = (s.slot 0).Rinv ∧ cmd.op.P = (s.slot 0).mprime ∧ cmd.op.S = (s.slot 0).hw :=
  ⟨ctx7_ok _ rfl 0, by decide⟩

/-- Each clause: a holder at its own ACQUIRE while caller 1 steps; a holder whose EXP runs; a holder at a
MULT that passes its checks. -/
theorem witness_HolderCannotAcquireAgain :
    (let s := heldBy 0 (start [[⟨0x10#32, ops [] []⟩], [⟨0x04#32, ops [] []⟩]] [1])
     s.holder = some 0 ∧ s.nextOf 0 = some (.ok .acquire) ∧ ∃ t, step s = .next t) ∧
    (let s := heldBy 0 (twoCallers 1)
     s.holder = some 0 ∧ (∃ r, (s.caller 0).seq = .run r) ∧ ∃ t, step s = .next t) ∧
    (let s := heldBy 0 (on7 0x20#32 (ops [3#32] [5#32]))
     s.holder = some 0 ∧ s.nextOf 0 = some (.ok (.mult 0)) ∧ (s.slot 0).valid = true ∧
       multShape 0 (s.onBehalf 0) = false) :=
  ⟨⟨by decide, by decide, exists_next (by decide +kernel)⟩,
    ⟨by decide, ⟨lastRun, by decide⟩, exists_next (by decide +kernel)⟩, by decide⟩

theorem witness_ReleaseLetsHeldCallersGo :
    twoHeld.Inv ∧ twoHeld.holder = some twoHeld.cur ∧ 1 ≠ twoHeld.cur ∧
    1 < twoHeld.callers.length ∧ twoHeld.heldFor 1 :=
  ⟨twoHeld_inv, by decide, by decide, by decide, by decide, .acquire, by decide, by decide⟩

/-- Each clause: an invalid slot, a wide base, a zero exponent with either draw, a non-zero exponent. -/
theorem witness_ExpStartLoadsTheSequencer :
    let s := on7 0x21#32 (ops (bufOf 16 3) [1#32])
    let w := on7 0x21#32 (ops (bufOf 17 3) [1#32])
    let z := on7 0x21#32 (ops [3#32] [0#32])
    s.cur < s.callers.length ∧ (s.caller s.cur).seq = .idle ∧ (s.slot 15).valid = false ∧
    (s.slot 0).valid = true ∧ (w.slot 0).hw < wc w.op.A ∧ ¬ (s.slot 0).hw < wc s.op.A ∧
    val z.op.B = 0 ∧ z.draws.szOkValue = true ∧ (badSizing 0 z).draws.szOkValue = false ∧
    val s.op.B = 1 := by decide

/-- The registers as a run has them at CONVX and INITZ (none written), and at the entries after them. -/
theorem witness_PlanOfAnExponent :
    1 ≠ 0 ∧ 6 ≠ 0 ∧ PlanEntry.mulx 2 ∈ plan 6 ∧ PlanEntry.sqr 0 ∈ plan 6 ∧
    (freshRun 0 true (on7 0x21#32 (ops [3#32] [5#32]))).Z = none ∧
    (freshRun 0 true (on7 0x21#32 (ops [3#32] [5#32]))).Xm = none ∧
    lastRun.Z = some (bufOf 16 5) ∧ lastRun.Xm = some (bufOf 16 5) := by decide

/-- Each clause: the last entry, an entry with more to come, a sizing that fails, a held lock. -/
theorem witness_ExpStepRunsOneEntry :
    let s := (twoCallers 0).onBehalf 0
    let m := after (exec (.exp 0 true) (on7 0x1021#32 (ops [3#32] [5#32])))
    (s.cur < s.callers.length ∧ (s.caller s.cur).seq = .run lastRun ∧
      lastRun.plan = .convout :: [] ∧
      entryOperands lastRun (s.slot 0) .convout = some (bufOf 16 5, bufOf 16 1) ∧
      s.holder = none ∧ 1 ≤ (s.slot 0).hw ∧ (badSizing 0 s).draws.szOkValue = false ∧
      (heldBy 1 s).stopped 0 = false ∧ ((heldBy 1 s).caller 0).seq = .run lastRun) ∧
    (m.cur < m.callers.length ∧
      (m.caller m.cur).seq =
        .run (freshRun 0 true (on7 0x1021#32 (ops [3#32] [5#32]))) ∧ m.holder = none) := by
  decide

/-- R157's last example has an exponent: the top bit and the 1023 lowest bits of 2048. -/
theorem witness_PlanLengthIsTheStepCount_2048 :
    2 ^ 2047 ≤ 2 ^ 2047 + (2 ^ 1023 - 1) ∧ 2 ^ 2047 + (2 ^ 1023 - 1) < 2 ^ 2048 ∧
    popcount (2 ^ 2047 + (2 ^ 1023 - 1)) = 1024 := by decide +kernel

/-- A zero and a non-zero exponent, the base of the context's full width. -/
theorem witness_PlanLengthIsTheStepCount :
    let s := on7 0x21#32 (ops (bufOf 16 3) [0#32])
    let u := on7 0x21#32 (ops (bufOf 16 3) [1#32])
    s.cur < s.callers.length ∧ (s.caller s.cur).seq = .idle ∧ (s.slot 0).valid = true ∧
    wc s.op.A ≤ (s.slot 0).hw ∧ val s.op.B = 0 ∧
    u.cur < u.callers.length ∧ (u.caller u.cur).seq = .idle ∧ (u.slot 0).valid = true ∧
    wc u.op.A ≤ (u.slot 0).hw ∧ val u.op.B ≠ 0 := by decide

/-- The hypotheses the statements about a whole EXP share. -/
theorem exp_hypotheses :
    let s := on7 0x21#32 (ops [3#32] [5#32])
    s.cur < s.callers.length ∧ (s.caller s.cur).seq = .idle ∧ (s.slot 0).valid = true ∧
    wc s.op.A ≤ (s.slot 0).hw ∧ val s.op.B ≠ 0 ∧ (s.slot 0).hw ≤ s.cfg.hwMaxWords ∧
    s.holder = none ∧ s.cfg.expPasses = .one ∧ s.cfg.unreduced = .exact ∧
    s.draws.szOk = List.replicate (expSteps (val s.op.B)) true ++ List.replicate 9 true := by decide

theorem witness_ExpReturnsThePower :
    let s := on7 0x21#32 (ops [3#32] [5#32])
    let d := { on7 0x21#32 (ops [6#32] [1#32]) with
      cfg := { Config.default with unreduced := .draw } }
    ContextOk s.cfg (s.slot 0) ∧ ContextOk d.cfg (d.slot 0) ∧
    d.cur < d.callers.length ∧ (d.caller d.cur).seq = .idle ∧ (d.slot 0).valid = true ∧
    wc d.op.A ≤ (d.slot 0).hw ∧ val d.op.B ≠ 0 ∧ (d.slot 0).hw ≤ d.cfg.hwMaxWords ∧
    d.holder = none ∧ d.cfg.expPasses = .one ∧ val d.op.A < val (d.slot 0).M ∧
    1 < val (d.slot 0).M ∧
    d.draws.szOk = List.replicate (expSteps (val d.op.B)) true ++ List.replicate 12 true :=
  ⟨ctx7_ok _ rfl 0, ctx7_ok _ rfl 0, by decide⟩

/-- With `exp_hypotheses`, all the hypotheses. -/
theorem witness_ExpEmitsOneLivenessEventPerBit :
    let s := on7 0x21#32 (ops [3#32] [5#32])
    ContextOk s.cfg (s.slot 0) := ctx7_ok _ rfl 0

/-- The first step fails, and the last one does. -/
theorem witness_ExpFailsAtTheFirstBadSizing :
    let s := badSizing 0 (on7 0x21#32 (ops [3#32] [5#32]))
    let u := badSizing 6 (on7 0x21#32 (ops [3#32] [5#32]))
    ContextOk s.cfg (s.slot 0) ∧ ContextOk u.cfg (u.slot 0) ∧
    s.cur < s.callers.length ∧ (s.caller s.cur).seq = .idle ∧ (s.slot 0).valid = true ∧
    wc s.op.A ≤ (s.slot 0).hw ∧ (s.slot 0).hw ≤ s.cfg.hwMaxWords ∧ s.holder = none ∧
    0 < expSteps (val s.op.B) ∧ s.draws.szOk = List.replicate 0 true ++ false :: [] ∧
    u.cur < u.callers.length ∧ (u.caller u.cur).seq = .idle ∧ (u.slot 0).valid = true ∧
    wc u.op.A ≤ (u.slot 0).hw ∧ (u.slot 0).hw ≤ u.cfg.hwMaxWords ∧ u.holder = none ∧
    6 < expSteps (val u.op.B) ∧ val u.op.B ≠ 0 ∧
    u.draws.szOk = List.replicate 6 true ++ false :: [] :=
  ⟨ctx7_ok _ rfl 0, ctx7_ok _ rfl 0, by decide⟩

theorem witness_ExponentOneRunsNoSquare :
    let s := on7 0x21#32 (ops [3#32] [1#32])
    ContextOk s.cfg (s.slot 0) ∧
    s.cur < s.callers.length ∧ (s.caller s.cur).seq = .idle ∧ (s.slot 0).valid = true ∧
    wc s.op.A ≤ (s.slot 0).hw ∧ val s.op.B = 1 ∧ (s.slot 0).hw ≤ s.cfg.hwMaxWords ∧
    s.holder = none ∧ s.cfg.expPasses = .one ∧ s.cfg.unreduced = .exact ∧
    s.draws.szOk = [true, true, true, true] ++ List.replicate 12 true :=
  ⟨ctx7_ok _ rfl 0, by decide⟩

theorem witness_TwoPassExpReturnsTheScaledPower :
    let s := { on7 0x21#32 (ops [3#32] [5#32]) with
      cfg := { Config.default with expPasses := .two } }
    ContextOk s.cfg (s.slot 0) ∧
    s.cur < s.callers.length ∧ (s.caller s.cur).seq = .idle ∧ (s.slot 0).valid = true ∧
    wc s.op.A ≤ (s.slot 0).hw ∧ val s.op.B ≠ 0 ∧ (s.slot 0).hw ≤ s.cfg.hwMaxWords ∧
    s.holder = none ∧ s.cfg.expPasses = .two ∧ s.cfg.unreduced = .exact ∧
    s.draws.szOk = List.replicate (expSteps (val s.op.B)) true ++ List.replicate 9 true :=
  ⟨ctx7_ok _ rfl 0, by decide⟩

/-- A running EXP, and its last entry: the sequencer goes idle in this step. -/
theorem witness_StepKeepsTheSequencerValues :
    (twoCallers 0).Inv ∧ (twoCallers 0).SeqValues ∧ (twoCallers 0).cfg.expPasses = .one ∧
    (twoCallers 0).cfg.unreduced = .exact ∧ ((twoCallers 0).caller 0).seq = .run lastRun ∧
    ∃ t, step (twoCallers 0) = .next t ∧ (t.caller 0).seq = .idle := by
  refine ⟨twoCallers_inv 0, twoCallers_values 0, by decide, by decide, by decide,
    after (step (twoCallers 0)), ?_, by decide +kernel⟩
  obtain ⟨t, ht⟩ := exists_next (o := step (twoCallers 0)) (by decide +kernel)
  rw [ht]; rfl

theorem witness_OthersCannotDisturbAnExponentiation :
    (twoCallers 1).Inv ∧ ((twoCallers 1).caller 0).seq = .run lastRun ∧
    ∃ t, step (twoCallers 1) = .next t ∧ t.cur ≠ 0 := by
  refine ⟨twoCallers_inv 1, by decide, after (step (twoCallers 1)), ?_, by decide +kernel⟩
  obtain ⟨t, ht⟩ := exists_next (o := step (twoCallers 1)) (by decide +kernel)
  rw [ht]; rfl

/-- A cause of each fault kind. -/
theorem witness_FaultsRecordAndStop :
    let s := on7 0x03#32 (ops [] [])
    (s.slot 15).valid = false ∧ (4#3).toNat < 5 ∧ (s.caller s.cur).seq = .idle ∧
    (s.slot 0).valid = true ∧ 0 < ((s.takeBorrow 0).slot 0).borrows ∧
    ((s.takeBorrow 0).slot 0).valid = true ∧ s.holder ≠ some s.cur ∧
    (heldBy 1 s).holder ≠ some (heldBy 1 s).cur := by decide

/-- A cause of each refusal kind; a wide operand of each command. -/
theorem witness_RefusalsRecordAndStop :
    (let s := one 0x0000A002#32 (ops [] [])
     s.nextCaller = some 0 ∧ (s.caller 0).seq = .idle ∧
       (s.caller 0).stream[(s.caller 0).cp]? = some ⟨0x0000A002#32, ops [] []⟩ ∧
       decode 0x0000A002#32 = .error .reservedField ∧ decode 0#32 = .error .illegalCommand) ∧
    (let s := one 0x01#32 (ops [5#32] [] (S := 2))
     (s.slot 0).valid = false ∧ wc s.op.A ≠ s.op.S) ∧
    (let s := heldBy 0 (one 0x12#32 (ops [] [] [] [1#32]))
     s.holder = some s.cur ∧ s.op.S < wc s.op.D) ∧
    (let s := heldBy 0 (one 0x13#32 (ops [] [] [1#32]))
     s.holder = some s.cur ∧ s.op.S < wc s.op.C) ∧
    (let s := on7 0x20#32 (ops [] (bufOf 17 0))
     (s.slot 0).valid = true ∧ (s.slot 0).hw < wc s.op.B) ∧
    (let s := on7 0x21#32 (ops (bufOf 17 0) [])
     (s.slot 0).valid = true ∧ (s.caller s.cur).seq = .idle ∧ (s.slot 0).hw < wc s.op.A) := by
  decide

theorem witness_InvariantHoldsAtReset : Config.default.ok = true := by decide

theorem witness_StepKeepsTheInvariant :
    (twoCallers 0).Inv ∧ ∃ t, step (twoCallers 0) = .next t :=
  ⟨twoCallers_inv 0, exists_next (by decide +kernel)⟩

theorem witness_MultipliesLieInsideAHold :
    (twoCallers 0).Inv ∧
    (twoCallers 0).evt = [.acq 1] ++ .hwop 1 .montmul 3 5 7 2 :: [.rel 1] :=
  ⟨twoCallers_inv 0, rfl⟩

theorem witness_PlacedWordRunsNext :
    (Instr.acquire).wf = true ∧ 0 < State.reset.callers.length ∧
    waits .acquire ((State.reset.withFetchWord 32 (encode .acquire).toNat).onBehalf 0) = false := by
  decide

/-! The scheduler (R213, R243): the caller the draw names is next, unless one is due. -/

theorem test_due_caller_is_next :
    (twoCallers 0).nextCaller = some 0 ∧
    ((twoCallers 0).setTurns [⟨0, 9⟩, ⟨1, 0⟩]).nextCaller = some 1 := by decide

/-- A caller passed over loses patience, and the scheduled one goes to the end of the queue. -/
theorem test_scheduled_moves_the_queue :
    ((twoCallers 0).scheduled 0).turns = [⟨1, 8⟩, ⟨0, 9⟩] := by decide

theorem witness_EveryInterleavingMayHappen : CanInterleave [1, 0] (twoCallers 0) := by
  refine ⟨by decide, after (stepOf 1 ((twoCallers 0).scheduled 1)), ?_, by decide +kernel, ?_⟩
  · obtain ⟨t, ht⟩ := exists_next (o := stepOf 1 ((twoCallers 0).scheduled 1)) (by decide +kernel)
    rw [ht]; rfl
  · obtain ⟨t, ht⟩ := exists_next
      (o := stepOf 0 ((after (stepOf 1 ((twoCallers 0).scheduled 1))).scheduled 0)) (by decide +kernel)
    exact ⟨t, ht, trivial⟩

/-- Caller 1 waits for its own lock, and caller 0 for caller 1: the run has ended. -/
def bothHeld : State := heldBy 1 (start [[⟨0x10#32, ops [] []⟩], [⟨0x10#32, ops [] []⟩]])

theorem witness_HeldAtTheEndIsStuck :
    bothHeld.Inv ∧ (∀ d, bothHeld.enabled d = false) ∧ bothHeld.heldFor 0 ∧ bothHeld.heldFor 1 := by
  have hs : ∀ c, (bothHeld.caller c).seq = .idle ∧ (bothHeld.caller c).ret = ⟨.ok, .none⟩ := by
    refine caller_forall bothHeld (fun x => x.seq = .idle ∧ x.ret = ⟨.ok, .none⟩) ?_ ⟨rfl, rfl⟩
    intro x hx
    rcases List.mem_pair.1 (show x ∈ [_, _] from hx) with rfl | rfl <;> exact ⟨rfl, rfl⟩
  refine ⟨⟨by rfl, by rfl, by decide, (by intro c h; cases h; decide), by rfl, by rfl, by rfl, by rfl,
    by rfl, ?_, by decide, ?_, ?_, (by intro f h; cases h), (by intro f h; cases h),
    List.Perm.refl _⟩, ?_, ⟨by decide, .acquire, by decide, by decide⟩,
    ⟨by decide, .acquire, by decide, by decide⟩⟩
  · intro h hv
    have h0 : ∀ g, (bothHeld.slot g).valid = false := by decide
    rw [h0 h] at hv; cases hv
  · intro c r h; rw [(hs c).1] at h; cases h
  · intro c h; rw [(hs c).2] at h; exact absurd rfl h
  · have h0 : bothHeld.enabledCallers = [] := by decide
    intro d
    by_contra h
    have := (mem_enabledCallers bothHeld d).2 (by simpa using h)
    rw [h0] at this; cases this

/-! An infinite run: caller 0 releases, the held caller 1 acquires, is given a RELEASE and releases, and from
then on caller 0 is given one HW_CAPACITY after the other. -/

/-- HW_CAPACITY as a command. -/
def capCmd : Command := ⟨0x04#32, ops [] []⟩

/-- One step, and then further commands from outside. -/
def serve (more : List (List Command)) (s : State) : State := (after (step s)).appendStreams more

def endlessRun : Nat → State
  | 0 => twoHeld
  | 1 => serve [] twoHeld
  | 2 => serve [[], [⟨0x11#32, ops [] []⟩]] (serve [] twoHeld)
  | 3 => serve [[capCmd]] (serve [[], [⟨0x11#32, ops [] []⟩]] (serve [] twoHeld))
  | n + 4 => serve [[capCmd]] (endlessRun (n + 3))

/-- Caller 0 stands at its last command, a HW_CAPACITY; caller 1 at the end of its stream. -/
structure Tail (s : State) (x0 x1 : Caller) : Prop where
  callers : s.callers = [x0, x1]
  idle0 : x0.seq = .idle
  cmd0 : x0.stream[x0.cp]? = some capCmd
  last0 : x0.stream.length = x0.cp + 1
  idle1 : x1.seq = .idle
  end1 : x1.stream[x1.cp]? = none
  faults : s.faults = []
  refused : s.refused = []
  holder : s.holder = none

theorem Tail.next {s : State} {x0 x1 : Caller} (h : Tail s x0 x1) :
    s.enabled 0 = true ∧ s.nextCaller = some 0 ∧ goesOn (step s) = true ∧
      ∃ y, Tail (serve [[capCmd]] s) y x1 := by
  have hd : decode capCmd.word = .ok .hwCapacity := by decide
  have h0 : s.caller 0 = x0 := by simp [State.caller, h.callers]
  have h1 : s.caller 1 = x1 := by simp [State.caller, h.callers]
  have n0 : s.nextOf 0 = some (.ok .hwCapacity) := by
    simp [State.nextOf, State.fetch, h0, h.idle0, h.cmd0, hd]
  have n1 : s.nextOf 1 = none := by simp [State.nextOf, State.fetch, h1, h.idle1, h.end1]
  have e0 : s.enabled 0 = true := by
    simp [State.enabled, State.stopped, h.callers, h.faults, h.refused, n0, waits]
  have e1 : s.enabled 1 = false := by simp [State.enabled, n1]
  have hc : s.nextCaller = some 0 := by
    have : s.enabledCallers = [0] := by
      simp [State.enabledCallers, h.callers, List.range_succ, e0, e1]
    simp [State.nextCaller, this, choose]
  have hst : step s = execHwCapacity (s.scheduled 0) := by
    simp only [step, hc, stepOf]
    rw [show (s.scheduled 0).nextOf 0 = s.nextOf 0 from rfl, n0]
    rfl
  have hme : (s.scheduled 0).me = x0 := h0
  refine ⟨e0, hc, by rw [hst]; rfl,
    { x0 with
      ret := { status := .ok, value := .scalar (cap s.cfg.blockWords (s.scheduled 0).op.S) }
      cp := x0.cp + 1, seq := .idle, stream := x0.stream ++ [capCmd] },
    ⟨?_, rfl, ?_, ?_, h.idle1, h.end1, ?_, ?_, ?_⟩⟩
  · simp [serve, hst, execHwCapacity, after, h.callers, hme]
  · simp [← h.last0]
  · simp [h.last0]
  · simp [serve, hst, execHwCapacity, after, h.faults]
  · simp [serve, hst, execHwCapacity, after, h.refused]
  · simp [serve, hst, execHwCapacity, after, h.holder]

theorem endlessRun_tail (n : Nat) : ∃ x0 x1, Tail (endlessRun (n + 3)) x0 x1 := by
  induction n with
  | zero =>
    exact ⟨_, _, ⟨rfl, rfl, rfl, rfl, rfl, rfl, rfl, rfl, rfl⟩⟩
  | succ n ih =>
    obtain ⟨x0, x1, h⟩ := ih
    obtain ⟨-, -, -, y, hy⟩ := h.next
    exact ⟨y, x1, hy⟩

theorem serve_isStep (more : List (List Command)) (s : State) (h : goesOn (step s) = true) :
    ∃ t m, step s = .next t ∧ serve more s = t.appendStreams m := by
  obtain ⟨t, ht⟩ := exists_next h
  exact ⟨t, more, ht, by rw [serve, ht]; rfl⟩

theorem endlessRun_isRun : IsRun endlessRun := by
  intro n
  match n with
  | 0 => exact serve_isStep _ _ (by decide +kernel)
  | 1 => exact serve_isStep _ _ (by decide +kernel)
  | 2 => exact serve_isStep _ _ (by decide +kernel)
  | n + 3 =>
    obtain ⟨x0, x1, h⟩ := endlessRun_tail n
    exact serve_isStep _ _ h.next.2.2.1

/-- Each clause: caller 0 stays enabled from step 3 on, with the lock free; caller 1 is held at step 0, and
whoever holds the multiplier later releases it. -/
theorem witness_SchedulerIsFair :
    (endlessRun 0).Inv ∧ IsRun endlessRun ∧
    (∀ m, 3 ≤ m → (endlessRun m).enabled 0 = true ∧ (endlessRun m).holder = none) ∧
    (endlessRun 0).heldFor 1 ∧
    ∀ m d, 0 ≤ m → (endlessRun m).holder = some d → ∃ j, m ≤ j ∧ (endlessRun j).holder ≠ some d := by
  have tail : ∀ m, 3 ≤ m → (endlessRun m).enabled 0 = true ∧ (endlessRun m).holder = none := by
    intro m hm
    obtain ⟨n, rfl⟩ := Nat.exists_eq_add_of_le' hm
    obtain ⟨x0, x1, h⟩ := endlessRun_tail n
    exact ⟨h.next.1, h.holder⟩
  refine ⟨twoHeld_inv, endlessRun_isRun, tail, ⟨by decide, .acquire, by decide, by decide⟩, ?_⟩
  intro m d _ _
  refine ⟨m + 3, Nat.le_add_right m 3, ?_⟩
  rw [(tail (m + 3) (Nat.le_add_left 3 m)).2]
  exact nofun

end Sys2Proof.Tests
end

section
/-! The scheduler's own inputs: its draws and its queue. No command reads or writes them, so a step of a
caller is the same whatever they are (R213; assumption log 4). -/

namespace Sys2Proof.Machine

/-- What only the scheduler reads: the callers and the patiences its draws will name, and its queue. -/
structure Schedule where
  picks : List Nat
  patiences : List Nat
  turns : List Turn

/-- The same draws with the scheduler's answers replaced. -/
def Draws.withSchedule (d : Draws) (z : Schedule) : Draws :=
  { d with picks := z.picks, patiences := z.patiences }

/-- The same state with the scheduler's draws and queue replaced. -/
def State.withSchedule (s : State) (z : Schedule) : State :=
  (s.setDraws (s.draws.withSchedule z)).setTurns z.turns

/-- A next state, with the scheduler's draws and queue replaced in it. -/
def nextWithSchedule (z : Schedule) :
    Host.Outcome State Fault Refusal → Host.Outcome State Fault Refusal
  | .next t => .next (t.withSchedule z)
  | .fault f => .fault f
  | .refused r => .refused r

section

variable (s : State) (z : Schedule)

@[simp] theorem nextWithSchedule_next : nextWithSchedule z (.next s) = .next (s.withSchedule z) := rfl

/-! What the current command reads is the same. -/

@[simp] theorem withSchedule_cfg : (s.withSchedule z).cfg = s.cfg := rfl
@[simp] theorem withSchedule_held : (s.withSchedule z).held = s.held := rfl
@[simp] theorem withSchedule_me : (s.withSchedule z).me = s.me := rfl
@[simp] theorem withSchedule_slot (h : SlotNo) : (s.withSchedule z).slot h = s.slot h := rfl
@[simp] theorem withSchedule_nextOf (c : Nat) : (s.withSchedule z).nextOf c = s.nextOf c := rfl
@[simp] theorem withSchedule_draws : (s.withSchedule z).draws = s.draws.withSchedule z := rfl

@[simp] theorem Draws.withSchedule_szOkValue (d : Draws) :
    (d.withSchedule z).szOkValue = d.szOkValue := rfl
@[simp] theorem Draws.withSchedule_tookSzOk (d : Draws) :
    (d.withSchedule z).tookSzOk = d.tookSzOk.withSchedule z := rfl

/-! Every update of the state by a command commutes with the replacement. -/

/-- The unit's value and the draws it leaves do not depend on the scheduler's draws (R122). -/
theorem hwValue_withSchedule (cfg : Config) (d : Draws) (ps : Passes) (X Y M D : Buf) (p : Word)
    (h : Nat) :
    hwValue cfg (d.withSchedule z) ps X Y M D p h =
      ((hwValue cfg d ps X Y M D p h).1, (hwValue cfg d ps X Y M D p h).2.withSchedule z) := by
  unfold hwValue
  split <;> rfl

/-- A hardware multiply does not depend on the scheduler's draws and queue (R122, R123). -/
theorem hwMultiply_withSchedule (ps : Passes) (X Y M D : Buf) (p : Word) (h : Nat) :
    (s.withSchedule z).hwMultiply ps X Y M D p h =
      ((s.hwMultiply ps X Y M D p h).1, (s.hwMultiply ps X Y M D p h).2.withSchedule z) := by
  simp only [State.hwMultiply, withSchedule_cfg, withSchedule_draws, Draws.withSchedule_szOkValue,
    Draws.withSchedule_tookSzOk, hwValue_withSchedule]
  split
  · rfl
  · split <;> rfl

theorem retMultiply_withSchedule (v : Option Buf) :
    (s.withSchedule z).retMultiply v = (s.retMultiply v).withSchedule z := by
  cases v <;> rfl

theorem emitLive_withSchedule (r : SeqRun) (e : PlanEntry) :
    (s.withSchedule z).emitLive r e = (s.emitLive r e).withSchedule z := by
  unfold State.emitLive
  split <;> rfl

theorem expAdvance_withSchedule (r : SeqRun) :
    expAdvance (s.withSchedule z) r = (expAdvance s r).withSchedule z := by
  unfold expAdvance
  split <;> rfl

theorem releaseLock_withSchedule :
    (s.withSchedule z).releaseLock = s.releaseLock.withSchedule z := rfl

theorem acquireLock_withSchedule :
    (s.withSchedule z).acquireLock = s.acquireLock.withSchedule z := rfl

theorem expEntry_withSchedule (r : SeqRun) (e : PlanEntry) (rest : List PlanEntry) (a b : Buf) :
    expEntry (s.withSchedule z) r e rest a b = (expEntry s r e rest a b).withSchedule z := by
  simp only [expEntry, acquireLock_withSchedule, hwMultiply_withSchedule, withSchedule_slot,
    withSchedule_cfg, releaseLock_withSchedule, emitLive_withSchedule, expAdvance_withSchedule]
  split <;> rfl

theorem expStep_withSchedule (r : SeqRun) :
    expStep (s.withSchedule z) r = (expStep s r).withSchedule z := by
  simp only [expStep, withSchedule_slot, withSchedule_held, expEntry_withSchedule]
  split
  · rfl
  · split
    · rfl
    · split <;> rfl

/-- The replacement goes into the branches of a check. -/
theorem ite_withSchedule (p : Prop) [Decidable p] (t : State) :
    (if p then s else t).withSchedule z = if p then s.withSchedule z else t.withSchedule z :=
  apply_ite (State.withSchedule · z) p s t

/-- The replacement goes into the branches of a check of a command. -/
theorem nextWithSchedule_ite (p : Prop) [Decidable p] (a b : Host.Outcome State Fault Refusal) :
    nextWithSchedule z (if p then a else b) =
      if p then nextWithSchedule z a else nextWithSchedule z b :=
  apply_ite (nextWithSchedule z) p a b

theorem expStart_withSchedule (h : SlotNo) (l : Bool) :
    expStart h l (s.withSchedule z) = (expStart h l s).withSchedule z := by
  simp only [expStart, expZero, ite_withSchedule]
  rfl

/-- A command does the same whatever the scheduler's draws and queue are. -/
theorem exec_withSchedule (i : Instr) :
    exec i (s.withSchedule z) = nextWithSchedule z (exec i s) := by
  cases i with
  | ctxBuild h =>
    simp only [exec, execCtxBuild, buildContext, nextWithSchedule_ite, nextWithSchedule_next,
      ite_withSchedule]
    rfl
  | ctxRead h f =>
    simp only [exec, execCtxRead, withSchedule_slot]
    split
    · rfl
    · rw [nextWithSchedule_ite]; rfl
  | ctxDestroy h =>
    simp only [exec, execCtxDestroy, nextWithSchedule_ite]
    rfl
  | hwCapacity => rfl
  | acquire =>
    simp only [exec, execAcquire, nextWithSchedule_ite]
    rfl
  | release =>
    simp only [exec, execRelease, nextWithSchedule_ite]
    rfl
  | hwModmul =>
    simp only [exec, execHwModmul, hwMultiply_withSchedule, retMultiply_withSchedule,
      nextWithSchedule_ite]
    rfl
  | hwMontmul =>
    simp only [exec, execHwMontmul, hwMultiply_withSchedule, retMultiply_withSchedule,
      nextWithSchedule_ite]
    rfl
  | mult h =>
    simp only [exec, execMult, multBody, acquireLock_withSchedule, hwMultiply_withSchedule,
      releaseLock_withSchedule, retMultiply_withSchedule, nextWithSchedule_ite]
    rfl
  | exp h l =>
    simp only [exec, execExp, withSchedule_me, expStart_withSchedule, expStep_withSchedule]
    split <;> rfl

/-- The step of caller `c` does the same whatever the scheduler's draws and queue are. -/
theorem stepOf_withSchedule (c : Nat) :
    stepOf c (s.withSchedule z) = nextWithSchedule z (stepOf c s) := by
  simp only [stepOf, withSchedule_nextOf]
  split
  · exact exec_withSchedule s z _
  · rfl
  · rfl

/-- Which callers have an enabled step does not depend on the scheduler's draws and queue (R13). -/
@[simp] theorem enabled_withSchedule : (s.withSchedule z).enabled = s.enabled := by
  have hw : ∀ c i, waits i ((s.withSchedule z).onBehalf c) = waits i (s.onBehalf c) := by
    intro c i
    cases i <;> rfl
  funext c
  simp only [State.enabled, withSchedule_nextOf, hw]
  rfl

end

end Sys2Proof.Machine
end

section
/-! Any enabled step may be next, and so any finite interleaving (R13, R213; assumption log 4): while every
caller in the queue has patience left nobody is due, and the scheduler's draw decides. -/

namespace Sys2Proof.Machine

theorem step_eq_stepOf (s : State) (c : Nat) (h : s.nextCaller = some c) :
    step s = stepOf c (s.scheduled c) := by
  simp only [step, h]

/-- Nobody is due while every caller in the queue has patience left (R243). -/
theorem due_eq_none (s : State) (h : ∀ t ∈ s.turns, 0 < t.patience) : s.due = none := by
  rw [State.due, Option.map_eq_none_iff, List.find?_eq_none]
  intro t ht
  have : t.patience ≠ 0 := Nat.ne_of_gt (h t ht)
  simp [this]

/-- With nobody due, the scheduler chooses the caller that its draw names, if that one is enabled. -/
theorem choose_pickValue (d : Draws) (cs : List Nat) (h : d.pickValue ∈ cs) :
    choose d none cs = some d.pickValue := by
  match cs, h with
  | [c], h => rw [List.mem_singleton.1 h]; rfl
  | a :: b :: cs, h => exact congrArg some (if_pos h)

/-- With nobody due, an enabled caller that the scheduler's draw names is next (R213). -/
theorem nextCaller_withSchedule (s : State) (z : Schedule) (c : Nat) (cs : List Nat)
    (hc : s.enabled c = true) (hp : z.picks = c :: cs) (hz : ∀ t ∈ z.turns, 0 < t.patience) :
    (s.withSchedule z).nextCaller = some c := by
  have hpick : (s.withSchedule z).draws.pickValue = c := by
    simp [Draws.pickValue, Draws.withSchedule, hp]
  have hmem : (s.withSchedule z).draws.pickValue ∈ (s.withSchedule z).enabledCallers := by
    rw [hpick, mem_enabledCallers, enabled_withSchedule]
    exact hc
  rw [State.nextCaller, due_eq_none _ hz, choose_pickValue _ _ hmem, hpick]

/-- The scheduler's own inputs after caller `c` is scheduled in `s`. -/
def Schedule.after (z : Schedule) (s : State) (c : Nat) : Schedule :=
  { picks := z.picks.tail
    patiences := z.patiences.tail
    turns := turnsAfter s.enabled c (s.draws.withSchedule z).patienceValue z.turns }

theorem scheduled_withSchedule (s : State) (z : Schedule) (c : Nat) :
    (s.withSchedule z).scheduled c = (s.scheduled c).withSchedule (z.after s c) := by
  simp only [State.scheduled, enabled_withSchedule]
  rfl

/-- Scheduling a caller takes at most one of anybody's patience, and gives `c` the drawn one. -/
theorem patience_of_mem_turnsAfter (en : Nat → Bool) (c p n : Nat) (ts : List Turn)
    (hp : n ≤ p) (hts : ∀ t ∈ ts, n + 1 ≤ t.patience) :
    ∀ t ∈ turnsAfter en c p ts, n ≤ t.patience := by
  intro t ht
  rw [turnsAfter, List.mem_append, List.mem_map, List.mem_singleton] at ht
  rcases ht with ⟨u, hu, rfl⟩ | rfl
  · have hu' := hts u (List.mem_of_mem_filter hu)
    unfold Turn.passedOver
    split
    · exact Nat.le_sub_one_of_lt hu'
    · exact Nat.le_of_succ_le hu'
  · exact hp

/-- The schedule that draws the callers `cs` in order, with patience `p` for each, from the queue `ts`. -/
def Schedule.inOrder (cs : List Nat) (p : Nat) (ts : List Turn) : Schedule :=
  { picks := cs, patiences := List.replicate cs.length p, turns := ts }

theorem inOrder_after (s : State) (c p : Nat) (cs : List Nat) (ts : List Turn) :
    (Schedule.inOrder (c :: cs) p ts).after s c =
      Schedule.inOrder cs p (turnsAfter s.enabled c p ts) := rfl

/-- If every caller in the queue, and each one scheduled, has patience for as many steps as the list is
long, the draws decide all of them: the callers of the list step in its order. -/
theorem callersOf_inOrder (cs : List Nat) (s : State) (p : Nat) (ts : List Turn)
    (h : CanInterleave cs s) (hp : cs.length ≤ p) (hts : ∀ t ∈ ts, cs.length ≤ t.patience) :
    callersOf cs.length (s.withSchedule (.inOrder cs p ts)) = cs := by
  induction cs generalizing s ts with
  | nil => rfl
  | cons c cs ih =>
    obtain ⟨hc, t, ht, hcs⟩ := h
    have hnext : (s.withSchedule (.inOrder (c :: cs) p ts)).nextCaller = some c :=
      nextCaller_withSchedule s _ c cs hc rfl fun u hu => Nat.zero_lt_of_lt (hts u hu)
    have hstep : step (s.withSchedule (.inOrder (c :: cs) p ts)) =
        .next (t.withSchedule (.inOrder cs p (turnsAfter s.enabled c p ts))) := by
      rw [step_eq_stepOf _ c hnext, scheduled_withSchedule, inOrder_after, stepOf_withSchedule, ht,
        nextWithSchedule_next]
    have hrest := ih t (turnsAfter s.enabled c p ts) hcs (Nat.le_of_succ_le hp)
      (patience_of_mem_turnsAfter s.enabled c p cs.length ts (Nat.le_of_succ_le hp) hts)
    simp only [List.length_cons, callersOf, hnext, hstep, hrest]

/-- The same turn with patience `n`. -/
def Turn.withPatience (n : Nat) (t : Turn) : Turn := { t with patience := n }

theorem map_withPatience_callers (n : Nat) (ts : List Turn) :
    (ts.map (Turn.withPatience n)).map Turn.caller = ts.map Turn.caller := by
  rw [List.map_map]; rfl

theorem patience_of_mem_map_withPatience (n : Nat) (ts : List Turn) :
    ∀ t ∈ ts.map (Turn.withPatience n), n ≤ t.patience := by
  intro t ht
  obtain ⟨u, -, rfl⟩ := List.mem_map.1 ht
  exact Nat.le_refl n

/-- The schedule that makes the callers `cs` the next ones: they are drawn in order, and everybody has
patience for as many steps. -/
def State.scheduleInOrder (s : State) (cs : List Nat) : Schedule :=
  .inOrder cs cs.length (s.turns.map (Turn.withPatience cs.length))

/-- Settles O6: the draw names the caller, and everybody in the queue has patience left. -/
theorem anyEnabledStepMayBeNext : Obligations.AnyEnabledStepMayBeNext := by
  intro s c hc
  have hnext : (s.withSchedule (s.scheduleInOrder [c])).nextCaller = some c :=
    nextCaller_withSchedule s _ c [] hc rfl (patience_of_mem_map_withPatience 1 s.turns)
  exact ⟨s.draws.withSchedule (s.scheduleInOrder [c]), (s.scheduleInOrder [c]).turns,
    rfl, rfl, rfl, rfl, map_withPatience_callers 1 s.turns, step_eq_stepOf _ c hnext⟩

/-- Settles O7, by induction on the list (`callersOf_inOrder`): the draws decide every step. -/
theorem everyInterleavingMayHappen : Obligations.EveryInterleavingMayHappen := by
  intro s cs h
  have horder : callersOf cs.length (s.withSchedule (s.scheduleInOrder cs)) = cs :=
    callersOf_inOrder cs s cs.length _ h (Nat.le_refl _) (patience_of_mem_map_withPatience _ s.turns)
  exact ⟨s.draws.withSchedule (s.scheduleInOrder cs), (s.scheduleInOrder cs).turns,
    rfl, rfl, rfl, rfl, map_withPatience_callers _ s.turns, horder⟩

end Sys2Proof.Machine
end

section
/-! What a step does to the callers' records and to the ends of commands in the history (R11, R27, R37,
R213). -/

namespace Sys2Proof.Machine

/-- From `s` to `t` no caller's record, no parameter and not the current caller has changed, and no command
has ended: the history may have grown, but by no `RET`. -/
structure NoReturn (s t : State) : Prop where
  cfg : t.cfg = s.cfg
  cur : t.cur = s.cur
  callers : t.callers = s.callers
  evt : ∃ new, t.evt = s.evt ++ new ∧ ∀ c st, Event.ret c st ∉ new

theorem NoReturn.refl (s : State) : NoReturn s s := ⟨rfl, rfl, rfl, [], by simp⟩

theorem NoReturn.trans {s t u : State} (h : NoReturn s t) (h' : NoReturn t u) : NoReturn s u := by
  obtain ⟨new, hnew, hret⟩ := h.evt
  obtain ⟨new', hnew', hret'⟩ := h'.evt
  exact ⟨h'.cfg.trans h.cfg, h'.cur.trans h.cur, h'.callers.trans h.callers, new ++ new',
    by rw [hnew', hnew, List.append_assoc], by simp [hret, hret']⟩

/-- An update that leaves the history as it is. -/
theorem NoReturn.of_evt_eq {s t : State} (hcfg : t.cfg = s.cfg) (hcur : t.cur = s.cur)
    (hcallers : t.callers = s.callers) (hevt : t.evt = s.evt) : NoReturn s t :=
  ⟨hcfg, hcur, hcallers, [], by simp [hevt]⟩

theorem noReturn_acquireLock (s : State) : NoReturn s s.acquireLock :=
  ⟨rfl, rfl, rfl, [.acq s.cur], rfl, by simp⟩

theorem noReturn_releaseLock (s : State) : NoReturn s s.releaseLock :=
  ⟨rfl, rfl, rfl, [.rel s.cur], rfl, by simp⟩

theorem noReturn_returnBorrow (s : State) (h : SlotNo) : NoReturn s (s.returnBorrow h) :=
  .of_evt_eq rfl rfl rfl rfl

theorem noReturn_emitLive (s : State) (r : SeqRun) (e : PlanEntry) :
    NoReturn s (s.emitLive r e) := by
  obtain ⟨new, ht, hnew⟩ := emitLive_frame s r e
  rw [ht]
  refine ⟨rfl, rfl, rfl, new, rfl, ?_⟩
  rcases hnew with rfl | ⟨i, rfl⟩ <;> simp

theorem HwResult.noReturn {s : State} {ps : Passes} {X Y M D : Buf} {p : Word} {h : Nat}
    {v : Option Buf} {t : State} (hr : HwResult s ps X Y M D p h v t) : NoReturn s t := by
  obtain ⟨hcfg, -, -, -, -, -, hcallers, -, -, hcur, hevt⟩ := hr.frame
  rcases hevt with ⟨-, hevt⟩ | ⟨r, -, -, hevt⟩
  · exact .of_evt_eq hcfg hcur hcallers hevt
  · exact ⟨hcfg, hcur, hcallers, _, hevt, by simp⟩

/-- A multiply between the acquire and the release of one step (R128, R153). -/
theorem HwResult.noReturn_of_acquireLock {s : State} {ps : Passes} {X Y M D : Buf} {p : Word}
    {h : Nat} {v : Option Buf} {t : State} (hr : HwResult s.acquireLock ps X Y M D p h v t) :
    NoReturn s t.releaseLock :=
  ((noReturn_acquireLock s).trans hr.noReturn).trans (noReturn_releaseLock t)

/-- What a step does to its caller, once all else is done: nothing, a sequencer written, or a return. -/
inductive CallerEffect (s : State) : State → Prop where
  | stays (t : State) (h : NoReturn s t) : CallerEffect s t
  | writesSeq (t : State) (q : Seq) (h : NoReturn s t) : CallerEffect s (t.setSeq q)
  | returns (t : State) (st : Status) (v : RetValue) (h : NoReturn s t) :
      CallerEffect s (t.retCmd st v)

theorem callerEffect_retMultiply {s t : State} (v : Option Buf) (h : NoReturn s t) :
    CallerEffect s (t.retMultiply v) := by
  cases v <;> exact .returns t _ _ h

/-- Every command ends in one of the three ways. -/
theorem ExecShape.callerEffect {s : State} {i : Instr} {t : State} (h : ExecShape s i t) :
    CallerEffect s t := by
  cases h with
  | waits => exact .stays _ (.refl s)
  | fault => exact .stays _ (.of_evt_eq rfl rfl rfl rfl)
  | refusal => exact .stays _ (.of_evt_eq rfl rfl rfl rfl)
  | plain => exact .returns _ _ _ (.of_evt_eq rfl rfl rfl rfl)
  | build => exact .returns _ _ _ (.of_evt_eq rfl rfl rfl rfl)
  | destroy => exact .returns _ _ _ (.of_evt_eq rfl rfl rfl rfl)
  | acquire => exact .returns _ _ _ (noReturn_acquireLock s)
  | release => exact .returns _ _ _ (noReturn_releaseLock s)
  | primitive _ ps X Y M D p h v t hi hh hr => exact callerEffect_retMultiply v hr.noReturn
  | mult h v t hv hs hh hr => exact callerEffect_retMultiply v hr.noReturn_of_acquireLock
  | expStart h l => exact .writesSeq _ _ (.of_evt_eq rfl rfl rfl rfl)
  | expFail h l r e rest a b t hq hp ho hh hr =>
    exact .returns _ _ _ (hr.noReturn_of_acquireLock.trans (noReturn_returnBorrow _ _))
  | expEntry h l r e e' rest a b v t hq hp ho hh hr =>
    exact .writesSeq _ _ (hr.noReturn_of_acquireLock.trans (noReturn_emitLive _ r e))
  | expLast h l r e a b v t hq hp ho hh hr =>
    exact .returns _ _ _ ((hr.noReturn_of_acquireLock.trans (noReturn_emitLive _ r e)).trans
      (noReturn_returnBorrow _ _))

/-- What a step does to its caller (R13). -/
theorem step_callerEffect (s t : State) (h : step s = .next t) :
    ∃ c, c < s.callers.length ∧ CallerEffect (s.scheduled c) t := by
  obtain ⟨c, -, -, hc, -, ⟨e, -, rfl⟩ | ⟨i, -, -, -, hshape⟩⟩ := step_cases s t h
  · exact ⟨c, hc, .stays _ (.of_evt_eq rfl rfl rfl rfl)⟩
  · exact ⟨c, hc, hshape.callerEffect⟩

theorem NoReturn.caller {s t : State} (h : NoReturn s t) (c : Nat) : t.caller c = s.caller c := by
  rw [State.caller, h.callers]; rfl

theorem NoReturn.me {s t : State} (h : NoReturn s t) : t.me = s.me := by
  rw [State.me, h.cur, h.caller]; rfl

/-- No parameter, not the current caller and not the number of callers changes (R6, R213). -/
theorem CallerEffect.frame {s t : State} (h : CallerEffect s t) :
    t.cfg = s.cfg ∧ t.cur = s.cur ∧ t.callers.length = s.callers.length := by
  cases h with
  | stays t h => exact ⟨h.cfg, h.cur, by rw [h.callers]⟩
  | writesSeq t q h => exact ⟨h.cfg, h.cur, by simp [h.callers]⟩
  | returns t st v h => exact ⟨h.cfg, h.cur, by simp [h.callers]⟩

/-- No other caller's record changes (R213). -/
theorem CallerEffect.others {s t : State} (h : CallerEffect s t) (c : Nat) (hc : c ≠ s.cur) :
    t.caller c = s.caller c := by
  cases h with
  | stays t h => exact h.caller c
  | writesSeq t q h => rw [t.setSeq_caller_ne q c (h.cur ▸ hc), h.caller]
  | returns t st v h => rw [t.retCmd_caller_ne st v c (h.cur ▸ hc), h.caller]

/-- No caller's stream changes (R20, R62). -/
theorem CallerEffect.stream {s t : State} (h : CallerEffect s t) (hs : s.cur < s.callers.length)
    (c : Nat) : (t.caller c).stream = (s.caller c).stream := by
  by_cases hc : c = s.cur
  · subst hc
    cases h with
    | stays t h => rw [h.caller]
    | writesSeq t q h =>
      rw [t.setSeq_caller q s.cur (by rwa [h.cur, h.callers]), if_pos h.cur.symm, h.me]; rfl
    | returns t st v h =>
      rw [t.retCmd_caller st v s.cur (by rwa [h.cur, h.callers]), if_pos h.cur.symm, h.me]; rfl
  · rw [h.others c hc]

/-- Settles O13: the caller that steps is the only one whose record the step's effect writes. -/
theorem stepTouchesOneCaller : Obligations.StepTouchesOneCaller := by
  intro s t h
  obtain ⟨c, hc, heff⟩ := step_callerEffect s t h
  obtain ⟨hcfg, hcur, hlen⟩ := heff.frame
  exact ⟨hcur ▸ hc, hcfg, hlen, fun d hd => heff.others d (hcur ▸ hd), heff.stream hc⟩

/-- R37 for the events `new` that a step appends and caller `c`: its command pointer goes up by one and the
last event is its `RET`, the only one; or its command pointer stays and `new` has no `RET` of it. -/
def CpCounts (s t : State) (new : List Event) (c : Nat) : Prop :=
  ((t.caller c).cp = (s.caller c).cp + 1 ∧ ∃ pre st, new = pre ++ [.ret c st] ∧
      ∀ d st', Event.ret d st' ∉ pre) ∨
    ((t.caller c).cp = (s.caller c).cp ∧ ∀ st, Event.ret c st ∉ new)

/-- A command pointer goes up with a `RET` of its caller and with nothing else (R37). -/
theorem CallerEffect.cpCounts {s t : State} (h : CallerEffect s t) (hs : s.cur < s.callers.length) :
    ∃ new, t.evt = s.evt ++ new ∧ ∀ c, CpCounts s t new c := by
  cases h with
  | stays t h =>
    obtain ⟨new, hnew, hret⟩ := h.evt
    exact ⟨new, hnew, fun c => .inr ⟨by rw [h.caller], hret c⟩⟩
  | writesSeq t q h =>
    obtain ⟨new, hnew, hret⟩ := h.evt
    refine ⟨new, hnew, fun c => .inr ⟨?_, hret c⟩⟩
    rw [t.setSeq_caller q c (by rwa [h.cur, h.callers])]
    split
    · next hc => rw [hc, h.me, h.cur]; rfl
    · rw [h.caller]
  | returns t st v h =>
    obtain ⟨pre, hpre, hret⟩ := h.evt
    refine ⟨pre ++ [.ret t.cur st], by rw [t.retCmd_evt, hpre, List.append_assoc], fun c => ?_⟩
    have hcaller := t.retCmd_caller st v c (by rwa [h.cur, h.callers])
    by_cases hc : c = t.cur
    · refine .inl ⟨?_, pre, st, by rw [hc], hret⟩
      rw [hcaller, if_pos hc, hc, h.me, h.cur]; rfl
    · refine .inr ⟨?_, by simp [hret, hc]⟩
      rw [hcaller, if_neg hc, h.caller]

/-- Settles O14: at reset every record is the reset one, and a step's effect on its caller counts. -/
theorem commandPointerCountsReturns : Obligations.CommandPointerCountsReturns := by
  refine ⟨fun cfg c => ?_, fun s t h => ?_⟩
  · exact caller_forall (State.resetWith cfg) (fun x => x.cp = 0)
      (fun x hx => by rw [List.eq_of_mem_replicate hx]; rfl) rfl c
  · obtain ⟨c, hc, heff⟩ := step_callerEffect s t h
    exact heff.cpCounts hc

end Sys2Proof.Machine
end

section
/-! The fetched command (R37, R75), the one-pass product (R9, R10, R120) and the draws (R12). -/

namespace Sys2Proof.Machine

/-- `ρ_h⁻¹ mod M` undoes `ρ_h`: the one-pass product times the radix is the product of the operands. -/
theorem montMul_mul_rho (h M a b : Nat) (hM : M % 2 = 1) :
    montMul h M a b * rho h % M = a * b % M := by
  have hinv : rhoInv h M * rho h ≡ 1 [MOD M] := by
    rw [Nat.mul_comm]; exact rho_mul_rhoInv h M hM
  calc montMul h M a b * rho h % M
      = a * b * rhoInv h M * rho h % M := Nat.mod_mul_mod _ _ _
    _ = a * b * (rhoInv h M * rho h) % M := by rw [Nat.mul_assoc (a * b)]
    _ = a * b * 1 % M := hinv.mul_left (a * b)
    _ = a * b % M := by rw [Nat.mul_one]

/-- The radix can be cancelled modulo an odd `M`. -/
theorem eq_of_mul_rho_modEq (h M r r' : Nat) (hM : M % 2 = 1) (hr : r < M) (hr' : r' < M)
    (he : r * rho h ≡ r' * rho h [MOD M]) : r = r' := by
  have hcop : Nat.gcd M (rho h) = 1 := (Nat.odd_iff.2 hM).coprime_two_right.pow_right _
  exact (Nat.ModEq.cancel_right_of_coprime hcop he).eq_of_lt_of_lt hr hr'

/-- Settles O18: the product divided by the radix exists by R9's inverse, and the radix is a unit modulo an
odd modulus. -/
theorem onePassDividesByTheRadix : Obligations.OnePassDividesByTheRadix := by
  intro h M a b hM
  have hlt : montMul h M a b < M := montMul_lt h M a b (by omega)
  have hmul := montMul_mul_rho h M a b hM
  exact ⟨hlt, hmul, fun r hr he => eq_of_mul_rho_modEq h M r _ hM hr hlt (he.trans hmul.symm)⟩

theorem nextOf_run (s : State) (c : Nat) (r : SeqRun) (h : (s.caller c).seq = .run r) :
    s.nextOf c = some (.ok (.exp r.slot r.L)) := by
  simp only [State.nextOf, h]

theorem nextOf_idle (s : State) (c : Nat) (cmd : Command) (hq : (s.caller c).seq = .idle)
    (hcmd : (s.caller c).stream[(s.caller c).cp]? = some cmd) :
    s.nextOf c = some (decode cmd.word) := by
  simp only [State.nextOf, hq, State.fetch, hcmd, Option.map_some]

/-- The operand record read in a caller's step is that of the command at its command pointer (R72). -/
theorem op_scheduled (s : State) (c : Nat) (cmd : Command)
    (hcmd : (s.caller c).stream[(s.caller c).cp]? = some cmd) : (s.scheduled c).op = cmd.op := by
  simp only [State.op, State.me, State.scheduled_cur, State.scheduled_caller, hcmd]

theorem stepOf_ok (s : State) (c : Nat) (i : Instr) (h : s.nextOf c = some (.ok i)) :
    stepOf c s = exec i s := by
  simp only [stepOf, h]

theorem stepOf_error (s : State) (c : Nat) (e : DecodeError) (h : s.nextOf c = some (.error e)) :
    stepOf c s = .next (s.refuseCmd (refusalOf e)) := by
  simp only [stepOf, h]

/-- Settles O5: the step is `stepOf` of the next caller, and what that caller runs is read off its sequencer
and its stream. -/
theorem stepRunsDecodedCommand : Obligations.StepRunsDecodedCommand := by
  intro s c hc
  rw [step_eq_stepOf s c hc]
  refine ⟨fun cmd hq hcmd => ?_, fun r hr => ?_⟩
  · have hnext : (s.scheduled c).nextOf c = some (decode cmd.word) := nextOf_idle _ c cmd hq hcmd
    exact ⟨op_scheduled s c cmd hcmd,
      fun i hi => stepOf_ok _ c i (by rw [hnext, hi]),
      fun e he => stepOf_error _ c e (by rw [hnext, he])⟩
  · exact stepOf_ok _ c _ (nextOf_run _ c r hr)

/-- Settles O20: a supplied answer at the head of its list is the value drawn, and every buffer is its own
image among the buffers of its length. -/
theorem everyDrawIsAdmitted : Obligations.EveryDrawIsAdmitted :=
  ⟨fun b => ⟨{ Draws.reset with szOk := [b] }, rfl⟩,
    fun b => ⟨{ Draws.reset with allocOk := [b] }, rfl⟩,
    fun b => ⟨{ Draws.reset with bufs := [b] }, fitBuf_self b⟩,
    fun c => ⟨{ Draws.reset with picks := [c] }, rfl⟩,
    fun n => ⟨{ Draws.reset with patiences := [n] }, rfl⟩⟩

end Sys2Proof.Machine
end

section
/-! The multiplier's lock and its history (R24, R25, R26, R132): what each operation of a command does to
them, and that a command keeps the part of the invariant that speaks of them. -/

namespace Sys2Proof.Machine

/-- The part of the invariant of the block that speaks of the lock, its counters and its history. -/
structure LockInv (s : State) : Prop where
  holder_lt : ∀ c, s.holder = some c → c < s.callers.length
  enable : s.hwEn = s.holder.isSome
  counts : s.acqCount = s.relCount + (if s.holder.isSome then 1 else 0)
  acq_events : s.evt.countP Event.isAcq = s.acqCount
  rel_events : s.evt.countP Event.isRel = s.relCount
  trace : lockTrace s.evt = some s.holder

theorem State.Inv.lockInv {s : State} (h : s.Inv) : LockInv s :=
  ⟨h.holder_lt, h.enable, h.counts, h.acq_events, h.rel_events, h.trace⟩

/-- An event that may stand in the history while `holder` holds the multiplier, and changes nothing of it:
the end of a command, a liveness callback, a multiply of the holder. -/
structure Event.Quiet (holder : Option Nat) (e : Event) : Prop where
  notAcq : e.isAcq = false
  notRel : e.isRel = false
  step : lockStep (some holder) e = some holder

theorem quiet_ret (holder : Option Nat) (c : Nat) (st : Status) : (Event.ret c st).Quiet holder :=
  ⟨rfl, rfl, by cases holder <;> rfl⟩

theorem quiet_live (holder : Option Nat) (c i : Nat) : (Event.live c i).Quiet holder :=
  ⟨rfl, rfl, by cases holder <;> rfl⟩

theorem quiet_hwop (c : Nat) (k : HwKind) (a b m r : Nat) :
    (Event.hwop c k a b m r).Quiet (some c) :=
  ⟨rfl, rfl, by simp [lockStep]⟩

/-- From `s` to `t` the lock is left alone: the history may have grown, but by quiet events alone. -/
structure KeepsLock (s t : State) : Prop where
  same : SameLock s t
  number : t.callers.length = s.callers.length
  evt : ∃ new, t.evt = s.evt ++ new ∧ ∀ e ∈ new, e.Quiet s.holder

theorem KeepsLock.of_evt_eq {s t : State} (hsame : SameLock s t)
    (hnumber : t.callers.length = s.callers.length) (hevt : t.evt = s.evt) : KeepsLock s t :=
  ⟨hsame, hnumber, [], by simp [hevt]⟩

theorem keepsLock_retCmd (s : State) (st : Status) (v : RetValue) : KeepsLock s (s.retCmd st v) :=
  ⟨⟨rfl, rfl, rfl, rfl⟩, by simp, [.ret s.cur st], rfl, by simp [quiet_ret]⟩

theorem keepsLock_setSeq (s : State) (q : Seq) : KeepsLock s (s.setSeq q) :=
  .of_evt_eq ⟨rfl, rfl, rfl, rfl⟩ (by simp) rfl

theorem keepsLock_emitLive (s : State) (r : SeqRun) (e : PlanEntry) :
    KeepsLock s (s.emitLive r e) := by
  obtain ⟨new, ht, hnew⟩ := emitLive_frame s r e
  rw [ht]
  refine ⟨⟨rfl, rfl, rfl, rfl⟩, rfl, new, rfl, ?_⟩
  rcases hnew with rfl | ⟨i, rfl⟩ <;> simp [quiet_live]

/-- A multiply of the holder (R121, R132). -/
theorem HwResult.keepsLock {s : State} {ps : Passes} {X Y M D : Buf} {p : Word} {h : Nat}
    {v : Option Buf} {t : State} (hr : HwResult s ps X Y M D p h v t) (hh : s.holder = some s.cur) :
    KeepsLock s t := by
  obtain ⟨-, -, hholder, hen, hacq, hrel, hcallers, -, -, -, hevt⟩ := hr.frame
  have hsame : SameLock s t := ⟨hholder, hen, hacq, hrel⟩
  rcases hevt with ⟨-, hevt⟩ | ⟨r, -, -, hevt⟩
  · exact .of_evt_eq hsame (by rw [hcallers]) hevt
  · exact ⟨hsame, by rw [hcallers], _, hevt, by simp [hh, quiet_hwop]⟩

theorem lockTrace_concat (evt : List Event) (e : Event) :
    lockTrace (evt ++ [e]) = lockStep (lockTrace evt) e :=
  List.foldl_concat ..

/-- Quiet events leave the holder that the history ends with. -/
theorem foldl_lockStep_of_quiet (holder : Option Nat) (new : List Event)
    (h : ∀ e ∈ new, e.Quiet holder) : new.foldl lockStep (some holder) = some holder := by
  induction new with
  | nil => rfl
  | cons e new ih =>
    obtain ⟨he, hnew⟩ := List.forall_mem_cons.1 h
    rw [List.foldl_cons, he.step, ih hnew]

theorem LockInv.of_keepsLock {s t : State} (hs : LockInv s) (h : KeepsLock s t) : LockInv t := by
  obtain ⟨⟨hholder, hen, hacq, hrel⟩, hnumber, new, hevt, hquiet⟩ := h
  have hnoAcq : new.countP Event.isAcq = 0 :=
    List.countP_eq_zero.2 fun e he => by simp [(hquiet e he).notAcq]
  have hnoRel : new.countP Event.isRel = 0 :=
    List.countP_eq_zero.2 fun e he => by simp [(hquiet e he).notRel]
  have htrace : lockTrace t.evt = some s.holder := by
    rw [hevt, lockTrace, List.foldl_append]
    exact (congrArg (new.foldl lockStep) hs.trace).trans (foldl_lockStep_of_quiet _ new hquiet)
  refine ⟨?_, ?_, ?_, ?_, ?_, hholder ▸ htrace⟩
  · rw [hholder, hnumber]; exact hs.holder_lt
  · rw [hholder, hen]; exact hs.enable
  · rw [hholder, hacq, hrel]; exact hs.counts
  · rw [hevt, List.countP_append, hnoAcq, hacq]; exact hs.acq_events
  · rw [hevt, List.countP_append, hnoRel, hrel]; exact hs.rel_events

/-- The acquire of a free multiplier (R124). -/
theorem LockInv.acquireLock {s : State} (hs : LockInv s) (hc : s.cur < s.callers.length)
    (hfree : s.held = false) : LockInv s.acquireLock := by
  have hnone : s.holder = none := by simpa [State.held] using hfree
  have hcounts : s.acqCount = s.relCount := by simpa [hnone] using hs.counts
  refine ⟨?_, rfl, ?_, ?_, ?_, ?_⟩
  · intro c h
    cases h
    exact hc
  · simp [hcounts]
  · simp [hs.acq_events, Event.isAcq]
  · simp [hs.rel_events, Event.isRel]
  · rw [State.acquireLock_evt, lockTrace_concat, hs.trace, hnone]; rfl

/-- The release by the holder (R125). -/
theorem LockInv.releaseLock {s : State} (hs : LockInv s) (hh : s.holder = some s.cur) :
    LockInv s.releaseLock := by
  have hcounts : s.acqCount = s.relCount + 1 := by simpa [hh] using hs.counts
  refine ⟨?_, rfl, ?_, ?_, ?_, ?_⟩
  · intro c h
    cases h
  · simp [hcounts]
  · simp [hs.acq_events, Event.isAcq]
  · simp [hs.rel_events, Event.isRel]
  · rw [State.releaseLock_evt, lockTrace_concat, hs.trace, hh]
    simp [lockStep]

/-- A multiply between the acquire and the release of one step (R128, R153). -/
theorem LockInv.acquire_multiply_release {s : State} {ps : Passes} {X Y M D : Buf} {p : Word}
    {h : Nat} {v : Option Buf} {t : State} (hs : LockInv s) (hc : s.cur < s.callers.length)
    (hfree : s.held = false) (hr : HwResult s.acquireLock ps X Y M D p h v t) :
    LockInv t.releaseLock := by
  obtain ⟨-, -, hholder, -, -, -, -, -, -, hcur, -⟩ := hr.frame
  exact ((hs.acquireLock hc hfree).of_keepsLock (hr.keepsLock rfl)).releaseLock
    (by rw [hholder, hcur]; rfl)

theorem LockInv.retCmd {s : State} (hs : LockInv s) (st : Status) (v : RetValue) :
    LockInv (s.retCmd st v) :=
  hs.of_keepsLock (keepsLock_retCmd s st v)

theorem LockInv.retMultiply {s : State} (hs : LockInv s) (v : Option Buf) :
    LockInv (s.retMultiply v) := by
  cases v <;> exact hs.retCmd _ _

theorem LockInv.setDraws {s : State} (hs : LockInv s) (d : Draws) : LockInv (s.setDraws d) :=
  hs.of_keepsLock (.of_evt_eq ⟨rfl, rfl, rfl, rfl⟩ rfl rfl)

theorem LockInv.setSlot {s : State} (hs : LockInv s) (h : SlotNo) (k : Slot) :
    LockInv (s.setSlot h k) :=
  hs.of_keepsLock (.of_evt_eq ⟨rfl, rfl, rfl, rfl⟩ rfl rfl)

theorem LockInv.setSeq {s : State} (hs : LockInv s) (q : Seq) : LockInv (s.setSeq q) :=
  hs.of_keepsLock (keepsLock_setSeq s q)

theorem LockInv.emitLive {s : State} (hs : LockInv s) (r : SeqRun) (e : PlanEntry) :
    LockInv (s.emitLive r e) :=
  hs.of_keepsLock (keepsLock_emitLive s r e)

/-- Every command keeps the lock's part of the invariant (R25, R26, R132). -/
theorem ExecShape.lockInv {s : State} {i : Instr} {t : State} (h : ExecShape s i t)
    (hs : LockInv s) (hc : s.cur < s.callers.length) : LockInv t := by
  cases h with
  | waits => exact hs
  | fault => exact hs.of_keepsLock (.of_evt_eq ⟨rfl, rfl, rfl, rfl⟩ rfl rfl)
  | refusal => exact hs.of_keepsLock (.of_evt_eq ⟨rfl, rfl, rfl, rfl⟩ rfl rfl)
  | plain => exact (hs.setDraws _).retCmd _ _
  | build => exact ((hs.setDraws _).setSlot _ _).retCmd _ _
  | destroy => exact ((hs.setSlot _ _).setDraws _).retCmd _ _
  | acquire hfree => exact (hs.acquireLock hc hfree).retCmd _ _
  | release hh => exact (hs.releaseLock hh).retCmd _ _
  | primitive _ ps X Y M D p h v t hi hh hr =>
    exact (hs.of_keepsLock (hr.keepsLock hh)).retMultiply v
  | mult h v t hv hshape hfree hr => exact (hs.acquire_multiply_release hc hfree hr).retMultiply v
  | expStart => exact (hs.setSlot _ _).setSeq _
  | expFail h l r e rest a b t hq hp ho hfree hr =>
    exact ((hs.acquire_multiply_release hc hfree hr).setSlot _ _).retCmd _ _
  | expEntry h l r e e' rest a b v t hq hp ho hfree hr =>
    exact ((hs.acquire_multiply_release hc hfree hr).emitLive r e).setSeq _
  | expLast h l r e a b v t hq hp ho hfree hr =>
    exact (((hs.acquire_multiply_release hc hfree hr).emitLive r e).setSlot _ _).retCmd _ _

end Sys2Proof.Machine
end

section
/-! The context slots (R22, R23, R64): the constant of the modulus (R101), a built context, and what a
command can do to one slot. -/

namespace Sys2Proof.Machine

/-- One Newton iteration squares the error `1 - m0·x` (R101). -/
theorem one_sub_mul_newton (m0 x : Word) : 1 - m0 * newton m0 x = (1 - m0 * x) ^ 2 := by
  have htwo : (2#32 : Word) = 1 + 1 := rfl
  rw [newton, htwo]
  ring

/-- The start `x = m0` has an even error for odd `m0`, and an even word to the 32nd power is 0. -/
theorem one_sub_square_pow (m0 : Word) (hodd : m0.toNat % 2 = 1) :
    (1 - m0 * m0) ^ 32 = 0 := by
  obtain ⟨k, hk⟩ : ∃ k : Nat, m0.toNat = 2 * k + 1 := ⟨m0.toNat / 2, by omega⟩
  have hm0 : m0 = 2 * BitVec.ofNat 32 k + 1 := by
    calc m0 = BitVec.ofNat 32 m0.toNat := (BitVec.ofNat_toNat 32 m0).symm
      _ = 2 * BitVec.ofNat 32 k + 1 := by rw [hk, BitVec.ofNat_add, BitVec.ofNat_mul]; rfl
  have heven : 1 - m0 * m0 = 2 * (-(2 * BitVec.ofNat 32 k * (BitVec.ofNat 32 k + 1))) := by
    rw [hm0]; ring
  have hzero : (2 : Word) ^ 32 = 0 := by decide
  rw [heven, mul_pow, hzero, zero_mul]

/-- `m0 · mprime_of(m0) = -1` in a word (R101). -/
theorem mul_mprimeOf (m0 : Word) (hodd : m0.toNat % 2 = 1) : m0 * mprimeOf m0 = -1 := by
  have herr : ∀ x, m0 * newton m0 x = 1 - (1 - m0 * x) ^ 2 := fun x => by
    rw [← one_sub_mul_newton]; ring
  have hpow : (((((1 - m0 * m0) ^ 2) ^ 2) ^ 2) ^ 2) ^ 2 = 0 := by
    rw [← one_sub_square_pow m0 hodd]; ring
  rw [mprimeOf, mul_neg]
  simp only [herr, sub_sub_cancel, hpow, sub_zero]

/-- R23 of the constant: `M · mprime ≡ -1` modulo the word, for every `M` with this least word. -/
theorem mul_mprimeOf_toNat (M : Nat) (m0 : Word) (hM : M % 2 ^ 32 = m0.toNat)
    (hodd : m0.toNat % 2 = 1) : M * (mprimeOf m0).toNat % 2 ^ 32 = 2 ^ 32 - 1 := by
  have h := congrArg BitVec.toNat (mul_mprimeOf m0 hodd)
  rw [BitVec.toNat_mul, ← hM, Nat.mod_mul_mod] at h
  exact h

/-- A granule holds its words: `n ≤ cap(n)` (R100). -/
theorem le_cap (G n : Nat) (hG : 1 ≤ G) : n ≤ cap G n := by
  have h := Nat.lt_mul_div_succ (n + G - 1) hG
  rw [Nat.mul_add, Nat.mul_one] at h
  unfold cap
  omega

/-- A modulus that CTX_BUILD accepts has an odd least word. -/
theorem exists_cons_of_badModulus (A : Buf) (h : badModulus A = false) :
    ∃ m0 ws, A = m0 :: ws ∧ m0.toNat % 2 = 1 := by
  cases A with
  | nil => cases h
  | cons m0 ws => exact ⟨m0, ws, rfl, by simpa [badModulus] using h⟩

/-- The context CTX_BUILD writes satisfies R23. -/
theorem contextOk_builtSlot (cfg : Config) (A : Buf) (hcfg : 1 ≤ cfg.blockWords)
    (hA : badModulus A = false) : ContextOk cfg (builtSlot cfg A) := by
  obtain ⟨m0, ws, rfl, hodd⟩ := exists_cons_of_badModulus A hA
  have hlow : val (m0 :: ws) % 2 ^ 32 = m0.toNat := by
    rw [val_cons, Nat.add_mul_mod_self_left, Nat.mod_eq_of_lt m0.isLt]
  have hoddM : val (m0 :: ws) % 2 = 1 := by
    rw [val_cons]; omega
  have hfits : wc (m0 :: ws) ≤ cap cfg.blockWords (wc (m0 :: ws)) := le_cap _ _ hcfg
  have hrinv : rinvNat (val (m0 :: ws)) (cap cfg.blockWords (wc (m0 :: ws))) <
      2 ^ (32 * cap cfg.blockWords (wc (m0 :: ws))) :=
    (Nat.mod_lt _ (by omega)).trans (val_lt_of_wc_le _ _ hfits)
  exact {
    wc_pos := Nat.succ_pos _
    wc_M := rfl
    odd := hoddM
    hw_eq := rfl
    wc_le_hw := hfits
    wc_Rinv := wc_bufOf _ _
    val_Rinv := val_bufOf _ _ hrinv
    mprime := mul_mprimeOf_toNat _ m0 hlow hodd }

/-- R23 says nothing of `borrows`. -/
theorem ContextOk.withBorrows {cfg : Config} {k : Slot} (h : ContextOk cfg k) (n : Nat) :
    ContextOk cfg { k with borrows := n } :=
  ⟨h.wc_pos, h.wc_M, h.odd, h.hw_eq, h.wc_le_hw, h.wc_Rinv, h.val_Rinv, h.mprime⟩

/-- What command `i` can make of slot `g` (R22, R64): its fields stay, but for the borrows; CTX_BUILD of an
invalid slot; CTX_DESTROY of a slot in no use. -/
inductive SlotEffect (s : State) (i : Instr) (g : SlotNo) : Slot → Prop where
  | keeps (n : Nat) : SlotEffect s i g { s.slot g with borrows := n }
  | builds (hi : i = .ctxBuild g) (hv : (s.slot g).valid = false)
      (hA : badModulus s.op.A = false) : SlotEffect s i g (builtSlot s.cfg s.op.A)
  | destroys (hi : i = .ctxDestroy g) (n : Nat) (hb : (s.slot g).borrows = 0) :
      SlotEffect s i g (destroyedSlot n (s.slot g))

theorem SlotEffect.of_eq {s : State} {i : Instr} {g : SlotNo} {k : Slot} (h : k = s.slot g) :
    SlotEffect s i g k :=
  h ▸ .keeps (s.slot g).borrows

theorem HwResult.sameSlots {s : State} {ps : Passes} {X Y M D : Buf} {p : Word} {h : Nat}
    {v : Option Buf} {t : State} (hr : HwResult s ps X Y M D p h v t) : SameSlots s t := by
  obtain ⟨-, hctx, -⟩ := hr.frame
  intro g
  simp only [State.slot, hctx]

theorem emitLive_sameSlots (s : State) (r : SeqRun) (e : PlanEntry) :
    SameSlots s (s.emitLive r e) := by
  obtain ⟨new, ht, -⟩ := emitLive_frame s r e
  rw [ht]
  exact fun _ => rfl

theorem retMultiply_sameSlots (s : State) (v : Option Buf) : SameSlots s (s.retMultiply v) := by
  cases v <;> exact fun _ => rfl

/-- A multiply between the acquire and the release of one step, and the entry's liveness (R153). -/
theorem HwResult.sameSlots_of_entry {s : State} {ps : Passes} {X Y M D : Buf} {p : Word} {h : Nat}
    {v : Option Buf} {t : State} (hr : HwResult s.acquireLock ps X Y M D p h v t) (r : SeqRun)
    (e : PlanEntry) : SameSlots s (t.releaseLock.emitLive r e) :=
  fun g => (emitLive_sameSlots t.releaseLock r e g).trans (hr.sameSlots g)

/-- A borrow given back changes no field of a slot but its borrows. -/
theorem slotEffect_returnBorrow {s t : State} (i : Instr) (h g : SlotNo) (ht : SameSlots s t) :
    SlotEffect s i g ((t.returnBorrow h).slot g) := by
  rw [State.returnBorrow_slot, ht h, ht g]
  split
  · next e => rw [e]; exact .keeps _
  · exact .of_eq rfl

/-- What a command does to each slot. -/
theorem ExecShape.slotEffect {s : State} {i : Instr} {t : State} (h : ExecShape s i t)
    (g : SlotNo) : SlotEffect s i g (t.slot g) := by
  cases h with
  | waits => exact .of_eq rfl
  | fault => exact .of_eq rfl
  | refusal => exact .of_eq rfl
  | plain => exact .of_eq rfl
  | build h hv hA hm hd =>
    rw [State.retCmd_slot, State.setSlot_slot]
    split
    · next e => rw [← e]; rw [← e] at hv; exact .builds rfl hv hm
    · exact .of_eq rfl
  | destroy h hv hb =>
    rw [State.retCmd_slot, State.setDraws_slot, State.setSlot_slot]
    split
    · next e => rw [← e]; rw [← e] at hb; exact .destroys rfl _ hb
    · exact .of_eq rfl
  | acquire => exact .of_eq rfl
  | release => exact .of_eq rfl
  | primitive _ ps X Y M D p h v t hi hh hr =>
    exact .of_eq ((retMultiply_sameSlots t v g).trans (hr.sameSlots g))
  | mult h v t hv hshape hfree hr =>
    exact .of_eq ((retMultiply_sameSlots t.releaseLock v g).trans (hr.sameSlots g))
  | expStart h l =>
    rw [State.setSeq_slot, State.takeBorrow_slot]
    split
    · next e => rw [e]; exact .keeps _
    · exact .of_eq rfl
  | expFail h l r e rest a b t hq hp ho hfree hr =>
    exact slotEffect_returnBorrow _ _ _ hr.sameSlots
  | expEntry h l r e e' rest a b v t hq hp ho hfree hr =>
    exact .of_eq (hr.sameSlots_of_entry r e g)
  | expLast h l r e a b v t hq hp ho hfree hr =>
    exact slotEffect_returnBorrow _ _ _ (hr.sameSlots_of_entry r e)

/-- What a command does to a slot keeps R23 of it. -/
theorem SlotEffect.contextOk {s : State} {i : Instr} {g : SlotNo} {k : Slot}
    (h : SlotEffect s i g k) (hcfg : 1 ≤ s.cfg.blockWords)
    (hs : (s.slot g).valid = true → ContextOk s.cfg (s.slot g)) (hk : k.valid = true) :
    ContextOk s.cfg k := by
  cases h with
  | keeps n => exact (hs hk).withBorrows n
  | builds hi hv hA => exact contextOk_builtSlot s.cfg s.op.A hcfg hA
  | destroys => cases hk

/-- Settles O27: the step's effect on the slot, in the state where the step is taken. -/
theorem validContextsAreImmutable : Obligations.ValidContextsAreImmutable := by
  intro s t h hstep hvalid
  obtain ⟨c, -, -, hc, -, ⟨e, -, rfl⟩ | ⟨i, hnext, -, -, hshape⟩⟩ := step_cases s t hstep
  · exact .inl ⟨hvalid, rfl, rfl, rfl, rfl, rfl⟩
  · have hcur : t.cur = c := hshape.callerEffect.frame.2.1
    have heff := hshape.slotEffect h
    revert heff
    generalize t.slot h = k
    intro heff
    cases heff with
    | keeps n => exact .inl ⟨hvalid, rfl, rfl, rfl, rfl, rfl⟩
    | builds hi hv => exact absurd (hvalid.symm.trans hv) (by decide)
    | destroys hi n hb => exact .inr ⟨rfl, hb, by rw [hcur, hnext, hi]⟩

end Sys2Proof.Machine
end

section
/-! The marks (R30): a command appends at most one record, of its own caller, and leaves the scheduler's
queue alone. -/

namespace Sys2Proof.Machine

theorem SameMarks.refl (s : State) : SameMarks s s := ⟨rfl, rfl, rfl, rfl, rfl⟩

theorem SameMarks.trans {s t u : State} (h : SameMarks s t) (h' : SameMarks t u) : SameMarks s u :=
  ⟨h'.faults.trans h.faults, h'.refused.trans h.refused, h'.cfg.trans h.cfg, h'.cur.trans h.cur,
    h'.turns.trans h.turns⟩

theorem HwResult.sameMarks {s : State} {ps : Passes} {X Y M D : Buf} {p : Word} {h : Nat}
    {v : Option Buf} {t : State} (hr : HwResult s ps X Y M D p h v t) : SameMarks s t := by
  cases hr <;> exact ⟨rfl, rfl, rfl, rfl, rfl⟩

theorem retMultiply_sameMarks (s : State) (v : Option Buf) : SameMarks s (s.retMultiply v) := by
  cases v <;> exact ⟨rfl, rfl, rfl, rfl, rfl⟩

theorem emitLive_sameMarks (s : State) (r : SeqRun) (e : PlanEntry) :
    SameMarks s (s.emitLive r e) := by
  obtain ⟨new, ht, -⟩ := emitLive_frame s r e
  rw [ht]
  exact ⟨rfl, rfl, rfl, rfl, rfl⟩

/-- A multiply between the acquire and the release of one step (R128, R153). -/
theorem HwResult.sameMarks_of_acquireLock {s : State} {ps : Passes} {X Y M D : Buf} {p : Word}
    {h : Nat} {v : Option Buf} {t : State} (hr : HwResult s.acquireLock ps X Y M D p h v t) :
    SameMarks s t.releaseLock :=
  have hm := hr.sameMarks
  ⟨hm.faults, hm.refused, hm.cfg, hm.cur, hm.turns⟩

/-- What a command does to the marks: none, or it takes a fault or a refusal and
does nothing else. -/
inductive MarkEffect (s : State) : State → Prop where
  | none (t : State) (h : SameMarks s t) : MarkEffect s t
  | fault (k : FaultKind) : MarkEffect s (s.raiseFault k)
  | refusal (k : RefusalKind) : MarkEffect s (s.refuseCmd k)

theorem ExecShape.markEffect {s : State} {i : Instr} {t : State} (h : ExecShape s i t) :
    MarkEffect s t := by
  cases h with
  | waits => exact .none _ (.refl s)
  | fault i k => exact .fault k
  | refusal i k => exact .refusal k
  | plain => exact .none _ ⟨rfl, rfl, rfl, rfl, rfl⟩
  | build => exact .none _ ⟨rfl, rfl, rfl, rfl, rfl⟩
  | destroy => exact .none _ ⟨rfl, rfl, rfl, rfl, rfl⟩
  | acquire => exact .none _ ⟨rfl, rfl, rfl, rfl, rfl⟩
  | release => exact .none _ ⟨rfl, rfl, rfl, rfl, rfl⟩
  | primitive _ ps X Y M D p h v t hi hh hr =>
    exact .none _ (hr.sameMarks.trans (retMultiply_sameMarks t v))
  | mult h v t hv hshape hfree hr =>
    exact .none _ (hr.sameMarks_of_acquireLock.trans (retMultiply_sameMarks _ v))
  | expStart h l => exact .none _ ⟨rfl, rfl, rfl, rfl, rfl⟩
  | expFail h l r e rest a b t hq hp ho hfree hr =>
    exact .none _ (hr.sameMarks_of_acquireLock.trans ⟨rfl, rfl, rfl, rfl, rfl⟩)
  | expEntry h l r e e' rest a b v t hq hp ho hfree hr =>
    exact .none _ ((hr.sameMarks_of_acquireLock.trans (emitLive_sameMarks _ r e)).trans
      ⟨rfl, rfl, rfl, rfl, rfl⟩)
  | expLast h l r e a b v t hq hp ho hfree hr =>
    exact .none _ ((hr.sameMarks_of_acquireLock.trans (emitLive_sameMarks _ r e)).trans
      ⟨rfl, rfl, rfl, rfl, rfl⟩)

theorem MarkEffect.turns {s t : State} (h : MarkEffect s t) : t.turns = s.turns := by
  cases h with
  | none t h => exact h.turns
  | fault => rfl
  | refusal => rfl

/-- No record is removed (R30). -/
theorem MarkEffect.keeps_records {s t : State} (h : MarkEffect s t) :
    s.faults <+: t.faults ∧ s.refused <+: t.refused := by
  cases h with
  | none t h => rw [h.faults, h.refused]; exact ⟨⟨[], List.append_nil _⟩, ⟨[], List.append_nil _⟩⟩
  | fault k => exact ⟨⟨_, rfl⟩, ⟨[], List.append_nil _⟩⟩
  | refusal k => exact ⟨⟨[], List.append_nil _⟩, ⟨_, rfl⟩⟩

/-- A record of a fault is an old one, or that of the fault just taken (R30, R202). -/
theorem MarkEffect.mem_faults {s t : State} (h : MarkEffect s t) {f : FaultRecord}
    (hf : f ∈ t.faults) :
    f ∈ s.faults ∨ ∃ k, t = s.raiseFault k ∧ f = { kind := k, caller := s.cur, cp := s.me.cp } := by
  cases h with
  | none t h => exact .inl (h.faults ▸ hf)
  | fault k =>
    rw [State.raiseFault_faults, List.mem_append, List.mem_singleton] at hf
    exact hf.imp_right fun e => ⟨k, rfl, e⟩
  | refusal k => exact .inl hf

/-- A record of a refusal is an old one, or that of the refusal just taken (R30, R203). -/
theorem MarkEffect.mem_refused {s t : State} (h : MarkEffect s t) {f : RefusalRecord}
    (hf : f ∈ t.refused) :
    f ∈ s.refused ∨ ∃ k, t = s.refuseCmd k ∧ f = { kind := k, caller := s.cur, cp := s.me.cp } := by
  cases h with
  | none t h => exact .inl (h.refused ▸ hf)
  | fault k => exact .inl hf
  | refusal k =>
    rw [State.refuseCmd_refused, List.mem_append, List.mem_singleton] at hf
    exact hf.imp_right fun e => ⟨k, rfl, e⟩

/-- A mark stops its caller (R30). -/
theorem stopped_eq_true_iff (s : State) (c : Nat) :
    s.stopped c = true ↔ (∃ f ∈ s.faults, f.caller = c) ∨ ∃ f ∈ s.refused, f.caller = c := by
  simp [State.stopped]

/-- What the invariant says of a mark `(c, cp)`: it names a caller that stands at the command `cp`. -/
def MarkOk (s : State) (c cp : Nat) : Prop := c < s.callers.length ∧ cp = (s.caller c).cp

/-- The mark of a caller that is not the current one stays right. -/
theorem MarkOk.of_ne {s t : State} {c cp : Nat} (h : MarkOk s c cp) (ht : CallerEffect s t)
    (hc : c ≠ s.cur) : MarkOk t c cp := by
  obtain ⟨hlt, hcp⟩ := h
  exact ⟨ht.frame.2.2 ▸ hlt, by rw [ht.others c hc, hcp]⟩

/-- With no mark of the current caller before, every fault record after is right. -/
theorem MarkEffect.fault_marks {s t : State} (h : MarkEffect s t) (ht : CallerEffect s t)
    (hc : s.cur < s.callers.length) (hstop : s.stopped s.cur = false)
    (hs : ∀ f ∈ s.faults, MarkOk s f.caller f.cp) : ∀ f ∈ t.faults, MarkOk t f.caller f.cp := by
  intro f hf
  rcases h.mem_faults hf with hold | ⟨k, rfl, rfl⟩
  · refine (hs f hold).of_ne ht fun e => ?_
    rw [(stopped_eq_true_iff s s.cur).2 (.inl ⟨f, hold, e⟩)] at hstop
    cases hstop
  · exact ⟨hc, rfl⟩

/-- With no mark of the current caller before, every refusal record after is right. -/
theorem MarkEffect.refusal_marks {s t : State} (h : MarkEffect s t) (ht : CallerEffect s t)
    (hc : s.cur < s.callers.length) (hstop : s.stopped s.cur = false)
    (hs : ∀ f ∈ s.refused, MarkOk s f.caller f.cp) : ∀ f ∈ t.refused, MarkOk t f.caller f.cp := by
  intro f hf
  rcases h.mem_refused hf with hold | ⟨k, rfl, rfl⟩
  · refine (hs f hold).of_ne ht fun e => ?_
    rw [(stopped_eq_true_iff s s.cur).2 (.inr ⟨f, hold, e⟩)] at hstop
    cases hstop
  · exact ⟨hc, rfl⟩

/-- Settles O12: the caller that steps has no mark, and the step writes the record of no other caller. -/
theorem marksStayAndStopTheCaller : Obligations.MarksStayAndStopTheCaller := by
  refine ⟨fun cfg => ⟨rfl, rfl⟩, fun s t hstep => ?_⟩
  obtain ⟨c, -, -, hc, hstop, hcase⟩ := step_cases s t hstep
  have heffects : MarkEffect (s.scheduled c) t ∧ CallerEffect (s.scheduled c) t := by
    rcases hcase with ⟨e, -, rfl⟩ | ⟨i, -, -, -, hshape⟩
    · exact ⟨.refusal _, .stays _ (.of_evt_eq rfl rfl rfl rfl)⟩
    · exact ⟨hshape.markEffect, hshape.callerEffect⟩
  obtain ⟨hmarks, hcaller⟩ := heffects
  obtain ⟨hfaults, hrefused⟩ := hmarks.keeps_records
  refine ⟨hfaults, hrefused, fun d hd => ?_⟩
  have hne : d ≠ c := fun e => by
    rw [← e, (stopped_eq_true_iff s d).2 hd] at hstop
    cases hstop
  have hcur : t.cur = c := hcaller.frame.2.1
  exact ⟨hcur ▸ hne.symm, hcaller.others d hne⟩

end Sys2Proof.Machine
end

section
/-! The sequencers and the borrows (R22, R28, R151 to R153): what a command leaves in its caller's record,
and that a slot's borrows count the sequencers that run on it. -/

namespace Sys2Proof.Machine

/-! The registers of a sequencer along its plan (R152). -/

theorem entryWrites_Xm_cases (r : SeqRun) (e : PlanEntry) (rest : List PlanEntry) (v : Buf) :
    (entryWrites r e rest v).Xm = some v ∨ (entryWrites r e rest v).Xm = r.Xm := by
  cases e <;> simp [entryWrites]

theorem entryWrites_Z_cases (r : SeqRun) (e : PlanEntry) (rest : List PlanEntry) (v : Buf) :
    (entryWrites r e rest v).Z = some v ∨ (entryWrites r e rest v).Z = r.Z := by
  cases e <;> simp [entryWrites]

/-- A whole plan left to run begins with `CONVX`. -/
theorem eq_convx_of_length_eq {e : PlanEntry} {rest : List PlanEntry} {E : Nat}
    (h : (e :: rest) <:+ plan E) (hl : (e :: rest).length = (plan E).length) : e = .convx :=
  (List.cons.inj (h.eq_of_length hl)).1

/-- A plan with one entry run goes on with `INITZ`. -/
theorem eq_initz_of_length_eq {e : PlanEntry} {rest : List PlanEntry} {E : Nat}
    (h : (e :: rest) <:+ plan E) (hl : (e :: rest).length + 1 = (plan E).length) : e = .initz := by
  obtain ⟨done, hdone⟩ := h
  have hlen : done.length = 1 := by
    have := congrArg List.length hdone
    rw [List.length_append] at this
    omega
  obtain ⟨d, rfl⟩ := List.length_eq_one_iff.1 hlen
  exact (List.cons.inj (List.cons.inj hdone).2).1

/-- What EXP's first step loads (R151). -/
theorem runOk_freshRun (s : State) (h : SlotNo) (l : Bool) (hv : (s.slot h).valid = true)
    (hX : wc s.op.A ≤ (s.slot h).hw) (hE : val s.op.B ≠ 0) : RunOk s (freshRun h l s) where
  valid := hv
  wc_X := wc_zext _ _ hX
  exponent := hE
  remains := List.suffix_rfl
  nonempty := List.cons_ne_nil _ _
  xm_none := fun _ => rfl
  xm_some := fun hlt => absurd hlt (Nat.lt_irrefl _)
  z_none := fun _ => rfl
  z_some := fun hlt => absurd hlt (Nat.not_succ_lt_self)

/-- An entry with more to come leaves a sequencer as R152 makes it: `CONVX` writes `Xm`, then `INITZ`
writes `Z`, and every entry after leaves both with a value. -/
theorem RunOk.of_entryWrites {s : State} {r : SeqRun} {e e' : PlanEntry} {rest : List PlanEntry}
    {v : Buf} (hr : RunOk s r) (hp : r.plan = e :: e' :: rest) (hv : wc v = (s.slot r.slot).hw) :
    RunOk s (entryWrites r e (e' :: rest) v) := by
  have hsuffix : (e :: e' :: rest) <:+ plan r.E := hp ▸ hr.remains
  have hlen : r.plan.length = (e' :: rest).length + 1 := by rw [hp]; rfl
  have hle : (e' :: rest).length + 1 ≤ (plan r.E).length := hsuffix.length_le
  constructor <;>
    simp only [entryWrites_slot, entryWrites_X, entryWrites_E, entryWrites_plan]
  case valid => exact hr.valid
  case wc_X => exact hr.wc_X
  case exponent => exact hr.exponent
  case remains => exact (List.suffix_cons _ _).trans hsuffix
  case nonempty => exact List.cons_ne_nil _ _
  case xm_none => intro hall; omega
  case xm_some =>
    intro _
    rcases entryWrites_Xm_cases r e (e' :: rest) v with hwrites | hkeeps
    · exact ⟨v, hwrites, hv⟩
    · rw [hkeeps]
      by_cases hall : (e' :: rest).length + 1 = (plan r.E).length
      · rw [eq_convx_of_length_eq hsuffix hall] at hkeeps
        exact ⟨v, hkeeps.symm, hv⟩
      · exact hr.xm_some (by omega)
  case z_none =>
    intro hall
    rw [eq_convx_of_length_eq hsuffix (by rw [List.length_cons]; omega)]
    exact hr.z_none (by omega)
  case z_some =>
    intro _
    rcases entryWrites_Z_cases r e (e' :: rest) v with hwrites | hkeeps
    · exact ⟨v, hwrites, hv⟩
    · rw [hkeeps]
      by_cases hone : (e' :: rest).length + 1 + 1 = (plan r.E).length
      · rw [eq_initz_of_length_eq hsuffix hone] at hkeeps
        exact ⟨v, hkeeps.symm, hv⟩
      · exact hr.z_some (by omega)

/-- What a sequencer is to be speaks of its slot's `valid` and `hw` alone. -/
theorem RunOk.of_slot_eq {s t : State} {r : SeqRun} (h : RunOk s r)
    (hvalid : (t.slot r.slot).valid = (s.slot r.slot).valid)
    (hhw : (t.slot r.slot).hw = (s.slot r.slot).hw) : RunOk t r :=
  ⟨hvalid ▸ h.valid, hhw ▸ h.wc_X, h.exponent, h.remains, h.nonempty, h.xm_none, hhw ▸ h.xm_some,
    h.z_none, hhw ▸ h.z_some⟩

/-! The record of the caller whose step it is. -/

theorem noReturn_setDraws (s : State) (d : Draws) : NoReturn s (s.setDraws d) :=
  .of_evt_eq rfl rfl rfl rfl

theorem noReturn_setSlot (s : State) (h : SlotNo) (k : Slot) : NoReturn s (s.setSlot h k) :=
  .of_evt_eq rfl rfl rfl rfl

theorem NoReturn.retCmd_me {s t : State} (h : NoReturn s t) (hc : s.cur < s.callers.length)
    (st : Status) (v : RetValue) :
    (t.retCmd st v).me =
      { s.me with ret := { status := st, value := v }, cp := s.me.cp + 1, seq := .idle } := by
  have hcaller := t.retCmd_caller st v t.cur (by rwa [h.cur, h.callers])
  rw [if_pos rfl, h.me] at hcaller
  exact hcaller

theorem NoReturn.setSeq_me {s t : State} (h : NoReturn s t) (hc : s.cur < s.callers.length)
    (q : Seq) : (t.setSeq q).me = { s.me with seq := q } := by
  have hcaller := t.setSeq_caller q t.cur (by rwa [h.cur, h.callers])
  rw [if_pos rfl, h.me] at hcaller
  exact hcaller

/-- What a command leaves in the record of its caller: the record as it was; a sequencer as R152 makes it;
or a return, a failure with no value (R73). -/
inductive MeEffect (s : State) : Caller → Prop where
  | stays : MeEffect s s.me
  | runs (r : SeqRun) (hr : RunOk s r) : MeEffect s { s.me with seq := .run r }
  | returns (st : Status) (v : RetValue) (hv : st ≠ .ok → v = .none) :
      MeEffect s { s.me with ret := { status := st, value := v }, cp := s.me.cp + 1, seq := .idle }

theorem NoReturn.meEffect_retCmd {s t : State} (h : NoReturn s t) (hc : s.cur < s.callers.length)
    {st : Status} {v : RetValue} (hv : st ≠ .ok → v = .none) : MeEffect s (t.retCmd st v).me :=
  h.retCmd_me hc st v ▸ .returns st v hv

theorem NoReturn.meEffect_setSeq {s t : State} (h : NoReturn s t) (hc : s.cur < s.callers.length)
    {r : SeqRun} (hr : RunOk s r) : MeEffect s (t.setSeq (.run r)).me :=
  h.setSeq_me hc (.run r) ▸ .runs r hr

theorem NoReturn.meEffect_retMultiply {s t : State} (h : NoReturn s t)
    (hc : s.cur < s.callers.length) (v : Option Buf) : MeEffect s (t.retMultiply v).me := by
  cases v with
  | none => exact h.meEffect_retCmd hc fun _ => rfl
  | some r => exact h.meEffect_retCmd hc fun hne => absurd rfl hne

theorem HwResult.wc_value {s : State} {ps : Passes} {X Y M D : Buf} {p : Word} {h : Nat} {v : Buf}
    {t : State} (hr : HwResult s ps X Y M D p h (some v) t) : wc v = h := by
  cases hr with
  | value hu hz r d hv hwc => exact hwc

theorem ExecShape.meEffect {s : State} {i : Instr} {t : State} (h : ExecShape s i t)
    (hc : s.cur < s.callers.length) (hruns : ∀ r, s.me.seq = .run r → RunOk s r) :
    MeEffect s t.me := by
  have hok : ∀ v : RetValue, Status.ok ≠ .ok → v = .none := fun _ hne => absurd rfl hne
  cases h with
  | waits => exact .stays
  | fault => exact .stays
  | refusal => exact .stays
  | plain _ d st v hw hq hv => exact (noReturn_setDraws s d).meEffect_retCmd hc hv
  | build =>
    exact ((noReturn_setDraws s _).trans (noReturn_setSlot _ _ _)).meEffect_retCmd hc (hok _)
  | destroy =>
    exact ((noReturn_setSlot s _ _).trans (noReturn_setDraws _ _)).meEffect_retCmd hc (hok _)
  | acquire => exact (noReturn_acquireLock s).meEffect_retCmd hc (hok _)
  | release => exact (noReturn_releaseLock s).meEffect_retCmd hc (hok _)
  | primitive _ ps X Y M D p h v t hi hh hr => exact hr.noReturn.meEffect_retMultiply hc v
  | mult h v t hv hshape hfree hr => exact hr.noReturn_of_acquireLock.meEffect_retMultiply hc v
  | expStart h l hq hv hX hE =>
    exact (noReturn_setSlot s _ _).meEffect_setSeq hc (runOk_freshRun s h l hv hX hE)
  | expFail h l r e rest a b t hq hp ho hfree hr =>
    exact (hr.noReturn_of_acquireLock.trans (noReturn_returnBorrow _ _)).meEffect_retCmd hc
      fun _ => rfl
  | expEntry h l r e e' rest a b v t hq hp ho hfree hr =>
    exact (hr.noReturn_of_acquireLock.trans (noReturn_emitLive _ r e)).meEffect_setSeq hc
      ((hruns r hq).of_entryWrites hp hr.wc_value)
  | expLast h l r e a b v t hq hp ho hfree hr =>
    exact ((hr.noReturn_of_acquireLock.trans (noReturn_emitLive _ r e)).trans
      (noReturn_returnBorrow _ _)).meEffect_retCmd hc (hok _)

/-- The sequencer that a command leaves running is as R152 makes it, if the one before was. -/
theorem MeEffect.runOk {s : State} {x : Caller} (h : MeEffect s x)
    (hs : ∀ r, s.me.seq = .run r → RunOk s r) (r : SeqRun) (hr : x.seq = .run r) : RunOk s r := by
  cases h with
  | stays => exact hs r hr
  | runs r' hr' => cases hr; exact hr'
  | returns => cases hr

/-- A return record that is a failure has no value, if the one before had none (R73). -/
theorem MeEffect.no_value {s : State} {x : Caller} (h : MeEffect s x)
    (hs : s.me.ret.status ≠ .ok → s.me.ret.value = .none) :
    x.ret.status ≠ .ok → x.ret.value = .none := by
  cases h with
  | stays => exact hs
  | runs => exact hs
  | returns st v hv => exact hv

/-! The borrows (R22). -/

/-- How many callers' sequencers run on slot `g`. -/
def State.runsOnSlot (s : State) (g : SlotNo) : Nat := s.callers.countP (fun x => runsOn g x.seq)

/-- A command replaces the record of its caller. -/
theorem CallerEffect.callers_eq {s t : State} (h : CallerEffect s t)
    (hc : s.cur < s.callers.length) : t.callers = s.callers.set s.cur t.me := by
  cases h with
  | stays t h =>
    rw [h.callers, h.me, State.me, State.caller, List.getD_eq_getElem _ _ hc, List.set_getElem_self]
  | writesSeq t q h => rw [State.setSeq_callers, h.setSeq_me hc, h.callers, h.cur, h.me]
  | returns t st v h => rw [State.retCmd_callers, h.retCmd_me hc, h.callers, h.cur, h.me]

/-- The count of a slot's sequencers moves with that of the caller whose step it is. -/
theorem CallerEffect.runsOnSlot {s t : State} (h : CallerEffect s t)
    (hc : s.cur < s.callers.length) (g : SlotNo) :
    t.runsOnSlot g + (runsOn g s.me.seq).toNat = s.runsOnSlot g + (runsOn g t.me.seq).toNat := by
  have hme : s.callers[s.cur] = s.me := (List.getD_eq_getElem _ _ hc).symm
  have hcount : t.runsOnSlot g =
      s.runsOnSlot g - (runsOn g s.me.seq).toNat + (runsOn g t.me.seq).toNat := by
    have := List.countP_set (p := fun x => runsOn g x.seq) (a := t.me) hc
    rw [← h.callers_eq hc, hme] at this
    simpa only [State.runsOnSlot, Bool.toNat, cond_eq_ite] using this
  have hle : (runsOn g s.me.seq).toNat ≤ s.runsOnSlot g := by
    cases hs : runsOn g s.me.seq with
    | false => exact Nat.zero_le _
    | true => exact List.countP_pos_iff.2 ⟨s.me, hme ▸ List.getElem_mem hc, hs⟩
  omega

/-- What the borrows of the slots are to do in a command: they move with the sequencer of its caller. -/
def BorrowStep (s t : State) : Prop :=
  ∀ g, (t.slot g).borrows + (runsOn g s.me.seq).toNat =
    (s.slot g).borrows + (runsOn g t.me.seq).toNat

/-- A command that leaves the borrows and its caller's sequencer. -/
theorem BorrowStep.of_eq {s t : State} (hseq : t.me.seq = s.me.seq)
    (hslots : ∀ g, (t.slot g).borrows = (s.slot g).borrows) : BorrowStep s t :=
  fun g => by rw [hseq, hslots g]

/-- The return of a command whose caller's sequencer is idle. -/
theorem NoReturn.borrowStep_retCmd {s t : State} (h : NoReturn s t) (hc : s.cur < s.callers.length)
    (hidle : s.me.seq = .idle) (hslots : ∀ g, (t.slot g).borrows = (s.slot g).borrows)
    (st : Status) (v : RetValue) : BorrowStep s (t.retCmd st v) :=
  .of_eq (by rw [h.retCmd_me hc, hidle]) hslots

/-- The return of a multiply of a caller whose sequencer is idle. -/
theorem NoReturn.borrowStep_retMultiply {s t : State} (h : NoReturn s t)
    (hc : s.cur < s.callers.length) (hidle : s.me.seq = .idle) (hslots : SameSlots s t)
    (v : Option Buf) : BorrowStep s (t.retMultiply v) := by
  cases v <;> exact h.borrowStep_retCmd hc hidle (fun g => by rw [hslots g]) _ _

/-- The end of an exponentiation gives its borrow back (R153). -/
theorem NoReturn.borrowStep_returnBorrow {s t : State} {r : SeqRun} (h : NoReturn s t)
    (hc : s.cur < s.callers.length) (hq : s.me.seq = .run r) (hslots : SameSlots s t)
    (hb : 0 < (s.slot r.slot).borrows) (st : Status) (v : RetValue) :
    BorrowStep s ((t.returnBorrow r.slot).retCmd st v) := by
  intro g
  rw [(h.trans (noReturn_returnBorrow t r.slot)).retCmd_me hc, hq, State.retCmd_slot,
    State.returnBorrow_slot, hslots g, hslots r.slot]
  by_cases hg : g = r.slot
  · subst hg
    simp only [if_true, runsOn, beq_self_eq_true, Bool.toNat_true, Bool.toNat_false]
    omega
  · simp [hg, runsOn, Ne.symm hg]

/-- A caller whose next step is no EXP has no exponentiation in progress (R208). -/
theorem me_idle_of_nextOf {s : State} {i : Instr} (h : s.nextOf s.cur = some (.ok i))
    (hi : ∀ h l, i ≠ .exp h l) : s.me.seq = .idle := by
  cases hq : s.me.seq with
  | idle => rfl
  | run r =>
    rw [nextOf_run s s.cur r hq] at h
    cases h
    exact absurd rfl (hi _ _)

/-- Every command moves the borrows with its caller's sequencer (R22, R151, R153). -/
theorem ExecShape.borrowStep {s : State} {i : Instr} {t : State} (h : ExecShape s i t)
    (hc : s.cur < s.callers.length) (hnext : s.nextOf s.cur = some (.ok i))
    (hinvalid : ∀ g, (s.slot g).valid = false → (s.slot g).borrows = 0)
    (hborrowed : ∀ r, s.me.seq = .run r → 0 < (s.slot r.slot).borrows) : BorrowStep s t := by
  have hidle : (∀ h l, i ≠ .exp h l) → s.me.seq = .idle := me_idle_of_nextOf hnext
  cases h with
  | waits => exact .of_eq rfl fun _ => rfl
  | fault => exact .of_eq rfl fun _ => rfl
  | refusal => exact .of_eq rfl fun _ => rfl
  | plain _ d st v hw hq hv =>
    have hme : s.me.seq = .idle := by
      by_cases hexp : ∃ h l, i = .exp h l
      · obtain ⟨h, l, hi⟩ := hexp
        exact hq h l hi
      · exact hidle fun h l hi => hexp ⟨h, l, hi⟩
    exact (noReturn_setDraws s d).borrowStep_retCmd hc hme (fun _ => rfl) _ _
  | build h hv hA hm hd =>
    refine ((noReturn_setDraws s _).trans (noReturn_setSlot _ _ _)).borrowStep_retCmd hc (hidle nofun)
      (fun g => ?_) _ _
    rw [State.setSlot_slot]
    split
    · next hg => rw [hg, hinvalid h hv]; rfl
    · rfl
  | destroy h hv hb =>
    refine ((noReturn_setSlot s _ _).trans (noReturn_setDraws _ _)).borrowStep_retCmd hc (hidle nofun)
      (fun g => ?_) _ _
    rw [State.setDraws_slot, State.setSlot_slot]
    split
    · next hg => rw [hg]; rfl
    · rfl
  | acquire => exact (noReturn_acquireLock s).borrowStep_retCmd hc (hidle nofun) (fun _ => rfl) _ _
  | release => exact (noReturn_releaseLock s).borrowStep_retCmd hc (hidle nofun) (fun _ => rfl) _ _
  | primitive _ ps X Y M D p h v t hi hh hr =>
    refine hr.noReturn.borrowStep_retMultiply hc (hidle ?_) hr.sameSlots v
    rcases hi with rfl | rfl <;> exact nofun
  | mult h v t hv hshape hfree hr =>
    exact hr.noReturn_of_acquireLock.borrowStep_retMultiply hc (hidle nofun) hr.sameSlots v
  | expStart h l hq hv hX hE =>
    intro g
    rw [(show NoReturn s (s.takeBorrow h) from noReturn_setSlot s h _).setSeq_me hc, hq,
      State.setSeq_slot, State.takeBorrow_slot]
    by_cases hg : g = h
    · simp [hg, runsOn, freshRun]
    · simp [hg, runsOn, freshRun, Ne.symm hg]
  | expFail h l r e rest a b t hq hp ho hfree hr =>
    exact hr.noReturn_of_acquireLock.borrowStep_returnBorrow hc hq hr.sameSlots (hborrowed r hq) _ _
  | expEntry h l r e e' rest a b v t hq hp ho hfree hr =>
    intro g
    rw [(hr.noReturn_of_acquireLock.trans (noReturn_emitLive _ r e)).setSeq_me hc, hq,
      State.setSeq_slot, hr.sameSlots_of_entry r e g]
    simp only [runsOn, entryWrites_slot]
  | expLast h l r e a b v t hq hp ho hfree hr =>
    exact (hr.noReturn_of_acquireLock.trans (noReturn_emitLive _ r e)).borrowStep_returnBorrow hc hq
      (hr.sameSlots_of_entry r e) (hborrowed r hq) _ _

end Sys2Proof.Machine
end

section
/-! The invariant of the block (R22 to R26, R28, R30, R73, R132) at reset and along every step. -/

namespace Sys2Proof.Machine

/-! What the invariant says of the callers whose sequencers run. -/

theorem mem_callers_of_run {s : State} {c : Nat} {r : SeqRun} (h : (s.caller c).seq = .run r) :
    s.caller c ∈ s.callers := by
  unfold State.caller at h ⊢
  rw [List.getD_eq_getElem?_getD] at h ⊢
  cases hc : s.callers[c]? with
  | none => rw [hc] at h; cases h
  | some x => exact List.mem_of_getElem? hc

/-- A slot with a sequencer running on it is counted. -/
theorem runsOnSlot_pos {s : State} {c : Nat} {r : SeqRun} (h : (s.caller c).seq = .run r) :
    0 < s.runsOnSlot r.slot :=
  List.countP_pos_iff.2 ⟨_, mem_callers_of_run h, by simp [h, runsOn]⟩

theorem State.Inv.borrowed {s : State} (hs : s.Inv) {c : Nat} {r : SeqRun}
    (h : (s.caller c).seq = .run r) : 0 < (s.slot r.slot).borrows :=
  hs.borrows r.slot ▸ runsOnSlot_pos h

/-- No sequencer runs on an invalid slot (R28, R106). -/
theorem State.Inv.borrows_eq_zero {s : State} (hs : s.Inv) (g : SlotNo)
    (hg : (s.slot g).valid = false) : (s.slot g).borrows = 0 := by
  rw [hs.borrows g, List.countP_eq_zero]
  intro x hx hon
  obtain ⟨c, hc, rfl⟩ := List.getElem_of_mem hx
  have hcaller : s.caller c = s.callers[c] := List.getD_eq_getElem _ _ hc
  cases hq : (s.callers[c]).seq with
  | idle => rw [hq] at hon; cases hon
  | run r =>
    rw [hq, runsOn, beq_iff_eq] at hon
    have hvalid := (hs.runs c r (hcaller ▸ hq)).valid
    rw [hon, hg] at hvalid
    cases hvalid

theorem State.Inv.blockWords_pos {s : State} (hs : s.Inv) : 1 ≤ s.cfg.blockWords := by
  have h := hs.cfg_ok
  simp only [Config.ok, Bool.and_eq_true, decide_eq_true_eq] at h
  exact h.1.1

/-! A step. -/

/-- Scheduling a caller keeps the invariant: it moves the queue and the draws alone (R213, R243). -/
theorem State.Inv.scheduled {s : State} (hs : s.Inv) {c : Nat} (hc : c < s.callers.length) :
    (s.scheduled c).Inv :=
  { hs with
    cur_lt := hc
    runs := fun d r hr => (hs.runs d r hr).of_slot_eq rfl rfl
    turns_callers := turnsAfter_perm _ _ _ _ _ hc hs.turns_callers }

/-- A refusal of a caller with no mark keeps the invariant (R30, R203). -/
theorem State.Inv.refuseCmd {s : State} (hs : s.Inv) (hstop : s.stopped s.cur = false)
    (k : RefusalKind) : (s.refuseCmd k).Inv :=
  { hs with
    runs := fun d r hr => (hs.runs d r hr).of_slot_eq rfl rfl
    refusal_marks := (MarkEffect.refusal k).refusal_marks (.stays _ (.of_evt_eq rfl rfl rfl rfl))
      hs.cur_lt hstop hs.refusal_marks }

/-- The borrows count the sequencers after a command (R22). -/
theorem BorrowStep.borrows_eq {s t : State} (h : BorrowStep s t) (hs : s.Inv)
    (ht : CallerEffect s t) (g : SlotNo) : (t.slot g).borrows = t.runsOnSlot g := by
  have hstep := h g
  have hcount := ht.runsOnSlot hs.cur_lt g
  have hborrows : (s.slot g).borrows = s.runsOnSlot g := hs.borrows g
  omega

/-- A slot that is borrowed after a command was valid with the same `hw` before, if it was valid. -/
theorem SlotEffect.valid_hw_of_borrowed {s : State} {i : Instr} {g : SlotNo} {k : Slot}
    (h : SlotEffect s i g k) (hv : (s.slot g).valid = true) (hb : 0 < k.borrows) :
    k.valid = (s.slot g).valid ∧ k.hw = (s.slot g).hw := by
  cases h with
  | keeps n => exact ⟨rfl, rfl⟩
  | builds hi hinv => rw [hinv] at hv; cases hv
  | destroys hi n hz => rw [destroyedSlot, hz] at hb; exact absurd hb (Nat.lt_irrefl 0)

/-- Every command of a caller with no mark keeps the invariant. -/
theorem State.Inv.exec {s : State} (hs : s.Inv) {i : Instr} {t : State} (h : ExecShape s i t)
    (hnext : s.nextOf s.cur = some (.ok i)) (hstop : s.stopped s.cur = false) : t.Inv := by
  have heff := h.callerEffect
  have hmark := h.markEffect
  obtain ⟨hcfg, hcur, hlen⟩ := heff.frame
  have hlock := h.lockInv hs.lockInv hs.cur_lt
  have hme : MeEffect s (t.caller s.cur) := hcur ▸ h.meEffect hs.cur_lt (hs.runs s.cur)
  have hborrows : ∀ g, (t.slot g).borrows = t.runsOnSlot g :=
    (h.borrowStep hs.cur_lt hnext hs.borrows_eq_zero fun _ => hs.borrowed).borrows_eq hs heff
  have hruns : ∀ c r, (t.caller c).seq = .run r → RunOk s r := fun c r hr => by
    by_cases hc : c = s.cur
    · rw [hc] at hr; exact hme.runOk (hs.runs s.cur) r hr
    · rw [heff.others c hc] at hr; exact hs.runs c r hr
  exact {
    cfg_ok := hcfg ▸ hs.cfg_ok
    callers_length := by rw [hlen, hcfg]; exact hs.callers_length
    cur_lt := by rw [hlen, hcur]; exact hs.cur_lt
    holder_lt := hlock.holder_lt
    enable := hlock.enable
    counts := hlock.counts
    acq_events := hlock.acq_events
    rel_events := hlock.rel_events
    trace := hlock.trace
    contexts := fun g hg =>
      hcfg ▸ (h.slotEffect g).contextOk hs.blockWords_pos (hs.contexts g) hg
    borrows := hborrows
    runs := fun c r hr => by
      have hok := hruns c r hr
      obtain ⟨hvalid, hhw⟩ := (h.slotEffect r.slot).valid_hw_of_borrowed hok.valid
        (hborrows r.slot ▸ runsOnSlot_pos hr)
      exact hok.of_slot_eq hvalid hhw
    no_value := fun c => by
      by_cases hc : c = s.cur
      · rw [hc]; exact hme.no_value (hs.no_value s.cur)
      · rw [heff.others c hc]; exact hs.no_value c
    fault_marks := hmark.fault_marks heff hs.cur_lt hstop hs.fault_marks
    refusal_marks := hmark.refusal_marks heff hs.cur_lt hstop hs.refusal_marks
    turns_callers := by rw [hmark.turns, hlen]; exact hs.turns_callers }

/-- Settles O53: scheduling keeps the invariant, and so does the command or the refusal that follows. -/
theorem stepKeepsTheInvariant : Obligations.StepKeepsTheInvariant := by
  intro s t hs hstep
  obtain ⟨c, -, -, hc, hstop, ⟨e, -, rfl⟩ | ⟨i, hnext, -, -, hshape⟩⟩ := step_cases s t hstep
  · exact (hs.scheduled hc).refuseCmd hstop _
  · exact (hs.scheduled hc).exec hshape hnext hstop

end Sys2Proof.Machine
end

section
/-! The state after reset (R35), with streams loaded (R20; assumption log 5). -/

namespace Sys2Proof.Machine

theorem resetWith_slot (cfg : Config) (h : SlotNo) : (State.resetWith cfg).slot h = Slot.reset := by
  simp [State.slot, State.resetWith]

theorem resetWith_caller (cfg : Config) (c : Nat) :
    (State.resetWith cfg).caller c = Caller.reset :=
  caller_forall _ (· = Caller.reset) (fun _ hx => List.eq_of_mem_replicate hx) rfl c

/-- Loading changes a caller's record in its stream alone. -/
theorem loadStreams_caller (s : State) (streams : List (List Command)) (c : Nat) :
    ∃ cmds, (s.loadStreams streams).caller c = { s.caller c with stream := cmds } := by
  unfold State.caller State.loadStreams
  simp only [List.getD_eq_getElem?_getD, List.getElem?_map, List.getElem?_zipIdx]
  cases s.callers[c]? with
  | none => exact ⟨[], rfl⟩
  | some x => exact ⟨_, rfl⟩

theorem loadStreams_length (s : State) (streams : List (List Command)) :
    (s.loadStreams streams).callers.length = s.callers.length := by
  simp [State.loadStreams]

/-- After reset, whatever is loaded, every caller is idle with the reset return record (R35). -/
theorem loadStreams_resetWith_caller (cfg : Config) (streams : List (List Command)) (c : Nat) :
    ∃ cmds, ((State.resetWith cfg).loadStreams streams).caller c =
      { Caller.reset with stream := cmds } := by
  obtain ⟨cmds, h⟩ := loadStreams_caller (State.resetWith cfg) streams c
  exact ⟨cmds, by rw [h, resetWith_caller]⟩

/-- No exponentiation is in progress while every sequencer is idle. -/
theorem runsOnSlot_eq_zero {s : State} (h : ∀ c, (s.caller c).seq = .idle) (g : SlotNo) :
    s.runsOnSlot g = 0 := by
  rw [State.runsOnSlot, List.countP_eq_zero]
  intro x hx
  obtain ⟨c, hc, rfl⟩ := List.getElem_of_mem hx
  have hidle : s.callers[c].seq = .idle := List.getD_eq_getElem s.callers Caller.reset hc ▸ h c
  rw [hidle]
  exact Bool.false_ne_true

/-- Settles O51: every slot and every caller is the reset one. -/
theorem resetValues : Obligations.ResetValues := by
  intro cfg
  refine ⟨fun h => ?_, rfl, rfl, rfl, rfl, List.length_replicate, fun c => ?_, rfl, rfl, rfl⟩
  · rw [resetWith_slot]; exact ⟨rfl, rfl⟩
  · rw [resetWith_caller]; exact ⟨rfl, rfl, rfl⟩

/-- Settles O52: no slot is valid, no sequencer runs, nobody holds the lock and the history is empty. -/
theorem invariantHoldsAtReset : Obligations.InvariantHoldsAtReset := by
  intro cfg streams hcfg
  have hlen : ((State.resetWith cfg).loadStreams streams).callers.length = cfg.nCallers :=
    (loadStreams_length _ _).trans List.length_replicate
  have hslot : ∀ h, ((State.resetWith cfg).loadStreams streams).slot h = Slot.reset :=
    resetWith_slot cfg
  have hidle : ∀ c, (((State.resetWith cfg).loadStreams streams).caller c).seq = .idle := fun c => by
    obtain ⟨cmds, h⟩ := loadStreams_resetWith_caller cfg streams c
    rw [h]; rfl
  have hcallers : 1 ≤ cfg.nCallers := by
    simp only [Config.ok, Bool.and_eq_true, decide_eq_true_eq] at hcfg
    exact hcfg.2
  exact {
    cfg_ok := hcfg
    callers_length := hlen
    cur_lt := by rw [hlen]; exact hcallers
    holder_lt := nofun
    enable := rfl
    counts := rfl
    acq_events := rfl
    rel_events := rfl
    trace := rfl
    contexts := fun h hv => by rw [hslot h] at hv; cases hv
    borrows := fun h => by rw [hslot h]; exact (runsOnSlot_eq_zero hidle h).symm
    runs := fun c r hr => by rw [hidle c] at hr; cases hr
    no_value := fun c _ => by
      obtain ⟨cmds, h⟩ := loadStreams_resetWith_caller cfg streams c
      rw [h]; rfl
    fault_marks := nofun
    refusal_marks := nofun
    turns_callers := by
      have hturns : ((List.range cfg.nCallers).map Turn.first).map Turn.caller =
          List.range cfg.nCallers := by
        rw [List.map_map]; exact List.map_id _
      rw [hlen]
      exact .of_eq hturns }

end Sys2Proof.Machine
end

section
/-! The loading of one command (assumption log 5): the word placed for a caller is the one its next step
fetches, and that step is the very next one. -/

namespace Sys2Proof.Machine

/-- The word of a well-formed command decodes to the command (R74, R75), command by command. -/
theorem decode_encode (i : Instr) (h : i.wf = true) : decode (encode i) = .ok i := by
  cases i with
  | ctxBuild g => exact Laws.RoundTrip.ctxBuild g h
  | ctxRead g f => exact Laws.RoundTrip.ctxRead g f h
  | ctxDestroy g => exact Laws.RoundTrip.ctxDestroy g h
  | hwCapacity => exact Laws.RoundTrip.hwCapacity h
  | acquire => exact Laws.RoundTrip.acquire h
  | release => exact Laws.RoundTrip.release h
  | hwModmul => exact Laws.RoundTrip.hwModmul h
  | hwMontmul => exact Laws.RoundTrip.hwMontmul h
  | mult g => exact Laws.RoundTrip.mult g h
  | exp g l => exact Laws.RoundTrip.exp g l h

/-- The placed command is the one at the command pointer, whatever the stream was. -/
theorem placeAt_getElem? (stream : List Command) (cp : Nat) (cmd : Command) :
    (placeAt stream cp cmd)[cp]? = some cmd := by
  have hlen : (stream.take cp ++ List.replicate (cp - stream.length) cmd).length = cp := by
    rw [List.length_append, List.length_take, List.length_replicate]; omega
  rw [placeAt, List.getElem?_append_right (Nat.le_of_eq hlen), hlen, Nat.sub_self]
  rfl

theorem placeWord_caller (s : State) (c : Nat) (w : Word) (hc : c < s.callers.length) :
    (s.placeWord c w).caller c =
      { s.caller c with
        stream := placeAt (s.caller c).stream (s.caller c).cp ⟨w, OperandRecord.empty⟩
        seq := .idle } := by
  rw [State.caller, List.getD_eq_getElem?_getD, State.placeWord, List.getElem?_set_self hc]
  rfl

/-- A caller's next step runs the word placed for it. -/
theorem placeWord_nextOf (s : State) (c : Nat) (w : Word) (hc : c < s.callers.length) :
    (s.placeWord c w).nextOf c = some (decode w) := by
  have hcaller := placeWord_caller s c w hc
  refine nextOf_idle _ c ⟨w, OperandRecord.empty⟩ (by rw [hcaller]) ?_
  rw [hcaller]
  exact placeAt_getElem? _ _ _

/-- No mark stops the caller that a word is placed for. -/
theorem placeWord_stopped (s : State) (c : Nat) (w : Word) : (s.placeWord c w).stopped c = false := by
  rw [← Bool.not_eq_true, stopped_eq_true_iff]
  rintro (⟨f, hf, hfc⟩ | ⟨f, hf, hfc⟩) <;> simp [State.placeWord, hfc] at hf

/-- A caller whose placed command does not wait has an enabled step. -/
theorem placeWord_enabled (s : State) (c : Nat) (w : Word) (i : Instr) (hc : c < s.callers.length)
    (hi : decode w = .ok i) (hw : waits i ((s.placeWord c w).onBehalf c) = false) :
    (s.placeWord c w).enabled c = true := by
  have hlt : c < (s.placeWord c w).callers.length := by simpa [State.placeWord] using hc
  simp [State.enabled, placeWord_stopped, placeWord_nextOf s c w hc, hi, hw, hlt]

/-- A caller that is due is the scheduler's choice, if it is enabled (R243). -/
theorem choose_due (d : Draws) (c : Nat) (cs : List Nat) (hc : c ∈ cs) :
    choose d (some c) cs = some c := by
  match cs, hc with
  | [a], hc => rw [List.mem_singleton.1 hc]; rfl
  | _ :: _ :: _, _ => rfl

/-- The caller that a word is placed for is first in the queue and due, so it is next if it is enabled. -/
theorem placeWord_nextCaller (s : State) (c : Nat) (w : Word)
    (he : (s.placeWord c w).enabled c = true) : (s.placeWord c w).nextCaller = some c := by
  have hdue : (s.placeWord c w).due = some c := by
    have hturns : (s.placeWord c w).turns =
        { caller := c, patience := 0 } :: s.turns.filter (fun t => t.caller != c) := rfl
    simp [State.due, hturns, he]
  rw [State.nextCaller, hdue]
  exact choose_due _ c _ ((mem_enabledCallers _ c).2 he)

/-- Settles O55: caller 0 is next, and its word decodes to the command it encodes. -/
theorem placedWordRunsNext : Obligations.PlacedWordRunsNext := by
  intro s i hwf hc hwaits
  have hword : s.withFetchWord 32 (encode i).toNat = s.placeWord 0 (encode i) := by
    rw [State.withFetchWord, Nat.mod_eq_of_lt (encode i).isLt, BitVec.ofNat_toNat, BitVec.setWidth_eq]
  rw [hword] at hwaits ⊢
  have hdecode := decode_encode i hwf
  rw [step_eq_stepOf _ 0 (placeWord_nextCaller s 0 _ (placeWord_enabled s 0 _ i hc hdecode hwaits))]
  refine stepOf_ok _ 0 i ?_
  rw [← hdecode]
  exact placeWord_nextOf s 0 (encode i) hc

end Sys2Proof.Machine
end

section
/-! The history of the lock, read back (R60, R132): the `ACQ` behind a holder and the `REL` ahead of one. -/

namespace Sys2Proof.Machine

/-- A broken lock discipline stays broken. -/
theorem foldl_lockStep_none (evt : List Event) : evt.foldl lockStep none = none := by
  induction evt with
  | nil => rfl
  | cons e evt ih => exact ih

/-- A history that keeps the discipline keeps it at its first event and after it. -/
theorem foldl_lockStep_cons_eq_some {st : Option (Option Nat)} {e : Event} {evt : List Event}
    {h : Option Nat} (htrace : (e :: evt).foldl lockStep st = some h) :
    ∃ g, lockStep st e = some g ∧ evt.foldl lockStep (some g) = some h := by
  rw [List.foldl_cons] at htrace
  cases hg : lockStep st e with
  | none => rw [hg, foldl_lockStep_none] at htrace; cases htrace
  | some g => exact ⟨g, rfl, hg ▸ htrace⟩

/-- A multiply keeps the discipline only as the holder's own (R132). -/
theorem lockStep_hwop_eq_some {st : Option (Option Nat)} {c : Nat} {k : HwKind} {a b m r : Nat}
    {h : Option Nat} (hstep : lockStep st (.hwop c k a b m r) = some h) : st = some (some c) := by
  match st with
  | none => cases hstep
  | some none => cases hstep
  | some (some d) =>
    rw [lockStep, Option.ite_none_right_eq_some] at hstep
    rw [hstep.1]

/-- An event after which `c` holds: its `ACQ` of the free multiplier, or one that is no `ACQ` or `REL`
while it held already. -/
theorem lockStep_eq_holder {st : Option (Option Nat)} {e : Event} {c : Nat}
    (hstep : lockStep st e = some (some c)) :
    e = .acq c ∨ (st = some (some c) ∧ e.isAcq = false ∧ e.isRel = false) := by
  match st, e with
  | none, _ => cases hstep
  | some none, .acq d => cases hstep; exact .inl rfl
  | some (some _), .acq _ => cases hstep
  | some none, .rel _ => cases hstep
  | some (some d), .rel f =>
    rw [lockStep, Option.ite_none_right_eq_some] at hstep
    cases hstep.2
  | some none, .hwop .. => cases hstep
  | some (some d), .hwop f .. =>
    rw [lockStep, Option.ite_none_right_eq_some] at hstep
    exact .inr ⟨hstep.2, rfl, rfl⟩
  | some h, .live d i => exact .inr ⟨(quiet_live h d i).step.symm.trans hstep, rfl, rfl⟩
  | some h, .ret d st => exact .inr ⟨(quiet_ret h d st).step.symm.trans hstep, rfl, rfl⟩

/-- An event that keeps the discipline while `c` holds: its `REL`, or one that is no `ACQ` or `REL` and
leaves it the holder. -/
theorem lockStep_of_holder {e : Event} {c : Nat} {h : Option Nat}
    (hstep : lockStep (some (some c)) e = some h) :
    e = .rel c ∨ (h = some c ∧ e.isAcq = false ∧ e.isRel = false) := by
  match e with
  | .acq _ => cases hstep
  | .rel d =>
    rw [lockStep, Option.ite_none_right_eq_some] at hstep
    exact .inl (by rw [hstep.1])
  | .hwop d .. =>
    rw [lockStep, Option.ite_none_right_eq_some] at hstep
    exact .inr ⟨(Option.some.inj hstep.2).symm, rfl, rfl⟩
  | .live .. => exact .inr ⟨(Option.some.inj hstep).symm, rfl, rfl⟩
  | .ret .. => exact .inr ⟨(Option.some.inj hstep).symm, rfl, rfl⟩

/-- Behind a holder stands its `ACQ`, with no `ACQ` or `REL` since. -/
theorem exists_acq_of_lockTrace {evt : List Event} {c : Nat} (h : lockTrace evt = some (some c)) :
    ∃ p q, evt = p ++ .acq c :: q ∧ ∀ e ∈ q, e.isAcq = false ∧ e.isRel = false := by
  induction evt using List.reverseRecOn with
  | nil => cases h
  | append_singleton evt e ih =>
    rw [lockTrace_concat] at h
    rcases lockStep_eq_holder h with rfl | ⟨hprev, hquiet⟩
    · exact ⟨evt, [], rfl, nofun⟩
    · obtain ⟨p, q, rfl, hq⟩ := ih hprev
      refine ⟨p, q ++ [e], by simp, List.forall_mem_append.2 ⟨hq, ?_⟩⟩
      exact List.forall_mem_singleton.2 hquiet

/-- Ahead of a holder the next `ACQ` or `REL`, if any, is its `REL`. -/
theorem rel_ahead_of_holder {evt : List Event} {c : Nat} {h : Option Nat}
    (htrace : evt.foldl lockStep (some (some c)) = some h) :
    (∀ e ∈ evt, e.isAcq = false ∧ e.isRel = false) ∨
      ∃ p q, evt = p ++ .rel c :: q ∧ ∀ e ∈ p, e.isAcq = false ∧ e.isRel = false := by
  induction evt with
  | nil => exact .inl nofun
  | cons e evt ih =>
    obtain ⟨g, hg, hrest⟩ := foldl_lockStep_cons_eq_some htrace
    rcases lockStep_of_holder hg with rfl | ⟨rfl, hquiet⟩
    · exact .inr ⟨[], evt, rfl, nofun⟩
    · rcases ih hrest with hall | ⟨p, q, rfl, hp⟩
      · exact .inl (List.forall_mem_cons.2 ⟨hquiet, hall⟩)
      · exact .inr ⟨e :: p, q, rfl, List.forall_mem_cons.2 ⟨hquiet, hp⟩⟩

/-- Where a history that keeps the discipline has a multiply of `c`, `c` is the holder before it and
after it. -/
theorem holder_around_hwop {pre post : List Event} {c : Nat} {k : HwKind} {a b m r : Nat}
    {h : Option Nat} (htrace : lockTrace (pre ++ .hwop c k a b m r :: post) = some h) :
    lockTrace pre = some (some c) ∧ post.foldl lockStep (some (some c)) = some h := by
  rw [lockTrace, List.foldl_append] at htrace
  obtain ⟨g, hg, hpost⟩ := foldl_lockStep_cons_eq_some htrace
  have hpre : lockTrace pre = some (some c) := lockStep_hwop_eq_some hg
  have hafter : some (some c) = some g :=
    (quiet_hwop c k a b m r).step.symm.trans (hpre ▸ hg)
  exact ⟨hpre, hafter ▸ hpost⟩

/-- Settles O54: `c` is the holder where it multiplies, so its `ACQ` stands behind and its `REL` ahead. -/
theorem multipliesLieInsideAHold : Obligations.MultipliesLieInsideAHold := by
  intro s pre post c k a b m r hinv hevt
  obtain ⟨hpre, hpost⟩ := holder_around_hwop (hevt ▸ hinv.trace)
  exact ⟨exists_acq_of_lockTrace hpre, rel_ahead_of_holder hpost⟩

end Sys2Proof.Machine
end

section
/-! The byte order inside a word (R52; assumption log 12). -/

namespace Sys2Proof

/-- A byte put below a bit string is the lowest digit in base `2 ^ 8`. -/
theorem toNat_append_byte {n : Nat} (x : BitVec n) (b : Byte) :
    (x ++ b).toNat = b.toNat + 2 ^ 8 * x.toNat := by
  rw [BitVec.toNat_append, ← Nat.shiftLeft_add_eq_or_of_lt b.isLt, Nat.shiftLeft_eq]
  omega

/-- Byte 0 is the least significant (R52). -/
theorem wordOfBytes_eq_ofNat (b0 b1 b2 b3 : Byte) :
    wordOfBytes b0 b1 b2 b3 = BitVec.ofNat 32
      (b0.toNat + 2 ^ 8 * b1.toNat + 2 ^ 16 * b2.toNat + 2 ^ 24 * b3.toNat) := by
  have hval : (wordOfBytes b0 b1 b2 b3).toNat =
      b0.toNat + 2 ^ 8 * b1.toNat + 2 ^ 16 * b2.toNat + 2 ^ 24 * b3.toNat := by
    simp only [wordOfBytes, toNat_append_byte]
    omega
  rw [← hval, BitVec.ofNat_toNat, BitVec.setWidth_eq]

/-- The four bytes of a word make the word again (R52). -/
theorem wordOfBytes_extract (w : Word) :
    wordOfBytes (w.extractLsb' 0 8) (w.extractLsb' 8 8) (w.extractLsb' 16 8) (w.extractLsb' 24 8)
      = w := by
  rw [wordOfBytes,
    BitVec.extractLsb'_append_extractLsb'_eq_extractLsb' (start₂ := 24) (start₁ := 16) rfl,
    BitVec.extractLsb'_append_extractLsb'_eq_extractLsb' (start₂ := 16) (start₁ := 8) rfl,
    BitVec.extractLsb'_append_extractLsb'_eq_extractLsb' (start₂ := 8) (start₁ := 0) rfl]
  exact BitVec.extractLsb'_eq_self

/-- Settles O4: the word of four bytes by its value, and the bytes of a word make it again. -/
theorem bytesDecodeLittleEndian : Obligations.BytesDecodeLittleEndian := by
  refine ⟨fun b0 b1 b2 b3 rest => ?_, fun w rest => ?_⟩
  · rw [decodeBytes, wordOfBytes_eq_ofNat]
  · calc decodeBytes (wordToBytes w ++ rest)
        = some (decode (wordOfBytes (w.extractLsb' 0 8) (w.extractLsb' 8 8) (w.extractLsb' 16 8)
            (w.extractLsb' 24 8)), rest) := rfl
      _ = some (decode w, rest) := by rw [wordOfBytes_extract]

end Sys2Proof
end

section
/-! The opcode table and its decoding (R71, R74, R75): the low byte of a word tells the row, and the bits a
row's mask leaves free are the fields of its command. -/

namespace Sys2Proof

open Sys2Proof.Machine (decode_encode)

/-! Which row a word matches (R75). -/

/-- Every mask covers `w[7:0]`, so a row shares its low byte with every word it matches (R75). -/
theorem low_byte_of_match {r : Row} (hr : r ∈ rows) {w : Word} (hm : w &&& r.mask = r.pat) :
    r.pat &&& 0xFF#32 = w &&& 0xFF#32 := by
  have hcover : ∀ r ∈ rows, r.mask &&& 0xFF#32 = 0xFF#32 := by decide
  rw [← hm, BitVec.and_assoc, hcover r hr]

/-- The rows differ in their low bytes, so at most one matches a word (R75). -/
theorem row_unique {r r' : Row} (hr : r ∈ rows) (hr' : r' ∈ rows) {w : Word}
    (hm : w &&& r.mask = r.pat) (hm' : w &&& r'.mask = r'.pat) : r = r' := by
  have hdiffer : (rows.map fun r => r.pat &&& 0xFF#32).Nodup := by decide
  exact List.inj_on_of_nodup_map hdiffer hr hr'
    ((low_byte_of_match hr hm).trans (low_byte_of_match hr' hm').symm)

/-- A word that a row matches is that row's command, or a reserved selector (R75, R76). -/
theorem decode_of_match {r : Row} (hr : r ∈ rows) {w : Word} (hm : w &&& r.mask = r.pat) :
    decode w =
      if (r.build (fieldH w) (fieldL w) (fieldF w)).wf then
        .ok (r.build (fieldH w) (fieldL w) (fieldF w))
      else .error .reservedField := by
  have hfind : rows.find? (fun r => r.matchesWord w) = some r := by
    cases hf : rows.find? (fun r => r.matchesWord w) with
    | none => exact absurd (beq_iff_eq.2 hm) (List.find?_eq_none.1 hf r hr)
    | some r' =>
      have hm' : w &&& r'.mask = r'.pat := by
        simpa [Row.matchesWord] using List.find?_some hf
      rw [row_unique hr (List.mem_of_find?_eq_some hf) hm hm']
  simp only [decode, hfind]

/-- A word that no row matches is refused (R75). -/
theorem decode_of_no_match {w : Word} (hno : ∀ r ∈ rows, w &&& r.mask ≠ r.pat) :
    decode w = .error .illegalCommand := by
  have hfind : rows.find? (fun r => r.matchesWord w) = none :=
    List.find?_eq_none.2 fun r hr hm => hno r hr (beq_iff_eq.1 hm)
  simp only [decode, hfind]

/-- A decoded command comes from a row that matches, and is well formed. -/
theorem exists_row_of_decode {w : Word} {i : Instr} (hi : decode w = .ok i) :
    ∃ r ∈ rows, w &&& r.mask = r.pat ∧ r.build (fieldH w) (fieldL w) (fieldF w) = i ∧
      i.wf = true := by
  by_cases hex : ∃ r ∈ rows, w &&& r.mask = r.pat
  · obtain ⟨r, hr, hm⟩ := hex
    rw [decode_of_match hr hm] at hi
    split at hi
    · next hwf =>
      cases hi
      exact ⟨r, hr, hm, rfl, hwf⟩
    · cases hi
  · rw [decode_of_no_match fun r hr hm => hex ⟨r, hr, hm⟩] at hi
    cases hi

/-! The fields, put back where they were read (R71). -/

/-- The `n` bits from bit `k` up, taken out and put back in place. -/
theorem ofNat_bits_in_place (w : Word) (k n : Nat) :
    BitVec.ofNat 32 (w.toNat / 2 ^ k % 2 ^ n * 2 ^ k) =
      w &&& BitVec.ofNat 32 ((2 ^ n - 1) * 2 ^ k) := by
  refine BitVec.eq_of_getLsbD_eq fun i hi => ?_
  have hbit : w.toNat.testBit i = w.getLsbD i := rfl
  rw [BitVec.getLsbD_and, BitVec.getLsbD_ofNat, BitVec.getLsbD_ofNat, Nat.testBit_mul_two_pow,
    Nat.testBit_mul_two_pow]
  by_cases hk : k ≤ i
  · simp [Nat.testBit_mod_two_pow, Nat.testBit_div_two_pow, Nat.testBit_two_pow_sub_one, hi, hk, hbit,
      Bool.and_comm]
  · simp [hk]

/-- `h` is bits 11 to 8. -/
theorem putH_fieldH (w : Word) : putH (fieldH w) = w &&& 0xF00#32 :=
  ofNat_bits_in_place w 8 4

/-- `l` is bit 12. -/
theorem putL_fieldL (w : Word) : putL (fieldL w) = w &&& 0x1000#32 := by
  have hput : ∀ l : Bool, putL l = BitVec.ofNat 32 (l.toNat * 2 ^ 12) := by decide
  rw [hput, fieldL, BitVec.getLsbD, Nat.toNat_testBit]
  exact ofNat_bits_in_place w 12 1

/-- `f` is bits 15 to 13. -/
theorem putF_fieldF (w : Word) : putF (fieldF w) = w &&& 0xE000#32 := by
  rw [putF, fieldF, BitVec.extractLsb'_toNat, Nat.shiftRight_eq_div_pow]
  exact ofNat_bits_in_place w 13 3

/-- The encoding of a row's command is the row's pattern, with the word's own bits where the mask leaves
them free: no field bit is dropped. -/
theorem encode_build {r : Row} (hr : r ∈ rows) (w : Word) :
    encode (r.build (fieldH w) (fieldL w) (fieldF w)) = r.pat ||| (w &&& ~~~r.mask) := by
  revert r
  simp only [rows, List.forall_mem_cons, encode, putH_fieldH, putL_fieldL, putF_fieldF,
    BitVec.or_assoc, ← BitVec.and_or_distrib_left]
  simp

/-- A word that a row matches is the encoding of that row's command. -/
theorem encode_build_of_match {r : Row} (hr : r ∈ rows) {w : Word} (hm : w &&& r.mask = r.pat) :
    encode (r.build (fieldH w) (fieldL w) (fieldF w)) = w := by
  calc encode (r.build (fieldH w) (fieldL w) (fieldF w))
      = (w &&& r.mask) ||| (w &&& ~~~r.mask) := by rw [encode_build hr, hm]
    _ = w &&& (r.mask ||| ~~~r.mask) := BitVec.and_or_distrib_left.symm
    _ = w := by rw [BitVec.or_not_self, BitVec.and_allOnes]

/-- Settles O3: a decoded word matches a row, and its bits are the row's pattern and the fields; the
converse is command by command. -/
theorem decodeEncodeAgree : Obligations.DecodeEncodeAgree := by
  intro w i
  refine ⟨fun hi => ?_, fun ⟨hwf, henc⟩ => henc ▸ decode_encode i hwf⟩
  obtain ⟨r, hr, hm, rfl, hwf⟩ := exists_row_of_decode hi
  exact ⟨hwf, encode_build_of_match hr hm⟩

/-! The fields as numbers (R71). -/

theorem fieldL_eq (w : Word) : fieldL w = (w.toNat / 2 ^ 12 % 2 == 1) := by
  rw [fieldL, BitVec.getLsbD, Nat.testBit_eq_decide_div_mod_eq]
  rfl

theorem fieldF_eq (w : Word) : fieldF w = BitVec.ofNat 3 (w.toNat / 2 ^ 13) := by
  rw [fieldF, BitVec.extractLsb', Nat.shiftRight_eq_div_pow]

/-- Settles O2: the table's rows are the decoder's, at most one matches a word, and decoding builds the
command of the one that does. -/
theorem decodeFollowsTheTable : Obligations.DecodeFollowsTheTable := by
  intro w table h l f
  have htable : table = rows.map fun r => (r.pat, r.mask) := rfl
  have hl : fieldL w = l := fieldL_eq w
  have hf : fieldF w = f := fieldF_eq w
  have row := fun n (hn : n < rows.length) => decode_of_match (w := w) (List.getElem_mem hn)
  refine ⟨fun p hp q hq hwp hwq => ?_, fun hno => decode_of_no_match fun r hr => ?_,
    row 0 (by decide), fun hm => ?_, row 2 (by decide),
    fun e => e ▸ decode_encode .hwCapacity rfl, fun e => e ▸ decode_encode .acquire rfl,
    fun e => e ▸ decode_encode .release rfl, fun e => e ▸ decode_encode .hwModmul rfl,
    fun e => e ▸ decode_encode .hwMontmul rfl, row 8 (by decide), fun hm => ?_⟩
  · rw [htable, List.mem_map] at hp hq
    obtain ⟨r, hr, rfl⟩ := hp
    obtain ⟨r', hr', rfl⟩ := hq
    rw [row_unique hr hr' hwp hwq]
  · exact hno (r.pat, r.mask) (htable ▸ List.mem_map_of_mem hr)
  · have hread : decode w =
        if decide ((fieldF w).toNat < 5) then .ok (.ctxRead h (fieldF w))
        else .error .reservedField := row 1 (by decide) hm
    rw [hread, hf]
    by_cases hres : 5 ≤ f.toNat
    · rw [if_pos hres, if_neg (by simpa using hres)]
    · rw [if_neg hres, if_pos (by simpa using hres)]
  · rw [← hl]
    exact row 9 (by decide) hm

/-- Settles O1: the words are the encodings of their commands, and the refused ones match no row or name a
reserved selector. -/
theorem decodesWordsOfTheSpec : Obligations.DecodesWordsOfTheSpec :=
  ⟨decode_encode (.ctxBuild 15) rfl, decode_encode (.ctxRead 0 3#3) rfl,
    decode_encode (.ctxDestroy 15) rfl, decode_encode .hwCapacity rfl, decode_encode .acquire rfl,
    decode_encode .release rfl, decode_encode .hwModmul rfl, decode_encode .hwMontmul rfl,
    decode_encode (.mult 3) rfl, decode_encode (.exp 2 true) rfl,
    decode_of_no_match (by decide), by decide, decode_of_no_match (by decide),
    decode_of_no_match (by decide)⟩

end Sys2Proof
end

section
/-! Refusals (R30, R53, R203): a refusal's own mark stops its caller. -/

namespace Sys2Proof.Machine

/-- A caller that a mark stops has no enabled step (R30). -/
theorem enabled_eq_false_of_stopped (s : State) (c : Nat) (h : s.stopped c = true) :
    s.enabled c = false := by
  simp [State.enabled, h]

theorem refuseCmd_enabled (s : State) (k : RefusalKind) : (s.refuseCmd k).enabled s.cur = false :=
  enabled_eq_false_of_stopped _ _ ((stopped_eq_true_iff _ _).2
    (.inr ⟨_, List.mem_append_right _ List.mem_cons_self, rfl⟩))

theorem anyWider_eq_true_iff (h : Nat) (bs : List Buf) :
    anyWider h bs = true ↔ ∃ b ∈ bs, h < wc b := by
  simp only [anyWider, List.any_eq_true, decide_eq_true_eq]

theorem anyWider_eq_false_iff (h : Nat) (bs : List Buf) :
    anyWider h bs = false ↔ ∀ b ∈ bs, wc b ≤ h := by
  simp only [anyWider, List.any_eq_false, decide_eq_true_eq, Nat.not_lt]

/-! `OperandShape`, command by command (R203). -/

theorem execCtxBuild_operandShape (s : State) (h : SlotNo) (hv : (s.slot h).valid = false)
    (hA : wc s.op.A ≠ s.op.S) : execCtxBuild h s = .next (s.refuseCmd .operandShape) := by
  simp only [execCtxBuild, hv, hA, ne_eq, not_false_eq_true, if_true, Bool.false_eq_true, if_false]

theorem execHwModmul_operandShape (s : State) (hh : s.holder = some s.cur)
    (hwide : anyWider s.op.S [s.op.A, s.op.B, s.op.C, s.op.D] = true) :
    execHwModmul s = .next (s.refuseCmd .operandShape) := by
  simp only [execHwModmul, hh, hwide, ne_eq, not_true_eq_false, if_true, if_false]

theorem execHwMontmul_operandShape (s : State) (hh : s.holder = some s.cur)
    (hwide : anyWider s.op.S [s.op.A, s.op.B, s.op.C] = true) :
    execHwMontmul s = .next (s.refuseCmd .operandShape) := by
  simp only [execHwMontmul, hh, hwide, ne_eq, not_true_eq_false, if_true, if_false]

theorem execMult_operandShape (s : State) (h : SlotNo) (hv : (s.slot h).valid = true)
    (hwide : multShape h s = true) : execMult h s = .next (s.refuseCmd .operandShape) := by
  simp only [execMult, hv, hwide, Bool.not_true, Bool.false_eq_true, if_true, if_false]

theorem execExp_operandShape (s : State) (h : SlotNo) (l : Bool) (hv : (s.slot h).valid = true)
    (hq : s.me.seq = .idle) (hwide : anyWider (s.slot h).hw [s.op.A] = true) :
    execExp h l s = .next (s.refuseCmd .operandShape) := by
  simp only [execExp, hq, expStart, hv, hwide, Bool.not_true, Bool.false_eq_true, if_true, if_false]

/-- A word that does not decode is refused when it is fetched (R75, R203). -/
theorem step_of_decode_error (s : State) (c : Nat) (cmd : Command) (e : DecodeError)
    (hc : s.nextCaller = some c) (hq : (s.caller c).seq = .idle)
    (hcmd : (s.caller c).stream[(s.caller c).cp]? = some cmd) (he : decode cmd.word = .error e) :
    step s = .next ((s.scheduled c).refuseCmd (refusalOf e)) := by
  rw [step_eq_stepOf s c hc]
  have hnext : (s.scheduled c).nextOf c = some (decode cmd.word) := nextOf_idle _ c cmd hq hcmd
  exact stepOf_error _ c e (by rw [hnext, he])

/-- Settles O50: each cause ends in `refuseCmd`, whose record stops the caller. -/
theorem refusalsRecordAndStop : Obligations.RefusalsRecordAndStop := by
  refine ⟨fun s c cmd e hc hq hcmd he => ?_, fun s h l i hcause => ?_⟩
  · refine ⟨_, step_of_decode_error s c cmd e hc hq hcmd he, ?_, refuseCmd_enabled (s.scheduled c) _⟩
    cases e <;> rfl
  · suffices hexec : exec i s = .next (s.refuseCmd .operandShape) from
      ⟨_, hexec, rfl, refuseCmd_enabled s _⟩
    rcases hcause with ⟨rfl, hv, hA⟩ | ⟨rfl, hh, hwide⟩ | ⟨rfl, hh, hwide⟩ | ⟨rfl, hv, hwide⟩ |
      ⟨rfl, hv, hq, hwide⟩
    · exact execCtxBuild_operandShape s h hv hA
    · exact execHwModmul_operandShape s hh ((anyWider_eq_true_iff _ _).2 (by simpa using hwide))
    · exact execHwMontmul_operandShape s hh ((anyWider_eq_true_iff _ _).2 (by simpa using hwide))
    · exact execMult_operandShape s h hv ((anyWider_eq_true_iff _ _).2 (by simpa using hwide))
    · exact execExp_operandShape s h l hv hq ((anyWider_eq_true_iff _ _).2 (by simpa using hwide))

/-- Settles O48: the codes are read off the table of R201. -/
theorem statusCodes : Obligations.StatusCodes := ⟨rfl, rfl, rfl, rfl⟩

end Sys2Proof.Machine
end

section
/-! MULT against ACQUIRE, HW_MODMUL, RELEASE (R129): two states that show the multiplier alike stay so
through the acquire, the multiply and the release, whatever ends of commands lie between. -/

namespace Sys2Proof.Machine

/-- The two states are alike in what a multiply reads and writes: the parameters, the caller, the lock, the
counters, the draws, and the history but for the ends of commands. -/
structure MultiplierAlike (s u : State) : Prop where
  cfg : u.cfg = s.cfg
  cur : u.cur = s.cur
  lock : SameLock s u
  draws : u.draws = s.draws
  evt : u.evt.filter (fun e => !e.isRet) = s.evt.filter (fun e => !e.isRet)

/-- The end of a command is no part of what the multiplier shows. -/
theorem filter_evt_retCmd (s : State) (st : Status) (v : RetValue) :
    (s.retCmd st v).evt.filter (fun e => !e.isRet) = s.evt.filter (fun e => !e.isRet) := by
  rw [State.retCmd_evt, List.filter_append]
  exact List.append_nil _

theorem MultiplierAlike.retCmd_left {s u : State} (h : MultiplierAlike s u) (st : Status)
    (v : RetValue) : MultiplierAlike (s.retCmd st v) u :=
  ⟨h.cfg, h.cur, ⟨h.lock.holder, h.lock.hwEn, h.lock.acqCount, h.lock.relCount⟩, h.draws,
    h.evt.trans (filter_evt_retCmd s st v).symm⟩

theorem MultiplierAlike.retCmd_right {s u : State} (h : MultiplierAlike s u) (st : Status)
    (v : RetValue) : MultiplierAlike s (u.retCmd st v) :=
  ⟨h.cfg, h.cur, ⟨h.lock.holder, h.lock.hwEn, h.lock.acqCount, h.lock.relCount⟩, h.draws,
    (filter_evt_retCmd u st v).trans h.evt⟩

theorem MultiplierAlike.retMultiply_left {s u : State} (h : MultiplierAlike s u) (v : Option Buf) :
    MultiplierAlike (s.retMultiply v) u := by
  cases v <;> exact h.retCmd_left _ _

theorem MultiplierAlike.retMultiply_right {s u : State} (h : MultiplierAlike s u) (v : Option Buf) :
    MultiplierAlike s (u.retMultiply v) := by
  cases v <;> exact h.retCmd_right _ _

/-- The acquire makes the enable alike, whatever it was before. -/
theorem multiplierAlike_acquireLock {s u : State} (hcfg : u.cfg = s.cfg) (hcur : u.cur = s.cur)
    (hacq : u.acqCount = s.acqCount) (hrel : u.relCount = s.relCount) (hdraws : u.draws = s.draws)
    (hevt : u.evt = s.evt) : MultiplierAlike s.acquireLock u.acquireLock :=
  ⟨hcfg, hcur, ⟨by simp [hcur], rfl, by simp [hacq], hrel⟩, hdraws, by simp [hevt, hcur]⟩

theorem MultiplierAlike.releaseLock {s u : State} (h : MultiplierAlike s u) :
    MultiplierAlike s.releaseLock u.releaseLock :=
  ⟨h.cfg, h.cur, ⟨rfl, rfl, h.lock.acqCount, by simp [h.lock.relCount]⟩, h.draws,
    by simp [h.evt, h.cur]⟩

theorem MultiplierAlike.setDraws {s u : State} (h : MultiplierAlike s u) (d : Draws) :
    MultiplierAlike (s.setDraws d) (u.setDraws d) :=
  ⟨h.cfg, h.cur, ⟨h.lock.holder, h.lock.hwEn, h.lock.acqCount, h.lock.relCount⟩, rfl, h.evt⟩

theorem MultiplierAlike.emit {s u : State} (h : MultiplierAlike s u) (e : Event) :
    MultiplierAlike (s.emit e) (u.emit e) :=
  ⟨h.cfg, h.cur, ⟨h.lock.holder, h.lock.hwEn, h.lock.acqCount, h.lock.relCount⟩, h.draws,
    by simp [h.evt]⟩

/-- The multiply gives the same value and event from the same draws (R122, R123). -/
theorem MultiplierAlike.hwResult {s u t : State} (h : MultiplierAlike s u) {ps : Passes}
    {X Y M D : Buf} {p : Word} {n : Nat} {v : Option Buf} (hr : HwResult s ps X Y M D p n v t) :
    ∃ t', HwResult u ps X Y M D p n v t' ∧ MultiplierAlike t t' := by
  cases hr with
  | unsizable hu => exact ⟨u, .unsizable (by rwa [h.cfg]), h⟩
  | badSizing hu hz =>
    exact ⟨_, .badSizing (by rwa [h.cfg]) (by rwa [h.draws]), h.draws ▸ h.setDraws _⟩
  | value hu hz r d hv hwc =>
    exact ⟨_, .value (by rwa [h.cfg]) (by rwa [h.draws]) r d (by rwa [h.cfg, h.draws]) hwc,
      h.cur ▸ (h.setDraws d).emit _⟩

/-- A multiply ends in no other way than its result says. -/
theorem HwResult.hwMultiply_eq {s t : State} {ps : Passes} {X Y M D : Buf} {p : Word} {h : Nat}
    {v : Option Buf} (hr : HwResult s ps X Y M D p h v t) :
    s.hwMultiply ps X Y M D p h = (v, t) := by
  cases hr <;> simp [State.hwMultiply, *]

/-- The return record of a multiply that ends with this value (R126 to R128). -/
def multiplyRecord : Option Buf → RetRecord
  | some r => { status := .ok, value := .buffer r }
  | none => { status := .hardwareFault, value := .none }

theorem NoReturn.retMultiply_ret {s t : State} (h : NoReturn s t) (hc : s.cur < s.callers.length)
    (v : Option Buf) : ((t.retMultiply v).caller s.cur).ret = multiplyRecord v := by
  have hret : ∀ st w, ((t.retCmd st w).caller s.cur).ret = { status := st, value := w } := fun st w => by
    rw [t.retCmd_caller st w s.cur (by rwa [h.cur, h.callers]), if_pos h.cur.symm]
  cases v <;> exact hret _ _

/-! The three commands and MULT on their successful paths (R124 to R126, R128). -/

theorem exec_acquire_of_free {s : State} (hh : s.holder = none) :
    exec .acquire s = .next (s.acquireLock.retCmd .ok .none) := by
  simp [exec, execAcquire, State.held, hh]

theorem exec_release_of_holder {s : State} (hh : s.holder = some s.cur) :
    exec .release s = .next (s.releaseLock.retCmd .ok .none) :=
  if_pos hh

theorem exec_mult_of_free {s t : State} {h : SlotNo} {v : Option Buf}
    (hv : (s.slot h).valid = true) (hfits : multShape h s = false) (hh : s.holder = none)
    (hr : HwResult s.acquireLock .two s.op.A s.op.B (s.slot h).M (s.slot h).Rinv (s.slot h).mprime
      (s.slot h).hw v t) :
    exec (.mult h) s = .next (t.releaseLock.retMultiply v) := by
  simp [exec, execMult, multBody, State.held, hv, hfits, hh, hr.hwMultiply_eq]

theorem exec_hwModmul_of_holder {s t : State} {v : Option Buf} (hh : s.holder = some s.cur)
    (hfits : anyWider s.op.S [s.op.A, s.op.B, s.op.C, s.op.D] = false)
    (hr : HwResult s .two s.op.A s.op.B s.op.C s.op.D s.op.P s.op.S v t) :
    exec .hwModmul s = .next (t.retMultiply v) := by
  simp [exec, execHwModmul, hh, hfits, hr.hwMultiply_eq]

@[simp] theorem State.retMultiply_holder (s : State) (v : Option Buf) :
    (s.retMultiply v).holder = s.holder := by cases v <;> rfl

@[simp] theorem State.retMultiply_cur (s : State) (v : Option Buf) :
    (s.retMultiply v).cur = s.cur := by cases v <;> rfl

theorem op_eq_of_command {s : State} {cmd : Command} (hcmd : s.me.stream[s.me.cp]? = some cmd) :
    s.op = cmd.op := by
  simp only [State.op, hcmd]

/-- After its ACQUIRE returns, the caller's operands are those of the next command of its stream (R72). -/
theorem op_acquire_retCmd {u : State} {cmd : Command} (hu : u.cur < u.callers.length)
    (hcmd : (u.caller u.cur).stream[(u.caller u.cur).cp + 1]? = some cmd) :
    (u.acquireLock.retCmd .ok .none).op = cmd.op :=
  op_eq_of_command (by rw [(noReturn_acquireLock u).retCmd_me hu]; exact hcmd)

/-- A caller that holds the multiplier still holds it after a multiply. -/
theorem HwResult.holder_retMultiply {s t : State} {ps : Passes} {X Y M D : Buf} {p : Word} {h : Nat}
    {v : Option Buf} (hr : HwResult s ps X Y M D p h v t) (hh : s.holder = some s.cur) :
    (t.retMultiply v).holder = some (t.retMultiply v).cur := by
  obtain ⟨-, -, hholder, -, -, -, -, -, -, hcur, -⟩ := hr.frame
  rw [t.retMultiply_holder, t.retMultiply_cur, hholder, hcur, hh]

/-- Settles O34: the two runs show the multiplier alike after each of acquire, multiply and release. -/
theorem multRefinesThePrimitiveSequence : Obligations.MultRefinesThePrimitiveSequence := by
  intro s u h cmd hs hv hctx hA hB hfree hcfg hcur hlen hholder hacq hrel hevt hdraws hcmd
    hcmdA hcmdB hcmdC hcmdD hcmdP hcmdS
  have hu : u.cur < u.callers.length := by rw [hcur, hlen]; exact hs
  have hacquired : MultiplierAlike s.acquireLock (u.acquireLock.retCmd .ok .none) :=
    (multiplierAlike_acquireLock hcfg hcur hacq hrel hdraws hevt).retCmd_right _ _
  obtain ⟨v, t, hr⟩ : ∃ v t, HwResult s.acquireLock .two s.op.A s.op.B (s.slot h).M (s.slot h).Rinv
      (s.slot h).mprime (s.slot h).hw v t := ⟨_, _, hwMultiply_result _ _ _ _ _ _ _ _⟩
  obtain ⟨t', hr', hmultiplied⟩ := hacquired.hwResult hr
  have hmult := exec_mult_of_free hv ((anyWider_eq_false_iff _ _).2 (by simp [hA, hB])) hfree hr
  have hmodmul : exec .hwModmul (u.acquireLock.retCmd .ok .none) = .next (t'.retMultiply v) := by
    have hwM : wc (s.slot h).M ≤ (s.slot h).hw := hctx.wc_M ▸ hctx.wc_le_hw
    have hop := op_acquire_retCmd hu hcmd
    refine exec_hwModmul_of_holder rfl ?_ ?_ <;>
      rw [hop, hcmdA, hcmdB, hcmdC, hcmdD, hcmdS]
    · exact (anyWider_eq_false_iff _ _).2 (by simp [hA, hB, hwM, hctx.wc_Rinv])
    · rwa [hcmdP]
  have hrelease := exec_release_of_holder (hr'.holder_retMultiply rfl)
  have hret := hr.noReturn_of_acquireLock.retMultiply_ret hs v
  have hret' := hr'.noReturn.retMultiply_ret (by simpa using hu) v
  have hend :=
    ((hmultiplied.retMultiply_right v).releaseLock.retMultiply_left v).retCmd_right .ok .none
  exact ⟨_, _, _, _, hmult, exec_acquire_of_free (hholder.trans hfree), hmodmul, hrelease,
    hret.trans hret'.symm, hend.lock.holder.symm, hend.lock.hwEn.symm, hend.lock.acqCount.symm,
    hend.lock.relCount.symm, hend.draws.symm, hend.evt.symm⟩

end Sys2Proof.Machine
end

section
/-! The arithmetic of the context (R100, R101, R102): the capacity, the constant of the modulus and the
squared radix. -/

namespace Sys2Proof.Machine

/-! The capacity (R100). -/

theorem cap_eq_mul_ceilDiv (G n : Nat) : cap G n = G * (n ⌈/⌉ G) := rfl

/-- The division rounded up is the ceiling of the rational quotient. -/
theorem ceil_rat_div (G n : Nat) (hG : 1 ≤ G) : ⌈(n : ℚ) / (G : ℚ)⌉₊ = n ⌈/⌉ G := by
  refine eq_of_forall_ge_iff fun k => ?_
  have hpos : (0 : ℚ) < G := by exact_mod_cast hG
  rw [Nat.ceil_le, ceilDiv_le_iff_le_mul hG, div_le_iff₀' hpos]
  norm_cast

theorem cap_mono (G n m : Nat) (h : n ≤ m) : cap G n ≤ cap G m :=
  Nat.mul_le_mul_left G (Nat.div_le_div_right (by omega))

/-- A multiple of the granularity is its own capacity. -/
theorem cap_mul (G k : Nat) (hG : 1 ≤ G) : cap G (G * k) = G * k := by
  rw [cap_eq_mul_ceilDiv]
  exact congrArg (G * ·) (smul_ceilDiv hG k)

/-- Settles O15: the capacity is the granularity times the quotient rounded up, and a multiple of the
granularity is its own capacity. -/
theorem capRoundsUpToTheGranularity : Obligations.CapRoundsUpToTheGranularity := by
  refine ⟨fun G hG => ⟨fun n => ?_, cap_mul G 0 hG, fun n => le_cap G n hG, cap_mono G,
    fun n => Nat.dvd_mul_right G _, fun n => cap_mul G _ hG⟩, by decide⟩
  rw [ceil_rat_div G n hG, cap_eq_mul_ceilDiv]

/-! The constant of the modulus (R101). -/

/-- Only one word times `m0` is `-1`. -/
theorem eq_mprimeOf (m0 p : Word) (hodd : m0.toNat % 2 = 1) (hp : m0 * p = -1) :
    p = mprimeOf m0 := by
  have hq := mul_mprimeOf m0 hodd
  calc p = -(m0 * mprimeOf m0) * p := by rw [hq]; ring
    _ = -(m0 * p) * mprimeOf m0 := by ring
    _ = mprimeOf m0 := by rw [hp]; ring

/-- `x` is correct in its `k` low bits exactly when `2^k` divides the error `1 - m0·x`. -/
theorem correctBits_iff (m0 x : Word) (k : Nat) :
    m0.toNat * x.toNat % 2 ^ k = 1 % 2 ^ k ↔ (2 : ℤ) ^ k ∣ 1 - (m0.toNat : ℤ) * x.toNat := by
  rw [← Int.modEq_iff_dvd]
  exact_mod_cast (Int.natCast_modEq_iff (a := m0.toNat * x.toNat) (b := 1) (n := 2 ^ k)).symm

theorem toNat_mul_modEq (a b : Word) : ((a * b).toNat : ℤ) ≡ a.toNat * b.toNat [ZMOD 2 ^ 32] := by
  rw [BitVec.toNat_mul]
  exact_mod_cast Nat.mod_modEq (a.toNat * b.toNat) (2 ^ 32)

theorem toNat_sub_modEq (a b : Word) : ((a - b).toNat : ℤ) ≡ a.toNat - b.toNat [ZMOD 2 ^ 32] := by
  have hb := b.isLt
  rw [BitVec.toNat_sub, Int.ModEq]
  omega

/-- One Newton iteration on the numbers the words hold, up to the word. -/
theorem newton_toNat_modEq (m0 x : Word) :
    ((newton m0 x).toNat : ℤ) ≡ x.toNat * (2 - m0.toNat * x.toNat) [ZMOD 2 ^ 32] :=
  (toNat_mul_modEq x (2#32 - m0 * x)).trans
    (((toNat_sub_modEq 2#32 (m0 * x)).trans ((toNat_mul_modEq m0 x).sub_left 2)).mul_left x.toNat)

/-- One Newton iteration squares the error, so it doubles the correct bits, up to the width of the word
(R101). -/
theorem newton_correctBits (m0 x : Word) (k : Nat) (hk : 2 * k ≤ 32)
    (hx : m0.toNat * x.toNat % 2 ^ k = 1 % 2 ^ k) :
    m0.toNat * (newton m0 x).toNat % 2 ^ (2 * k) = 1 % 2 ^ (2 * k) := by
  rw [correctBits_iff] at hx ⊢
  have hsquare : (2 : ℤ) ^ (2 * k) ∣ (1 - m0.toNat * x.toNat) ^ 2 := by
    rw [Nat.mul_comm, pow_mul]; exact pow_dvd_pow_of_dvd hx 2
  have hnewton := ((newton_toNat_modEq m0 x).of_dvd (pow_dvd_pow 2 hk)).dvd
  have herror : 1 - (m0.toNat : ℤ) * (newton m0 x).toNat = (1 - m0.toNat * x.toNat) ^ 2 +
      m0.toNat * (x.toNat * (2 - m0.toNat * x.toNat) - (newton m0 x).toNat) := by ring
  rw [herror]
  exact hsquare.add (hnewton.mul_left _)

/-- The product of odd words is odd. -/
theorem odd_mul_toNat (m0 x : Word) (hodd : m0.toNat % 2 = 1) (hx : x.toNat % 2 = 1) :
    m0.toNat * x.toNat % 2 = 1 := by
  rw [Nat.mul_mod, hodd, hx]

theorem odd_mul_self_mod_eight (n : Nat) (hodd : n % 2 = 1) : n * n % 8 = 1 := by
  have hdvd := Nat.eight_dvd_sq_sub_one_of_odd (Nat.odd_iff.2 hodd)
  have hpos : 0 < n * n := Nat.mul_pos (by omega) (by omega)
  rw [pow_two] at hdvd
  omega

/-- Five iterations from an odd start end at the inverse of `m0`: one correct bit, doubled five times
(R101). -/
theorem mul_newton_five (m0 x : Word) (hodd : m0.toNat % 2 = 1) (hx : x.toNat % 2 = 1) :
    m0 * newton m0 (newton m0 (newton m0 (newton m0 (newton m0 x)))) = 1 := by
  have h1 := newton_correctBits m0 x 1 (by decide) (odd_mul_toNat m0 x hodd hx)
  have h2 := newton_correctBits m0 _ 2 (by decide) h1
  have h4 := newton_correctBits m0 _ 4 (by decide) h2
  have h8 := newton_correctBits m0 _ 8 (by decide) h4
  have h16 := newton_correctBits m0 _ 16 (by decide) h8
  exact BitVec.eq_of_toNat_eq ((BitVec.toNat_mul _ _).trans h16)

/-- Settles O16: the constant is the one word that times `m0` is `-1`, and an odd start ends at the inverse
because each iteration doubles its correct bits. -/
theorem mprimeIsTheUniqueConstant : Obligations.MprimeIsTheUniqueConstant := by
  intro m0 hodd
  refine ⟨fun M hM => mul_mprimeOf_toNat M m0 hM hodd, fun p hp => ?_, newton_correctBits m0,
    fun x => odd_mul_toNat m0 x hodd, odd_mul_self_mod_eight _ hodd, fun x hx => ?_⟩
  · exact eq_mprimeOf m0 p hodd (BitVec.eq_of_toNat_eq ((BitVec.toNat_mul _ _).trans hp))
  · exact eq_mprimeOf m0 _ hodd (by rw [mul_neg, mul_newton_five m0 x hodd hx])

/-! The squared radix (R102). -/

/-- Word `i` of `buf_h(v)` is the `i`-th digit of `v` in base `2^32`. -/
theorem bufOf_getElem? (h v i : Nat) (hi : i < h) :
    (bufOf h v)[i]? = some (BitVec.ofNat 32 (v / 2 ^ (32 * i))) := by
  induction h generalizing v i with
  | zero => exact absurd hi (Nat.not_lt_zero i)
  | succ h ih =>
    cases i with
    | zero => simp [bufOf]
    | succ i =>
      rw [bufOf, List.getElem?_cons_succ, ih _ i (by omega), Nat.div_div_eq_div_mul, ← Nat.pow_add]
      congr 4
      omega

/-- Settles O17: the residue is below the modulus, so it fits its words and leaves the words above zero. -/
theorem rinvIsTheSquaredRadix : Obligations.RinvIsTheSquaredRadix := by
  intro M n hw hodd hM hn
  have hlt : rinvNat M hw < 2 ^ (32 * n) := (Nat.mod_lt _ (by omega)).trans hM
  have hfits : rinvNat M hw < 2 ^ (32 * hw) :=
    hlt.trans_le (Nat.pow_le_pow_right (by decide) (by omega))
  have hval : val (rinvOf M hw) = radixR hw % M := val_bufOf _ _ hfits
  refine ⟨wc_bufOf _ _, hval, ?_, fun i hi hlast => ?_, ?_⟩
  · rw [hval, radixR_eq, pow_two]
  · have hdigit : rinvNat M hw / 2 ^ (32 * i) = 0 :=
      Nat.div_eq_of_lt (hlt.trans_le (Nat.pow_le_pow_right (by decide) (by omega)))
    rw [rinvOf, bufOf_getElem? _ _ _ hlast, hdigit]
  · rintro rfl
    rw [hval, Nat.mod_one]

end Sys2Proof.Machine
end

section
/-! The words of the context commands (R71, R103 to R106). -/

namespace Sys2Proof

theorem ofNat_shiftLeft (n k : Nat) : BitVec.ofNat 32 n <<< k = BitVec.ofNat 32 (n * 2 ^ k) :=
  BitVec.eq_of_toNat_eq (by simp [Nat.shiftLeft_eq])

/-- The slot number in its place in the word is the encoder's. -/
theorem slot_shiftLeft (h : SlotNo) : BitVec.ofNat 32 h.val <<< 8 = putH h := ofNat_shiftLeft _ _

/-- The selector in its place in the word is the encoder's. -/
theorem selector_shiftLeft (f : BitVec 3) : BitVec.ofNat 32 f.toNat <<< 13 = putF f :=
  ofNat_shiftLeft _ _

end Sys2Proof
end

section
/-! The context commands (R103 to R108): their outcomes case by case, what their returns leave unchanged,
and that they leave the multiplier alone. -/

namespace Sys2Proof.Machine

/-- What a return does to the callers, whatever was done before it that is no return (R11, R27, R37). -/
theorem NoReturn.returned {s t : State} (h : NoReturn s t) (hc : s.cur < s.callers.length)
    (st : Status) (v : RetValue) : Returned s (t.retCmd st v) st v := by
  have hme : (t.retCmd st v).caller s.cur =
      { s.me with ret := { status := st, value := v }, cp := s.me.cp + 1, seq := .idle } := by
    rw [← h.retCmd_me hc st v, State.me, State.retCmd_cur, h.cur]
  exact {
    ret := by rw [hme]
    cp := by rw [hme]; rfl
    idle := by rw [hme]
    stream := by rw [hme]; rfl
    others := (CallerEffect.returns t st v h).others
    number := (CallerEffect.returns t st v h).frame.2.2 }

/-- A command that only returns changes nothing but the return. -/
theorem retCmd_frame (s : State) (hc : s.cur < s.callers.length) (st : Status) (v : RetValue) :
    Returned s (s.retCmd st v) st v ∧ SameSlots s (s.retCmd st v) ∧ SameLock s (s.retCmd st v) ∧
      SameMarks s (s.retCmd st v) ∧ (s.retCmd st v).draws = s.draws ∧
      (s.retCmd st v).evt = s.evt ++ [.ret s.cur st] :=
  ⟨(NoReturn.refl s).returned hc st v, fun _ => rfl, ⟨rfl, rfl, rfl, rfl⟩,
    ⟨rfl, rfl, rfl, rfl, rfl⟩, rfl, rfl⟩

/-- The order in which slot and draws are written is no matter. -/
theorem setSlot_setDraws_comm (s : State) (h : SlotNo) (k : Slot) (d : Draws) :
    (s.setSlot h k).setDraws d = (s.setDraws d).setSlot h k := rfl

/-- A command that writes slot `h` and the draws and returns leaves the other slots, the lock and the
marks. -/
theorem setSlot_retCmd_frame (s : State) (hc : s.cur < s.callers.length) (h : SlotNo) (k : Slot)
    (d : Draws) (st : Status) (v : RetValue) :
    let t := ((s.setDraws d).setSlot h k).retCmd st v
    Returned s t st v ∧ t.slot h = k ∧ SameSlotsBut h s t ∧ SameLock s t ∧ SameMarks s t := by
  refine ⟨((noReturn_setDraws s d).trans (noReturn_setSlot _ h k)).returned hc st v, ?_,
    fun g hg => ?_, ⟨rfl, rfl, rfl, rfl⟩, ⟨rfl, rfl, rfl, rfl, rfl⟩⟩
  · rw [State.retCmd_slot, State.setSlot_slot, if_pos rfl]
  · rw [State.retCmd_slot, State.setSlot_slot, if_neg hg, State.setDraws_slot]

/-- A command that leaves its caller's record does not return. -/
theorem not_returned_of_caller_eq {s t : State} (ht : t.caller s.cur = s.caller s.cur) (st : Status)
    (v : RetValue) : ¬ Returned s t st v := fun h => by
  have hcp := h.cp
  rw [ht] at hcp
  omega

theorem not_returned_raiseFault (s : State) (k : FaultKind) (st : Status) (v : RetValue) :
    ¬ Returned s (s.raiseFault k) st v := not_returned_of_caller_eq (s.raiseFault_caller k s.cur) st v

theorem not_returned_refuseCmd (s : State) (k : RefusalKind) (st : Status) (v : RetValue) :
    ¬ Returned s (s.refuseCmd k) st v := not_returned_of_caller_eq (s.refuseCmd_caller k s.cur) st v

/-- A command returns one status only. -/
theorem NoReturn.not_returned {s t : State} (h : NoReturn s t) (hc : s.cur < s.callers.length)
    {st st' : Status} (hst : st ≠ st') (v v' : RetValue) : ¬ Returned s (t.retCmd st v) st' v' :=
  fun h' => hst (congrArg RetRecord.status ((h.returned hc st v).ret.symm.trans h'.ret))

/-! HW_CAPACITY (R103). -/

/-- Settles O21: the command is a return of the capacity and nothing else. -/
theorem hwCapacityReturnsTheCapacity : Obligations.HwCapacityReturnsTheCapacity :=
  ⟨decode_encode .hwCapacity rfl, fun s hc => ⟨_, rfl, retCmd_frame s hc _ _⟩⟩

/-! CTX_READ (R105). -/

/-- The selectors of R76. -/
theorem slotField_of_lt (k : Slot) (f : BitVec 3) (hf : f.toNat < 5) :
    ∃ v, slotField k f = some v ∧ (f.toNat = 0 → v = .scalar k.wc) ∧ (f.toNat = 1 → v = .scalar k.hw) ∧
      (f.toNat = 2 → v = .scalar k.mprime.toNat) ∧ (f.toNat = 3 → v = .buffer k.Rinv) ∧
      (f.toNat = 4 → v = .buffer k.M) := by
  obtain hf | hf | hf | hf | hf :
      f = 0#3 ∨ f = 1#3 ∨ f = 2#3 ∨ f = 3#3 ∨ f = 4#3 := by bv_omega
  all_goals
    subst hf
    exact ⟨_, rfl, by simp⟩

theorem exec_ctxRead_of_valid {s : State} {h : SlotNo} {f : BitVec 3} {v : RetValue}
    (hv : (s.slot h).valid = true) (hf : slotField (s.slot h) f = some v) :
    exec (.ctxRead h f) s = .next (s.retCmd .ok v) := by
  simp only [exec, execCtxRead, hf, hv, if_true]

theorem exec_ctxRead_of_invalid {s : State} {h : SlotNo} {f : BitVec 3} {v : RetValue}
    (hv : (s.slot h).valid = false) (hf : slotField (s.slot h) f = some v) :
    exec (.ctxRead h f) s = .next (s.raiseFault .badContext) := by
  simp only [exec, execCtxRead, hf, hv, Bool.false_eq_true, if_false]

/-- Settles O23: a selector that decodes names a field, which is returned if the slot is valid. -/
theorem ctxReadReturnsTheField : Obligations.CtxReadReturnsTheField := by
  refine ⟨fun h f hf => ?_, fun s h f hc hf => ?_⟩
  · rw [slot_shiftLeft, selector_shiftLeft]
    exact decode_encode (.ctxRead h f) (decide_eq_true hf)
  · obtain ⟨v, hfield, hnames⟩ := slotField_of_lt (s.slot h) f hf
    cases hv : (s.slot h).valid with
    | true =>
      obtain ⟨hret, hslots, hlock, hmarks, hdraws, hevt⟩ := retCmd_frame s hc .ok v
      exact ⟨_, exec_ctxRead_of_valid hv hfield, v, hret, hslots, hlock, hmarks, hdraws, hevt, hnames⟩
    | false => exact ⟨_, exec_ctxRead_of_invalid hv hfield, rfl⟩

/-! CTX_DESTROY (R106). -/

theorem exec_ctxDestroy_of_invalid {s : State} {h : SlotNo} (hv : (s.slot h).valid = false) :
    exec (.ctxDestroy h) s = .next (s.raiseFault .badContext) := by
  simp only [exec, execCtxDestroy, hv, Bool.false_eq_true, if_false]

theorem exec_ctxDestroy_of_borrowed {s : State} {h : SlotNo} (hv : (s.slot h).valid = true)
    (hb : 0 < (s.slot h).borrows) :
    exec (.ctxDestroy h) s = .next (s.raiseFault .contextBusy) := by
  simp only [exec, execCtxDestroy, hv, hb, if_true]

theorem exec_ctxDestroy_of_free {s : State} {h : SlotNo} (hv : (s.slot h).valid = true)
    (hb : ¬ 0 < (s.slot h).borrows) :
    exec (.ctxDestroy h) s =
      .next (((s.setDraws s.draws.next.next.next).setSlot h
        (destroyedSlot s.draws.taken (s.slot h))).retCmd .ok .none) := by
  simp only [exec, execCtxDestroy, hv, hb, if_true, if_false, setSlot_setDraws_comm]

/-- Settles O24: the two faults, then the destruction of a slot in no use. -/
theorem ctxDestroyClearsValid : Obligations.CtxDestroyClearsValid := by
  refine ⟨fun h => slot_shiftLeft h ▸ decode_encode (.ctxDestroy h) rfl, fun s h hc => ?_⟩
  cases hv : (s.slot h).valid with
  | false => exact ⟨_, exec_ctxDestroy_of_invalid hv, rfl⟩
  | true =>
    simp only [Bool.true_eq_false, if_false]
    by_cases hb : 0 < (s.slot h).borrows
    · exact ⟨_, exec_ctxDestroy_of_borrowed hv hb, by rw [if_pos hb]; rfl⟩
    · obtain ⟨hret, hslot, hothers, hlock, hmarks⟩ := setSlot_retCmd_frame s hc h
        (destroyedSlot s.draws.taken (s.slot h)) s.draws.next.next.next .ok .none
      refine ⟨_, exec_ctxDestroy_of_free hv hb, ?_⟩
      rw [if_neg hb]
      exact ⟨hret, by rw [hslot]; rfl, by rw [hslot]; rfl, hothers, hlock, hmarks, rfl⟩

/-! CTX_BUILD (R104). -/

theorem badModulus_iff (A : Buf) :
    badModulus A = true ↔ wc A = 0 ∨ (A.headD 0#32).toNat % 2 = 0 := by
  cases A <;> simp [badModulus, wc]

theorem exec_ctxBuild_of_valid {s : State} {h : SlotNo} (hv : (s.slot h).valid = true) :
    exec (.ctxBuild h) s = .next (s.raiseFault .slotInUse) := by
  simp only [exec, execCtxBuild, hv, if_true]

theorem exec_ctxBuild_of_badModulus {s : State} {h : SlotNo} (hv : (s.slot h).valid = false)
    (hA : wc s.op.A = s.op.S) (hm : badModulus s.op.A = true) :
    exec (.ctxBuild h) s = .next (s.retCmd .invalidModulus .none) := by
  simp only [exec, execCtxBuild, hv, hA, hm, ne_eq, not_true_eq_false, Bool.false_eq_true, if_true,
    if_false]

theorem exec_ctxBuild_of_buildable {s : State} {h : SlotNo} (hv : (s.slot h).valid = false)
    (hA : wc s.op.A = s.op.S) (hm : badModulus s.op.A = false) :
    exec (.ctxBuild h) s = .next (buildContext h s) := by
  simp only [exec, execCtxBuild, hv, hA, hm, ne_eq, not_true_eq_false, Bool.false_eq_true, if_false]

theorem buildContext_of_alloc {s : State} (h : SlotNo) (hd : s.draws.allocOkValue = true) :
    buildContext h s =
      ((s.setDraws s.draws.tookAllocOk).setSlot h (builtSlot s.cfg s.op.A)).retCmd .ok .none :=
  if_pos hd

theorem buildContext_of_no_alloc {s : State} (h : SlotNo) (hd : ¬ s.draws.allocOkValue = true) :
    buildContext h s = (s.setDraws s.draws.tookAllocOk).retCmd .allocationFailure .none :=
  if_neg hd

/-- R101 of the context CTX_BUILD writes, in the least word of the modulus. -/
theorem headD_mul_mprime_builtSlot (cfg : Config) (A : Buf) (hA : badModulus A = false) :
    (A.headD 0#32).toNat * (builtSlot cfg A).mprime.toNat % 2 ^ 32 = 2 ^ 32 - 1 := by
  obtain ⟨m0, ws, rfl, hodd⟩ := exists_cons_of_badModulus A hA
  exact mul_mprimeOf_toNat m0.toNat m0 (Nat.mod_eq_of_lt m0.isLt) hodd

/-- Settles O22: the outcomes in the order of R206; the context written is as R23 makes it. -/
theorem ctxBuildWritesTheContext : Obligations.CtxBuildWritesTheContext := by
  refine ⟨fun h => slot_shiftLeft h ▸ decode_encode (.ctxBuild h) rfl, fun s h hc hG => ?_⟩
  cases hv : (s.slot h).valid with
  | true => exact ⟨_, exec_ctxBuild_of_valid hv, rfl⟩
  | false =>
    simp only [Bool.false_eq_true, if_false]
    by_cases hshape : wc s.op.A ≠ s.op.S
    · exact ⟨_, execCtxBuild_operandShape s h hv hshape, by rw [if_pos hshape]; rfl⟩
    · have hA : wc s.op.A = s.op.S := not_not.1 hshape
      simp only [← hA, ne_eq, not_true_eq_false, if_false, ← badModulus_iff]
      cases hm : badModulus s.op.A with
      | true => exact ⟨_, exec_ctxBuild_of_badModulus hv hA hm, retCmd_frame s hc _ _⟩
      | false =>
        refine ⟨_, exec_ctxBuild_of_buildable hv hA hm, ?_⟩
        rw [if_neg (by decide)]
        by_cases hd : s.draws.allocOkValue = true
        · obtain ⟨hret, hslot, hothers, hlock, hmarks⟩ := setSlot_retCmd_frame s hc h
            (builtSlot s.cfg s.op.A) s.draws.tookAllocOk .ok .none
          have hok := contextOk_builtSlot s.cfg s.op.A hG hm
          rw [buildContext_of_alloc h hd, if_pos hd, hslot]
          exact ⟨hothers, hlock, hmarks, rfl, hret, rfl, rfl, rfl, rfl, rfl,
            headD_mul_mprime_builtSlot s.cfg s.op.A hm, hok.wc_Rinv, hok.val_Rinv, rfl⟩
        · rw [buildContext_of_no_alloc h hd, if_neg hd]
          exact ⟨fun _ _ => rfl, ⟨rfl, rfl, rfl, rfl⟩, ⟨rfl, rfl, rfl, rfl, rfl⟩, rfl,
            (noReturn_setDraws s _).returned hc _ _, rfl, rfl⟩

/-- A CTX_BUILD that succeeds has written its context (R104): every other outcome returns another status
or does not return. -/
theorem slot_of_ctxBuild_ok {s t : State} {h : SlotNo} (hc : s.cur < s.callers.length)
    (ht : exec (.ctxBuild h) s = .next t) (hok : Returned s t .ok .none) :
    t.slot h = builtSlot s.cfg s.op.A := by
  cases hv : (s.slot h).valid with
  | true =>
    cases (exec_ctxBuild_of_valid hv).symm.trans ht
    exact absurd hok (not_returned_raiseFault s _ _ _)
  | false =>
    by_cases hA : wc s.op.A = s.op.S
    · cases hm : badModulus s.op.A with
      | true =>
        cases (exec_ctxBuild_of_badModulus hv hA hm).symm.trans ht
        exact absurd hok ((NoReturn.refl s).not_returned hc (by decide) _ _)
      | false =>
        cases (exec_ctxBuild_of_buildable hv hA hm).symm.trans ht
        by_cases hd : s.draws.allocOkValue = true
        · obtain ⟨-, hslot, -⟩ := setSlot_retCmd_frame s hc h (builtSlot s.cfg s.op.A)
            s.draws.tookAllocOk .ok .none
          rw [buildContext_of_alloc h hd, hslot]
        · rw [buildContext_of_no_alloc h hd] at hok
          exact absurd hok ((noReturn_setDraws s _).not_returned hc (by decide) _ _)
    · cases (execCtxBuild_operandShape s h hv hA).symm.trans ht
      exact absurd hok (not_returned_refuseCmd s _ _ _)

/-- Settles O25: a successful CTX_BUILD writes a function of the granularity and the modulus words. -/
theorem contextBuildIsDeterministic : Obligations.ContextBuildIsDeterministic := by
  intro s u s' u' h g hs hu hG hA hS hexec hret hexec' hret'
  rw [slot_of_ctxBuild_ok hs hexec hret, slot_of_ctxBuild_ok hu hexec' hret']
  simp only [builtSlot, hG, hA, and_self]

/-! The lock (R108). -/

/-- From `s` to `t` the lock, the enable and the counters stay, and the history grows by no event but the
return of the caller whose step it is. -/
structure LeavesMultiplier (s t : State) : Prop where
  lock : SameLock s t
  evt : t.evt = s.evt ∨ ∃ st, t.evt = s.evt ++ [.ret s.cur st]

/-- No shape of a context command acts on the lock (R108). -/
theorem ExecShape.leavesMultiplier {s t : State} {i : Instr} {h : SlotNo} {f : BitVec 3}
    (hi : i = .ctxBuild h ∨ i = .ctxRead h f ∨ i = .ctxDestroy h ∨ i = .hwCapacity)
    (hshape : ExecShape s i t) : LeavesMultiplier s t := by
  cases hshape with
  | waits => exact ⟨⟨rfl, rfl, rfl, rfl⟩, .inl rfl⟩
  | fault => exact ⟨⟨rfl, rfl, rfl, rfl⟩, .inl rfl⟩
  | refusal => exact ⟨⟨rfl, rfl, rfl, rfl⟩, .inl rfl⟩
  | plain _ d st => exact ⟨⟨rfl, rfl, rfl, rfl⟩, .inr ⟨st, rfl⟩⟩
  | build => exact ⟨⟨rfl, rfl, rfl, rfl⟩, .inr ⟨.ok, rfl⟩⟩
  | destroy => exact ⟨⟨rfl, rfl, rfl, rfl⟩, .inr ⟨.ok, rfl⟩⟩
  | primitive _ ps X Y M D p n v u hprim =>
    rcases hprim with rfl | rfl <;> simp at hi
  | acquire | release | mult | expStart | expFail | expEntry | expLast => simp at hi

/-- A caller with no mark whose command does not wait has an enabled step (R13). -/
theorem enabled_of_not_waits {s : State} {c : Nat} {i : Instr} (hc : c < s.callers.length)
    (hstop : s.stopped c = false) (hnext : s.nextOf c = some (.ok i))
    (hw : waits i (s.onBehalf c) = false) : s.enabled c = true := by
  simp [State.enabled, hc, hstop, hnext, hw]

/-- Settles O26: no context command waits, and none of their shapes touches the lock. -/
theorem contextCommandsIgnoreTheLock : Obligations.ContextCommandsIgnoreTheLock := by
  intro s i h f hi
  have hwaits : ∀ u, waits i u = false := by
    rcases hi with rfl | rfl | rfl | rfl <;> exact fun _ => rfl
  obtain ⟨t, ht, hshape⟩ := exec_shape i s
  obtain ⟨hlock, hevt⟩ := hshape.leavesMultiplier hi
  exact ⟨fun c hc hstop hnext => enabled_of_not_waits hc hstop hnext (hwaits _), t, ht, hlock, hevt⟩

end Sys2Proof.Machine
end

section
/-! Exponentiations in progress and the steps of others (R106, R159). -/

namespace Sys2Proof.Machine

/-- A command changes no field but the borrows of a valid slot that is borrowed (R104, R106). -/
theorem SlotEffect.eq_of_borrowed {s : State} {i : Instr} {g : SlotNo} {k : Slot}
    (h : SlotEffect s i g k) (hv : (s.slot g).valid = true) (hb : 0 < (s.slot g).borrows) :
    k = { s.slot g with borrows := k.borrows } := by
  cases h with
  | keeps n => rfl
  | builds hi hinv => rw [hinv] at hv; cases hv
  | destroys hi n hz => exact absurd hb (by omega)

/-- Settles O47: a step writes no record of another caller, and the sequencer's slot is valid and
borrowed. -/
theorem othersCannotDisturbAnExponentiation : Obligations.OthersCannotDisturbAnExponentiation := by
  intro s t c r hs hstep hne hrun
  obtain ⟨d, -, -, -, -, ⟨e, -, rfl⟩ | ⟨i, -, -, -, hshape⟩⟩ := step_cases s t hstep
  · exact ⟨rfl, rfl⟩
  · have heff := hshape.callerEffect
    exact ⟨heff.others c (heff.frame.2.1 ▸ hne.symm),
      (hshape.slotEffect r.slot).eq_of_borrowed (hs.runs c r hrun).valid (hs.borrowed hrun)⟩

end Sys2Proof.Machine
end

section
/-! The unit's value (R122): when it is drawn, and what the exact value is the residue of. -/

namespace Sys2Proof.Machine

theorem montgomeryOk_eq_true_iff (M : Nat) (p : Word) :
    montgomeryOk M p = true ↔ M % 2 = 1 ∧ M * p.toNat % 2 ^ 32 = 2 ^ 32 - 1 := by
  simp only [montgomeryOk, Bool.and_eq_true, beq_iff_eq]

theorem unreducedDrawn_eq_true_iff (cfg : Config) (ps : Passes) (X Y D M : Nat) :
    unreducedDrawn cfg ps X Y D M = true ↔
      cfg.unreduced = .draw ∧ (M ≤ X ∨ M ≤ Y ∨ (ps = .two ∧ M ≤ D)) := by
  simp only [unreducedDrawn, Bool.and_eq_true, Bool.or_eq_true, beq_iff_eq, decide_eq_true_eq,
    or_assoc]

/-- Under `P_UNREDUCED = exact` no operand makes the unit draw (R122). -/
theorem unreducedDrawn_of_exact {cfg : Config} (hcfg : cfg.unreduced = .exact) (ps : Passes)
    (X Y D M : Nat) : unreducedDrawn cfg ps X Y D M = false := by
  rw [Bool.eq_false_iff, ne_eq, unreducedDrawn_eq_true_iff, hcfg]
  exact fun h => nomatch h.1

/-- Operands below the modulus do not make the unit draw (R122). -/
theorem unreducedDrawn_of_lt (cfg : Config) (ps : Passes) {X Y D M : Nat} (hX : X < M) (hY : Y < M)
    (hD : D < M) : unreducedDrawn cfg ps X Y D M = false := by
  rw [Bool.eq_false_iff, ne_eq, unreducedDrawn_eq_true_iff]
  omega

/-- Where it is not exact the unit's value is drawn. -/
theorem hwValue_eq_draw {cfg : Config} {d : Draws} {ps : Passes} {X Y M D : Buf} {p : Word} {h : Nat}
    (hdraw : montgomeryOk (val M) p = false ∨
      unreducedDrawn cfg ps (val X) (val Y) (val D) (val M) = true) :
    hwValue cfg d ps X Y M D p h = (d.bufValue h, d.tookBuf) := by
  rcases hwValue_cases cfg d ps X Y M D p h with ⟨hm, hu, -⟩ | ⟨-, e⟩
  · simp [hm, hu] at hdraw
  · exact e

theorem hwValue_eq_exact {cfg : Config} {ps : Passes} {X Y M D : Buf} {p : Word}
    (hm : montgomeryOk (val M) p = true)
    (hu : unreducedDrawn cfg ps (val X) (val Y) (val D) (val M) = false) (d : Draws) (h : Nat) :
    hwValue cfg d ps X Y M D p h = (bufOf h (hwExact ps h (val M) (val X) (val Y) (val D)), d) := by
  rcases hwValue_cases cfg d ps X Y M D p h with ⟨-, -, e⟩ | ⟨hdraw, -⟩
  · exact e
  · simp [hm, hu] at hdraw

/-- A one-pass multiply does not read `D` (R122, R127). -/
theorem hwValue_one_eq (cfg : Config) (d : Draws) (X Y M D D' : Buf) (p : Word) (h : Nat) :
    hwValue cfg d .one X Y M D p h = hwValue cfg d .one X Y M D' p h := rfl

/-- The exact value is below a modulus of at most `h` words, so `h` words hold it. -/
theorem val_bufOf_hwExact (ps : Passes) {M : Buf} {h : Nat} (hM : 0 < val M) (hfits : wc M ≤ h)
    (X Y D : Nat) : val (bufOf h (hwExact ps h (val M) X Y D)) = hwExact ps h (val M) X Y D :=
  val_bufOf _ _ ((hwExact_lt ps h (val M) X Y D hM).trans (val_lt_of_wc_le M h hfits))

/-- Two passes divide the product of the three operands by the squared radix. -/
theorem hwExact_two_mul (h M X Y D : Nat) (hM : M % 2 = 1) :
    hwExact .two h M X Y D * 2 ^ (64 * h) % M = X * Y * D % M := by
  have hsquare : 2 ^ (64 * h) = rho h * rho h := radixR_eq h
  calc hwExact .two h M X Y D * 2 ^ (64 * h) % M
      = montMul h M (montMul h M X Y) D * rho h * rho h % M := by
        rw [hsquare, ← Nat.mul_assoc]; rfl
    _ = montMul h M X Y * D * rho h % M :=
        Nat.ModEq.mul_right (rho h) (montMul_mul_rho h M (montMul h M X Y) D hM)
    _ = montMul h M X Y * rho h * D % M := by rw [Nat.mul_right_comm]
    _ = X * Y * D % M := Nat.ModEq.mul_right D (montMul_mul_rho h M X Y hM)

/-- What an exact value `v` of `ps` passes is: below the modulus, and the product of the operands divided
by the radix once for each pass (R122). -/
structure ExactResidue (ps : Passes) (h M X Y D v : Nat) : Prop where
  lt : v < M
  one : ps = .one → v * 2 ^ (32 * h) % M = X * Y % M
  two : ps = .two → v * 2 ^ (64 * h) % M = X * Y * D % M

theorem exactResidue_hwExact (ps : Passes) (h M X Y D : Nat) (hM : M % 2 = 1) :
    ExactResidue ps h M X Y D (hwExact ps h M X Y D) where
  lt := hwExact_lt ps h M X Y D (by omega)
  one := by rintro rfl; exact montMul_mul_rho h M X Y hM
  two := by rintro rfl; exact hwExact_two_mul h M X Y D hM

/-- Where the unit does not draw, its value is the exact one, with no draw (R122). -/
theorem exactResidue_of_hwValue {cfg : Config} {d d' : Draws} {ps : Passes} {X Y M D r : Buf}
    {p : Word} {h : Nat} (hfits : wc M ≤ h) (hm : montgomeryOk (val M) p = true)
    (hu : unreducedDrawn cfg ps (val X) (val Y) (val D) (val M) = false)
    (hv : hwValue cfg d ps X Y M D p h = (r, d')) :
    d' = d ∧ ExactResidue ps h (val M) (val X) (val Y) (val D) (val r) := by
  have hodd : val M % 2 = 1 := ((montgomeryOk_eq_true_iff _ _).1 hm).1
  rw [hwValue_eq_exact hm hu] at hv
  cases hv
  rw [val_bufOf_hwExact ps (by omega) hfits]
  exact ⟨rfl, exactResidue_hwExact ps h _ _ _ _ hodd⟩

/-- Settles O19: the unit's two tests are the conditions of R122, and the exact value fits its words. -/
theorem unitValue : Obligations.UnitValue := by
  intro cfg d ps X Y M D p h hfits r
  have hwords : wc r.1 = h := wc_hwValue cfg d ps X Y M D p h
  split
  · next hbad =>
    have hm : montgomeryOk (val M) p = false := by
      rw [Bool.eq_false_iff, ne_eq, montgomeryOk_eq_true_iff]; omega
    exact ⟨hwValue_eq_draw (.inl hm), hwords⟩
  · next hgood =>
    have hm : montgomeryOk (val M) p = true := (montgomeryOk_eq_true_iff _ _).2 (by omega)
    split
    · next hdraw =>
      exact ⟨hwValue_eq_draw (.inr ((unreducedDrawn_eq_true_iff _ _ _ _ _ _).2 hdraw)), hwords⟩
    · next hreduced =>
      have hu : unreducedDrawn cfg ps (val X) (val Y) (val D) (val M) = false := by
        rwa [Bool.eq_false_iff, ne_eq, unreducedDrawn_eq_true_iff]
      obtain ⟨hd, hlt, hone, htwo⟩ := exactResidue_of_hwValue (r := r.1) (d' := r.2) hfits hm hu rfl
      exact ⟨hd, hwords, hlt, hone, htwo⟩

end Sys2Proof.Machine
end

section
/-! The lock (R124, R125, R131, R204): ACQUIRE and RELEASE, the commands that wait for it, and what the
steps of others do to its holder. -/

namespace Sys2Proof.Machine

/-! ACQUIRE and RELEASE (R124, R125). -/

theorem held_eq_false_iff (s : State) : s.held = false ↔ s.holder = none := by
  simp [State.held]

theorem held_of_holder {s : State} {c : Nat} (hh : s.holder = some c) : s.held = true := by
  simp [State.held, hh]

theorem waits_acquire (s : State) : waits .acquire s = s.held := rfl

/-- A caller with no mark has an enabled step exactly when its command does not wait (R13). -/
theorem enabled_iff_not_waits {s : State} {c : Nat} {i : Instr} (hc : c < s.callers.length)
    (hstop : s.stopped c = false) (hnext : s.nextOf c = some (.ok i)) :
    s.enabled c = true ↔ waits i (s.onBehalf c) = false := by
  simp [State.enabled, hc, hstop, hnext]

/-- Settles O28: the successful path is the acquire and a return, and the command waits for the holder. -/
theorem acquireTakesTheMultiplier : Obligations.AcquireTakesTheMultiplier := by
  refine ⟨decode_encode .acquire rfl, fun s => ⟨fun hc hfree => ?_, fun c hc hstop hnext => ?_⟩⟩
  · exact ⟨_, exec_acquire_of_free hfree, (noReturn_acquireLock s).returned hc _ _, rfl, rfl, rfl, rfl,
      fun _ => rfl, ⟨rfl, rfl, rfl, rfl, rfl⟩, rfl, List.append_assoc ..⟩
  · rw [enabled_iff_not_waits hc hstop hnext, waits_acquire, held_eq_false_iff, State.onBehalf_holder]

theorem exec_release_of_not_holder {s : State} (hh : s.holder ≠ some s.cur) :
    exec .release s = .next (s.raiseFault .unbalancedRelease) :=
  if_neg hh

/-- Settles O29: the holder's path is the release and a return, any other the fault. -/
theorem releaseGivesTheMultiplierBack : Obligations.ReleaseGivesTheMultiplierBack := by
  refine ⟨decode_encode .release rfl, fun s hc => ?_⟩
  by_cases hh : s.holder = some s.cur
  · refine ⟨_, exec_release_of_holder hh, ?_⟩
    rw [if_pos hh]
    exact ⟨(noReturn_releaseLock s).returned hc _ _, rfl, rfl, rfl, rfl, fun _ => rfl,
      ⟨rfl, rfl, rfl, rfl, rfl⟩, rfl, List.append_assoc ..⟩
  · exact ⟨_, exec_release_of_not_holder hh, by rw [if_neg hh]; rfl⟩

/-! The holder that asks again (R131). -/

/-- A caller whose command waits has no enabled step (R204). -/
theorem enabled_eq_false_of_waits {s : State} {c : Nat} {i : Instr}
    (hnext : s.nextOf c = some (.ok i)) (hw : waits i (s.onBehalf c) = true) :
    s.enabled c = false := by
  simp [State.enabled, hnext, hw]

/-- Past its checks MULT waits for the lock (R128). -/
theorem waits_mult_of_checked {s : State} {h : SlotNo} (hv : (s.slot h).valid = true)
    (hfits : multShape h s = false) : waits (.mult h) s = s.held := by
  simp [waits, hv, hfits]

/-- While the multiplier is held a running sequencer waits, whatever is left of its plan (R153). -/
theorem waits_exp_of_held {s : State} {r : SeqRun} (hq : s.me.seq = .run r) (hh : s.held = true)
    (h : SlotNo) (l : Bool) : waits (.exp h l) s = true := by
  simp only [waits, hq, expWaits, hh, Bool.true_or]
  split <;> rfl

theorem nextOf_eq_of_caller_eq {s t : State} {c : Nat} (h : t.caller c = s.caller c) :
    t.nextOf c = s.nextOf c := by
  simp only [State.nextOf, State.fetch, h]

/-- A command of another caller leaves the multiplier with its holder: what acquires finds the lock free,
and what releases or multiplies is the holder's own (R124 to R128, R153). -/
theorem ExecShape.keeps_holder {s t : State} {i : Instr} {c : Nat} (h : ExecShape s i t)
    (hh : s.holder = some c) (hc : c ≠ s.cur) : t.holder = some c := by
  have hlocked : s.held ≠ false := by rw [held_of_holder hh]; decide
  have hother : s.holder ≠ some s.cur := hh ▸ fun e => hc (Option.some.inj e)
  cases h with
  | waits | fault | refusal | plain | build | destroy | expStart => exact hh
  | release hmine => exact absurd hmine hother
  | primitive _ ps X Y M D p n v t hi hmine => exact absurd hmine hother
  | acquire hfree => exact absurd hfree hlocked
  | mult h v t hv hs hfree => exact absurd hfree hlocked
  | expFail h l r e rest a b t hq hp ho hfree => exact absurd hfree hlocked
  | expEntry h l r e e' rest a b v t hq hp ho hfree => exact absurd hfree hlocked
  | expLast h l r e a b v t hq hp ho hfree => exact absurd hfree hlocked

/-- The holder, while it has no enabled step, keeps the multiplier and its record over every step. -/
theorem step_keeps_waiting_holder {s t : State} {c : Nat} (hh : s.holder = some c)
    (hwait : s.enabled c = false) (hstep : step s = .next t) :
    t.holder = some c ∧ t.caller c = s.caller c := by
  obtain ⟨d, -, hd, -, -, hcase⟩ := step_cases s t hstep
  have hne : c ≠ d := fun e => by rw [← e, hwait] at hd; cases hd
  rcases hcase with ⟨e, -, rfl⟩ | ⟨i, -, -, -, hshape⟩
  · exact ⟨hh, rfl⟩
  · exact ⟨hshape.keeps_holder hh hne, hshape.callerEffect.others c hne⟩

/-- Settles O35: each of the three waits while the lock is held, and the caller that waits for itself is
not the one that steps. -/
theorem holderCannotAcquireAgain : Obligations.HolderCannotAcquireAgain := by
  intro s c hh
  have hheld : (s.onBehalf c).held = true := held_of_holder hh
  refine ⟨fun hstands => ?_, fun h hnext hv hfits => ?_⟩
  · have hwait : s.enabled c = false := by
      rcases hstands with hnext | ⟨r, hq⟩
      · exact enabled_eq_false_of_waits hnext hheld
      · exact enabled_eq_false_of_waits (nextOf_run s c r hq)
          (waits_exp_of_held (s := s.onBehalf c) hq hheld _ _)
    refine ⟨hwait, fun t hstep => ?_⟩
    obtain ⟨hholder, hcaller⟩ := step_keeps_waiting_holder hh hwait hstep
    exact ⟨hholder, hcaller, nextOf_eq_of_caller_eq hcaller⟩
  · exact enabled_eq_false_of_waits hnext
      ((waits_mult_of_checked (s := s.onBehalf c) hv hfits).trans hheld)

/-! The callers held for the lock (R204). -/

/-- The first entries of a plan write the registers that the later ones read (R152). -/
theorem RunOk.entryOperands_isSome {s : State} {r : SeqRun} {e : PlanEntry} {rest : List PlanEntry}
    (hr : RunOk s r) (hp : r.plan = e :: rest) (k : Slot) : (entryOperands r k e).isSome = true := by
  have hsuffix : (e :: rest) <:+ plan r.E := hp ▸ hr.remains
  have hle : r.plan.length ≤ (plan r.E).length := hr.remains.length_le
  have hxm : e ≠ .convx → ∃ x, r.Xm = some x := fun hne =>
    have hlen : r.plan.length ≠ (plan r.E).length :=
      fun he => hne (eq_convx_of_length_eq hsuffix (hp ▸ he))
    (hr.xm_some (by omega)).imp fun _ hx => hx.1
  have hz : e ≠ .convx → e ≠ .initz → ∃ z, r.Z = some z := fun hne hne' =>
    have hlen : r.plan.length ≠ (plan r.E).length :=
      fun he => hne (eq_convx_of_length_eq hsuffix (hp ▸ he))
    have hlen' : r.plan.length + 1 ≠ (plan r.E).length :=
      fun he => hne' (eq_initz_of_length_eq hsuffix (hp ▸ he))
    (hr.z_some (by omega)).imp fun _ hz => hz.1
  cases e with
  | convx | initz => rfl
  | sqr i | convout =>
    obtain ⟨z, hz⟩ := hz nofun nofun
    simp [entryOperands, hz]
  | mulx i =>
    obtain ⟨x, hx⟩ := hxm nofun
    obtain ⟨z, hz⟩ := hz nofun nofun
    simp [entryOperands, hx, hz]

/-- With the lock free no command waits (R204). -/
theorem waits_eq_false_of_free {s : State} (hfree : s.held = false)
    (hrun : ∀ r, s.me.seq = .run r → RunOk s r) (i : Instr) : waits i s = false := by
  cases i with
  | acquire => exact hfree
  | mult h => simp [waits, hfree]
  | exp h l =>
    cases hq : s.me.seq with
    | idle => simp only [waits, hq]
    | run r =>
      simp only [waits, hq, expWaits, hfree, Bool.false_or]
      split
      · next hp => exact absurd hp (hrun r hq).nonempty
      · next e rest hp => rw [Option.isNone_eq_false_iff]; exact (hrun r hq).entryOperands_isSome hp _
  | ctxBuild | ctxRead | ctxDestroy | hwCapacity | release | hwModmul | hwMontmul => rfl

/-- Settles O36: after the release no command waits, and the held caller has no mark and the same record. -/
theorem releaseLetsHeldCallersGo : Obligations.ReleaseLetsHeldCallersGo := by
  intro s c hinv hh hne hc hheld
  obtain ⟨hstop, i, hnext, -⟩ := hheld
  refine ⟨_, exec_release_of_holder hh, ?_⟩
  have hcaller : (s.releaseLock.retCmd .ok .none).caller c = s.caller c :=
    s.releaseLock.retCmd_caller_ne _ _ c hne
  refine enabled_of_not_waits (by simpa using hc) hstop
    ((nextOf_eq_of_caller_eq hcaller).trans hnext) (waits_eq_false_of_free rfl (fun r hq => ?_) i)
  exact (hinv.runs c r (hcaller ▸ hq)).of_slot_eq rfl rfl

end Sys2Proof.Machine
end

section
/-! The multiplies HW_MODMUL, HW_MONTMUL and MULT (R126 to R129): their outcomes in order, and what they
leave as it is. -/

namespace Sys2Proof.Machine

theorem unsizable_eq_true_iff (cfg : Config) (h : Nat) :
    unsizable cfg h = true ↔ h = 0 ∨ cfg.hwMaxWords < h := by
  simp only [unsizable, Bool.or_eq_true, beq_iff_eq, decide_eq_true_eq]

/-- The outcomes of a hardware multiply in the order of R123: what holds of each of its three ends holds
as the chain of the two tests, however the first is written. -/
theorem HwResult.chain {s t : State} {ps : Passes} {X Y M D : Buf} {p : Word} {h : Nat} {v : Option Buf}
    (hr : HwResult s ps X Y M D p h v t) {U : Prop} [Decidable U] {A B C : Prop}
    (hU : Machine.unsizable s.cfg h = true ↔ U) (hA : v = none → t = s → A)
    (hB : v = none → t = s.setDraws s.draws.tookSzOk → B)
    (hC : ∀ r d, hwValue s.cfg s.draws.tookSzOk ps X Y M D p h = (r, d) → wc r = h → v = some r →
      t = (s.setDraws d).emit (.hwop s.cur (hwKind ps) (val X) (val Y) (val M) (val r)) → C) :
    if U then A else if s.draws.szOkValue = false then B else C := by
  cases hr with
  | unsizable hu => rw [if_pos (hU.1 hu)]; exact hA rfl rfl
  | badSizing hu hz => rw [if_neg (by simp [← hU, hu]), if_pos hz]; exact hB rfl rfl
  | value hu hz r d hv hwc =>
    rw [if_neg (by simp [← hU, hu]), if_neg (by simp [hz])]; exact hC r d hv hwc rfl rfl

/-- A multiply that returns leaves the slots, the lock and the marks (R121). -/
theorem HwResult.retMultiply_frame {s t : State} {ps : Passes} {X Y M D : Buf} {p : Word} {h : Nat}
    {v : Option Buf} (hr : HwResult s ps X Y M D p h v t) :
    SameSlots s (t.retMultiply v) ∧ SameLock s (t.retMultiply v) ∧ SameMarks s (t.retMultiply v) := by
  obtain ⟨-, -, hholder, hen, hacq, hrel, -⟩ := hr.frame
  refine ⟨fun g => (retMultiply_sameSlots t v g).trans (hr.sameSlots g), ?_,
    hr.sameMarks.trans (retMultiply_sameMarks t v)⟩
  cases v <;> exact ⟨hholder, hen, hacq, hrel⟩

/-- The ends of a multiply of the holder that returns (R126, R127): the two failures as R123 has them, and
with a value the unit's (R122) and its event. -/
theorem HwResult.retMultiply_chain {s t u : State} {ps : Passes} {X Y M D : Buf} {p : Word} {h : Nat}
    {v : Option Buf} (hr : HwResult s ps X Y M D p h v t) (hu : u = t.retMultiply v)
    (hc : s.cur < s.callers.length) (hfits : wc M ≤ h) {C : Prop}
    (hC : ∀ r, hwValue s.cfg s.draws.tookSzOk ps X Y M D p h = (r, u.draws) → wc r = h →
      Returned s u .ok (.buffer r) →
      u.evt = s.evt ++
        [Event.hwop s.cur (hwKind ps) (val X) (val Y) (val M) (val r), Event.ret s.cur .ok] →
      (val M % 2 = 1 → val M * p.toNat % 2 ^ 32 = 2 ^ 32 - 1 → s.cfg.unreduced = .exact →
        ExactResidue ps h (val M) (val X) (val Y) (val D) (val r)) → C) :
    if h = 0 ∨ s.cfg.hwMaxWords < h then
      Returned s u .hardwareFault .none ∧ u.draws = s.draws ∧
        u.evt = s.evt ++ [Event.ret s.cur .hardwareFault]
    else if s.draws.szOkValue = false then
      Returned s u .hardwareFault .none ∧ u.draws = s.draws.tookSzOk ∧
        u.evt = s.evt ++ [Event.ret s.cur .hardwareFault]
    else C := by
  subst hu
  have hret := hr.noReturn.returned hc
  refine hr.chain (unsizable_eq_true_iff _ _) ?_ ?_ ?_
  · rintro rfl rfl
    exact ⟨hret _ _, rfl, rfl⟩
  · rintro rfl rfl
    exact ⟨hret _ _, rfl, rfl⟩
  · rintro r d hv hwc rfl rfl
    refine hC r hv hwc (hret _ _) (List.append_assoc ..) fun hodd hp hexact => ?_
    exact (exactResidue_of_hwValue hfits ((montgomeryOk_eq_true_iff _ _).2 ⟨hodd, hp⟩)
      (unreducedDrawn_of_exact hexact _ _ _ _ _) hv).2

/-! HW_MODMUL and HW_MONTMUL (R126, R127). -/

theorem exec_hwModmul_of_not_holder {s : State} (hh : s.holder ≠ some s.cur) :
    exec .hwModmul s = .next (s.raiseFault .lockNotHeld) :=
  if_pos hh

theorem exec_hwMontmul_of_not_holder {s : State} (hh : s.holder ≠ some s.cur) :
    exec .hwMontmul s = .next (s.raiseFault .lockNotHeld) :=
  if_pos hh

theorem exec_hwMontmul_of_holder {s t : State} {v : Option Buf} (hh : s.holder = some s.cur)
    (hfits : anyWider s.op.S [s.op.A, s.op.B, s.op.C] = false)
    (hr : HwResult s .one s.op.A s.op.B s.op.C [] s.op.P s.op.S v t) :
    exec .hwMontmul s = .next (t.retMultiply v) := by
  simp [exec, execHwMontmul, hh, hfits, hr.hwMultiply_eq]

theorem anyWider_four_iff (h : Nat) (a b c d : Buf) :
    anyWider h [a, b, c, d] = true ↔ h < max (max (wc a) (wc b)) (max (wc c) (wc d)) := by
  simp [anyWider]

theorem anyWider_three_iff (h : Nat) (a b c : Buf) :
    anyWider h [a, b, c] = true ↔ h < max (max (wc a) (wc b)) (wc c) := by
  simp [anyWider]

/-- Settles O30: the lock, then the shape, then the ends of a two-pass multiply. -/
theorem hwModmulMultipliesInTwoPasses : Obligations.HwModmulMultipliesInTwoPasses := by
  refine ⟨decode_encode .hwModmul rfl, fun s hc => ?_⟩
  by_cases hh : s.holder ≠ some s.cur
  · exact ⟨_, exec_hwModmul_of_not_holder hh, by rw [if_pos hh]; rfl⟩
  have hh' : s.holder = some s.cur := not_not.1 hh
  cases hfits : anyWider s.op.S [s.op.A, s.op.B, s.op.C, s.op.D] with
  | true =>
    refine ⟨_, execHwModmul_operandShape s hh' hfits, ?_⟩
    rw [if_neg hh, if_pos ((anyWider_four_iff ..).1 hfits)]
    rfl
  | false =>
    obtain ⟨v, t, hr⟩ : ∃ v t, HwResult s .two s.op.A s.op.B s.op.C s.op.D s.op.P s.op.S v t :=
      ⟨_, _, hwMultiply_result ..⟩
    have hC : wc s.op.C ≤ s.op.S := (anyWider_eq_false_iff _ _).1 hfits _ (by simp)
    obtain ⟨hslots, hlock, hmarks⟩ := hr.retMultiply_frame
    refine ⟨_, exec_hwModmul_of_holder hh' hfits hr, ?_⟩
    rw [if_neg hh, if_neg (by rw [← anyWider_four_iff, hfits]; decide)]
    exact ⟨hslots, hlock, hmarks, hr.retMultiply_chain rfl hc hC fun r hv hwc hret hevt hres =>
      ⟨r, hv.symm, hwc, hret, hevt, fun hodd hp hexact =>
        ⟨(hres hodd hp hexact).lt, (hres hodd hp hexact).two rfl⟩⟩⟩

/-- Settles O31: the lock, then the shape, then the ends of a one-pass multiply. -/
theorem hwMontmulMultipliesInOnePass : Obligations.HwMontmulMultipliesInOnePass := by
  refine ⟨decode_encode .hwMontmul rfl, fun s hc => ?_⟩
  by_cases hh : s.holder ≠ some s.cur
  · exact ⟨_, exec_hwMontmul_of_not_holder hh, by rw [if_pos hh]; rfl⟩
  have hh' : s.holder = some s.cur := not_not.1 hh
  cases hfits : anyWider s.op.S [s.op.A, s.op.B, s.op.C] with
  | true =>
    refine ⟨_, execHwMontmul_operandShape s hh' hfits, ?_⟩
    rw [if_neg hh, if_pos ((anyWider_three_iff ..).1 hfits)]
    rfl
  | false =>
    obtain ⟨v, t, hr⟩ : ∃ v t, HwResult s .one s.op.A s.op.B s.op.C [] s.op.P s.op.S v t :=
      ⟨_, _, hwMultiply_result ..⟩
    have hC : wc s.op.C ≤ s.op.S := (anyWider_eq_false_iff _ _).1 hfits _ (by simp)
    obtain ⟨hslots, hlock, hmarks⟩ := hr.retMultiply_frame
    refine ⟨_, exec_hwMontmul_of_holder hh' hfits hr, ?_⟩
    rw [if_neg hh, if_neg (by rw [← anyWider_three_iff, hfits]; decide)]
    exact ⟨hslots, hlock, hmarks, hr.retMultiply_chain rfl hc hC fun r hv hwc hret hevt hres =>
      ⟨r, fun D => hv.symm.trans (hwValue_one_eq ..), hwc, hret, hevt, fun hodd hp hexact =>
        ⟨(hres hodd hp hexact).lt, (hres hodd hp hexact).one rfl⟩⟩⟩

/-! MULT (R128, R129). -/

theorem multShape_eq_true_iff (h : SlotNo) (s : State) :
    multShape h s = true ↔ (s.slot h).hw < max (wc s.op.A) (wc s.op.B) := by
  simp [multShape, anyWider]

theorem multShape_eq_false_iff (h : SlotNo) (s : State) :
    multShape h s = false ↔ max (wc s.op.A) (wc s.op.B) ≤ (s.slot h).hw := by
  rw [Bool.eq_false_iff, ne_eq, multShape_eq_true_iff, Nat.not_lt]

theorem exec_mult_of_invalid {s : State} {h : SlotNo} (hv : (s.slot h).valid = false) :
    exec (.mult h) s = .next (s.raiseFault .badContext) := by
  simp only [exec, execMult, hv, Bool.not_false, if_true]

/-- MULT waits exactly when its checks pass and the lock is held (R128). -/
theorem waits_mult_eq_false_iff (h : SlotNo) (s : State) :
    waits (.mult h) s = false ↔ (s.slot h).valid = false ∨
      (s.slot h).hw < max (wc s.op.A) (wc s.op.B) ∨ s.holder = none := by
  rw [← multShape_eq_true_iff, ← held_eq_false_iff]
  simp [waits, imp_iff_not_or, or_assoc]

/-- A multiply between its own acquire and release leaves the slots and the marks, and the multiplier free
and disabled with both counters one up (R128). -/
theorem HwResult.tookAndGave {s t : State} {ps : Passes} {X Y M D : Buf} {p : Word} {h : Nat}
    {v : Option Buf} (hr : HwResult s.acquireLock ps X Y M D p h v t) :
    TookAndGave s (t.releaseLock.retMultiply v) ∧ SameSlots s (t.releaseLock.retMultiply v) ∧
      SameMarks s (t.releaseLock.retMultiply v) := by
  obtain ⟨-, -, -, -, hacq, hrel, -⟩ := hr.frame
  refine ⟨?_, fun g => (retMultiply_sameSlots _ v g).trans (hr.sameSlots g),
    hr.sameMarks_of_acquireLock.trans (retMultiply_sameMarks _ v)⟩
  cases v <;> exact ⟨rfl, rfl, hacq, congrArg (· + 1) hrel⟩

/-- Settles O32: the checks and the wait are read off the command, and the step is an acquire, a two-pass
multiply, a release and the return. -/
theorem multAcquiresMultipliesReleases : Obligations.MultAcquiresMultipliesReleases := by
  refine ⟨fun h => slot_shiftLeft h ▸ decode_encode (.mult h) rfl, fun s h hc =>
    ⟨exec_mult_of_invalid,
      fun hv hwide => execMult_operandShape s h hv ((multShape_eq_true_iff h s).2 hwide),
      fun hv hfits hfree hpos => ?_, fun c hlt hstop hnext => ?_⟩⟩
  · obtain ⟨v, t, hr⟩ : ∃ v t, HwResult s.acquireLock .two s.op.A s.op.B (s.slot h).M (s.slot h).Rinv
        (s.slot h).mprime (s.slot h).hw v t := ⟨_, _, hwMultiply_result ..⟩
    obtain ⟨htook, hslots, hmarks⟩ := hr.tookAndGave
    have hret := hr.noReturn_of_acquireLock.returned hc
    refine ⟨_, exec_mult_of_free hv ((multShape_eq_false_iff h s).2 hfits) hfree hr, htook, hslots,
      hmarks, hr.chain ((unsizable_eq_true_iff _ _).trans (or_iff_right (Nat.ne_of_gt hpos))) ?_ ?_ ?_⟩
    · rintro rfl rfl
      exact ⟨hret _ _, rfl, by simp⟩
    · rintro rfl rfl
      exact ⟨hret _ _, rfl, by simp⟩
    · rintro r d hvalue hwc rfl rfl
      exact ⟨r, hvalue.symm, hwc, hret _ _, by simp [hwKind]⟩
  · rw [enabled_iff_not_waits hlt hstop hnext, waits_mult_eq_false_iff]
    rfl

/-- On a valid context two passes with the squared radix give the plain product (R129). -/
theorem hwExact_two_of_contextOk {cfg : Config} {k : Slot} (hk : ContextOk cfg k) (X Y : Nat) :
    hwExact .two k.hw (val k.M) X Y (val k.Rinv) = X * Y % val k.M := by
  have hpos : 0 < val k.M := by have := hk.odd; omega
  refine eq_of_mul_rho_modEq (2 * k.hw) (val k.M) _ _ hk.odd (hwExact_lt _ _ _ _ _ _ hpos)
    (Nat.mod_lt _ hpos) ?_
  have hrho : rho (2 * k.hw) = 2 ^ (64 * k.hw) := by rw [rho]; congr 1; omega
  rw [hrho]
  calc hwExact .two k.hw (val k.M) X Y (val k.Rinv) * 2 ^ (64 * k.hw)
      ≡ X * Y * val k.Rinv [MOD val k.M] := hwExact_two_mul _ _ _ _ _ hk.odd
    _ ≡ X * Y * 2 ^ (64 * k.hw) [MOD val k.M] := by
        rw [hk.val_Rinv]; exact (Nat.mod_modEq _ _).mul_left _
    _ ≡ X * Y % val k.M * 2 ^ (64 * k.hw) [MOD val k.M] := ((Nat.mod_modEq _ _).mul_right _).symm

/-- On a valid context the unit draws only for an operand of the caller's: the constant is right and the
squared radix is reduced (R23, R122). -/
theorem unreducedDrawn_of_contextOk {cfg : Config} {k : Slot} (hk : ContextOk cfg k) {X Y : Nat}
    (hred : cfg.unreduced = .exact ∨ (X < val k.M ∧ Y < val k.M)) :
    unreducedDrawn cfg .two X Y (val k.Rinv) (val k.M) = false := by
  rcases hred with hexact | ⟨hX, hY⟩
  · exact unreducedDrawn_of_exact hexact _ _ _ _ _
  · refine unreducedDrawn_of_lt _ _ hX hY ?_
    rw [hk.val_Rinv]
    exact Nat.mod_lt _ (by omega)

/-- Settles O33: sizing succeeds and the unit does not draw, so MULT returns the exact value, which is the
product. -/
theorem multReturnsTheProduct : Obligations.MultReturnsTheProduct := by
  intro s h hc hv hk hA hB hfree hsize hz hred
  have hm := (montgomeryOk_eq_true_iff _ _).2 ⟨hk.odd, hk.mprime⟩
  have hpos : 0 < val (s.slot h).M := by have := hk.odd; omega
  have hhw : 1 ≤ (s.slot h).hw := hk.wc_pos.trans hk.wc_le_hw
  have hvalue : hwValue s.cfg s.draws.tookSzOk .two s.op.A s.op.B (s.slot h).M (s.slot h).Rinv
      (s.slot h).mprime (s.slot h).hw =
        (bufOf (s.slot h).hw (val s.op.A * val s.op.B % val (s.slot h).M), s.draws.tookSzOk) := by
    rw [hwValue_eq_exact hm (unreducedDrawn_of_contextOk hk hred), hwExact_two_of_contextOk hk]
  have hsizable : unsizable s.cfg (s.slot h).hw = false := by
    rw [Bool.eq_false_iff, ne_eq, unsizable_eq_true_iff]; omega
  have hr := HwResult.value (s := s.acquireLock) hsizable hz _ _ hvalue (wc_bufOf _ _)
  refine ⟨_, exec_mult_of_free hv ((multShape_eq_false_iff h s).2 (max_le hA hB)) hfree hr,
    hr.noReturn_of_acquireLock.retMultiply_ret hc _, val_bufOf _ _ ?_⟩
  exact (Nat.mod_lt _ hpos).trans (val_lt_of_wc_le _ _ (hk.wc_M ▸ hk.wc_le_hw))

end Sys2Proof.Machine
end

section
/-! The plan of an exponent (R152, R157): its entries from the top bit down, how many they are, the bits
whose last entries they are, and the powers they make. -/

namespace Sys2Proof.Machine

/-! The entries. -/

/-- The entries of the bits below `n`, none of them the top bit: a square, and a multiply if the bit is
set (R152). -/
def lowEntries (E : Nat) : Nat → List PlanEntry
  | 0 => []
  | n + 1 => .sqr n :: ((if bit E n then [.mulx n] else []) ++ lowEntries E n)

theorem scanBits_eq_flatMap (E t i : Nat) :
    scanBits E t i = (List.range (i + 1)).reverse.flatMap (bitEntries E t) := by
  induction i with
  | zero => simp [scanBits]
  | succ i ih => rw [List.range_succ, List.reverse_concat, List.flatMap_cons, scanBits, ih]

theorem scanBits_of_lt {E t i : Nat} (hi : i < t) : scanBits E t i = lowEntries E (i + 1) := by
  induction i with
  | zero => simp [scanBits, lowEntries, bitEntries, hi.ne]
  | succ i ih =>
    rw [scanBits, ih (by omega), bitEntries, if_neg hi.ne]
    rfl

/-- The top bit of a non-zero exponent has its multiply and no square. -/
theorem bitEntries_msb {E : Nat} (hE : E ≠ 0) : bitEntries E (msb E) (msb E) = [.mulx (msb E)] := by
  have htop : bit E (msb E) = true := Nat.testBit_log2 hE
  simp [bitEntries, htop]

/-- The plan: the two conversions in, the top bit's multiply, the bits below, the conversion out. -/
theorem plan_eq {E : Nat} (hE : E ≠ 0) :
    plan E = .convx :: .initz :: .mulx (msb E) :: (lowEntries E (msb E) ++ [.convout]) := by
  have hscan : scanBits E (msb E) (msb E) = .mulx (msb E) :: lowEntries E (msb E) := by
    rw [scanBits_eq_flatMap, List.range_succ, List.reverse_concat, List.flatMap_cons, bitEntries_msb hE]
    cases ht : msb E with
    | zero => rfl
    | succ n => rw [← scanBits_eq_flatMap, scanBits_of_lt (Nat.lt_succ_self n)]; rfl
  rw [plan, hscan]
  rfl

theorem mem_lowEntries {E n : Nat} {e : PlanEntry} :
    e ∈ lowEntries E n ↔ ∃ i < n, e = .sqr i ∨ (e = .mulx i ∧ bit E i = true) := by
  induction n with
  | zero => simp [lowEntries]
  | succ n ih =>
    have hbit : e ∈ (if bit E n then [PlanEntry.mulx n] else []) ↔ e = .mulx n ∧ bit E n = true := by
      split <;> simp [*]
    rw [lowEntries, List.mem_cons, List.mem_append, hbit, ih]
    constructor
    · rintro (rfl | hmul | ⟨i, hi, he⟩)
      · exact ⟨n, Nat.lt_succ_self n, .inl rfl⟩
      · exact ⟨n, Nat.lt_succ_self n, .inr hmul⟩
      · exact ⟨i, by omega, he⟩
    · rintro ⟨i, hi, he⟩
      obtain rfl | hlt : i = n ∨ i < n := by omega
      · exact he.imp id .inl
      · exact .inr (.inr ⟨i, hlt, he⟩)

/-- The squares of a plan are those of the bits below the top one. -/
theorem sqr_mem_plan {E i : Nat} (hE : E ≠ 0) : .sqr i ∈ plan E ↔ i < msb E := by
  simp [plan_eq hE, mem_lowEntries]

/-- The multiplies of a plan are those of the bits that are set. -/
theorem mulx_mem_plan {E i : Nat} (hE : E ≠ 0) : .mulx i ∈ plan E ↔ i ≤ msb E ∧ bit E i = true := by
  have htop : bit E (msb E) = true := Nat.testBit_log2 hE
  simp only [plan_eq hE, mem_lowEntries, List.mem_cons, List.mem_append, reduceCtorEq, false_or,
    PlanEntry.mulx.injEq, List.not_mem_nil, or_false]
  constructor
  · rintro (rfl | ⟨j, hj, rfl, hbit⟩)
    · exact ⟨le_rfl, htop⟩
    · exact ⟨hj.le, hbit⟩
  · rintro ⟨hi, hbit⟩
    obtain rfl | hlt := hi.eq_or_lt
    · exact .inl rfl
    · exact .inr ⟨i, hlt, rfl, hbit⟩

/-- Which entry of a plan is the last of bit `i` (R152). -/
theorem lastOf_eq_some_iff {E i : Nat} {e : PlanEntry} (hE : E ≠ 0) (he : e ∈ plan E) :
    lastOf E e = some i ↔ i ≤ msb E ∧ e = if bit E i = true then .mulx i else .sqr i := by
  cases e with
  | convx | initz | convout => cases hi : bit E i <;> simp [lastOf]
  | sqr j =>
    have hj := (sqr_mem_plan hE).1 he
    rw [lastOf, Option.ite_none_left_eq_some, Option.some.injEq]
    constructor
    · rintro ⟨hb, rfl⟩
      exact ⟨hj.le, (if_neg hb).symm⟩
    · rintro ⟨-, hlast⟩
      split at hlast
      · cases hlast
      · next hb => cases hlast; exact ⟨hb, rfl⟩
  | mulx j =>
    obtain ⟨hj, hbit⟩ := (mulx_mem_plan hE).1 he
    rw [lastOf, Option.some.injEq]
    constructor
    · rintro rfl
      exact ⟨hj, (if_pos hbit).symm⟩
    · rintro ⟨-, hlast⟩
      split at hlast <;> cases hlast
      rfl

/-- Settles O38: the plan by its bits, the operands and destinations entry by entry, and the last entry of a
bit by the entries a plan has. -/
theorem planOfAnExponent : Obligations.PlanOfAnExponent := by
  refine ⟨fun E _ => ?_, fun r k => ⟨rfl, rfl, fun z hz => ?_, fun z x i hz hx => ?_⟩,
    fun r rest i v => ⟨rfl, rfl, rfl, rfl, rfl⟩, fun E hE => ⟨?_, ?_⟩,
    fun E i e he hE => lastOf_eq_some_iff hE he⟩
  · rw [plan, scanBits_eq_flatMap]
    simp only [ite_not]
    rfl
  · simp [entryOperands, hz]
  · simp [entryOperands, hz, hx]
  · exact (mulx_mem_plan hE).2 ⟨le_rfl, Nat.testBit_log2 hE⟩
  · exact fun h => lt_irrefl _ ((sqr_mem_plan hE).1 h)

/-! How many they are (R157). -/

theorem length_lowEntries (E n : Nat) :
    (lowEntries E n).length = n + ((List.range n).filter (bit E)).length := by
  induction n with
  | zero => rfl
  | succ n ih =>
    rw [lowEntries, List.length_cons, List.length_append, ih, List.range_succ, List.filter_append,
      List.length_append]
    cases hb : bit E n <;> simp [hb] <;> omega

theorem popcount_eq {E : Nat} (hE : E ≠ 0) :
    popcount E = ((List.range (msb E)).filter (bit E)).length + 1 := by
  have htop : bit E (msb E) = true := Nat.testBit_log2 hE
  rw [popcount, List.range_succ, List.filter_append, List.length_append]
  simp [htop]

theorem length_plan {E : Nat} (hE : E ≠ 0) : (plan E).length = msb E + popcount E + 3 := by
  rw [plan_eq hE, popcount_eq hE]
  simp only [List.length_cons, List.length_append, length_lowEntries, List.length_nil]
  omega

theorem expSteps_of_ne_zero {E : Nat} (hE : E ≠ 0) : expSteps E = msb E + popcount E + 3 := if_neg hE

theorem length_plan_eq_expSteps {E : Nat} (hE : E ≠ 0) : (plan E).length = expSteps E :=
  (length_plan hE).trans (expSteps_of_ne_zero hE).symm

theorem length_filter_bit (E : Nat) (is : List Nat) :
    (is.filter (bit E)).length = (is.map fun i => E / 2 ^ i % 2).sum := by
  induction is with
  | nil => rfl
  | cons i is ih =>
    have hdigit : E / 2 ^ i % 2 = (bit E i).toNat := (Nat.toNat_testBit E i).symm
    rw [List.map_cons, List.sum_cons, ← ih, hdigit, List.filter_cons]
    cases bit E i <;> simp [Nat.add_comm]

/-! The bits whose last entries they are (R154). -/

theorem filterMap_lastOf_lowEntries (E n : Nat) :
    (lowEntries E n).filterMap (lastOf E) = (List.range n).reverse := by
  induction n with
  | zero => rfl
  | succ n ih =>
    rw [lowEntries, List.range_succ, List.reverse_concat, ← ih]
    cases hb : bit E n <;> simp [lastOf, hb]

/-- Every bit has one last entry, the top bit first. -/
theorem filterMap_lastOf_plan {E : Nat} (hE : E ≠ 0) :
    (plan E).filterMap (lastOf E) = (List.range (msb E + 1)).reverse := by
  rw [plan_eq hE, List.range_succ, List.reverse_concat]

  simp [List.filterMap_cons, lastOf, filterMap_lastOf_lowEntries]

/-! The powers they make (R155, R160). -/

/-- What an entry does to a power that `INITZ` starts at `start`: a square doubles it, a multiply adds
one. -/
def entryPower (start q : Nat) : PlanEntry → Nat
  | .convx => q
  | .initz => start
  | .sqr _ => 2 * q
  | .mulx _ => q + 1
  | .convout => q

/-- The power after these entries: with `start = 0` that of the base, with `start = 1` that of the factor
that two passes leave in the registers (R155, R160). -/
def powerFrom (start : Nat) (es : List PlanEntry) : Nat := es.foldl (entryPower start) start

theorem planPower_eq (es : List PlanEntry) : planPower es = powerFrom 0 es := rfl

theorem powerFrom_concat (start : Nat) (es : List PlanEntry) (e : PlanEntry) :
    powerFrom start (es ++ [e]) = entryPower start (powerFrom start es) e := by
  rw [powerFrom, List.foldl_append]
  rfl

/-- The entries of the low bits shift the power left and add those bits. -/
theorem foldl_lowEntries (E start n q : Nat) :
    (lowEntries E n).foldl (entryPower start) q = q * 2 ^ n + E % 2 ^ n := by
  induction n generalizing q with
  | zero => simp [lowEntries, Nat.mod_one]
  | succ n ih =>
    have hdigit : E / 2 ^ n % 2 = (bit E n).toNat := (Nat.toNat_testBit E n).symm
    rw [lowEntries, List.foldl_cons, List.foldl_append, ih, Nat.mod_pow_succ, hdigit]
    cases bit E n <;> simp [entryPower] <;> ring

/-- Before `CONVOUT` the power of a plan is the exponent, and `2^t` more for each unit it starts at. -/
theorem powerFrom_plan {E : Nat} (hE : E ≠ 0) (start : Nat) {done : List PlanEntry}
    (h : done ++ [.convout] = plan E) : powerFrom start done = E + start * 2 ^ msb E := by
  have hdone : done = .convx :: .initz :: .mulx (msb E) :: lowEntries E (msb E) :=
    List.append_cancel_right (h.trans (plan_eq hE))
  have hle : 2 ^ msb E ≤ E := Nat.log2_self_le hE
  have hlt : E < 2 ^ (msb E + 1) := Nat.lt_log2_self
  have hrest : E % 2 ^ msb E = E - 2 ^ msb E := by
    rw [Nat.mod_eq_sub_mod hle, Nat.mod_eq_of_lt (by rw [Nat.pow_succ] at hlt; omega)]
  simp only [hdone, powerFrom, List.foldl_cons, foldl_lowEntries, entryPower, hrest]
  rw [Nat.add_mul]
  omega

end Sys2Proof.Machine
end

section
/-! EXP's first step (R151, R157): the checks, the zero exponent, and the sequencer it loads. -/

namespace Sys2Proof.Machine

section
variable {s : State} {h : SlotNo} {l : Bool}

theorem exec_exp_of_idle (hq : s.me.seq = .idle) : exec (.exp h l) s = .next (expStart h l s) := by
  simp only [exec, execExp, hq]

theorem expStart_of_invalid (hv : (s.slot h).valid = false) :
    expStart h l s = s.raiseFault .badContext := by
  simp only [expStart, hv, Bool.not_false, if_true]

theorem expStart_of_wide (hv : (s.slot h).valid = true) (hwide : (s.slot h).hw < wc s.op.A) :
    expStart h l s = s.refuseCmd .operandShape := by
  have hshape : anyWider (s.slot h).hw [s.op.A] = true :=
    (anyWider_eq_true_iff _ _).2 ⟨_, List.mem_cons_self, hwide⟩
  simp only [expStart, hv, hshape, Bool.not_true, Bool.false_eq_true, if_true, if_false]

/-- Past its checks EXP takes the zero-exponent path or loads its sequencer. -/
theorem expStart_of_checked (hv : (s.slot h).valid = true) (hX : wc s.op.A ≤ (s.slot h).hw) :
    expStart h l s =
      if val s.op.B = 0 then expZero h s else (s.takeBorrow h).setSeq (.run (freshRun h l s)) := by
  have hshape : anyWider (s.slot h).hw [s.op.A] = false :=
    (anyWider_eq_false_iff _ _).2 (List.forall_mem_singleton.2 hX)
  simp only [expStart, hv, hshape, Bool.not_true, Bool.false_eq_true, if_false]

/-- The zero exponent ends in one return, of `1 mod M` or of the failure (R151). -/
theorem expZero_eq (h : SlotNo) (s : State) :
    expZero h s = (s.setDraws s.draws.tookSzOk).retCmd
      (if s.draws.szOkValue then .ok else .hardwareFault)
      (if s.draws.szOkValue then .buffer (bufOf (s.slot h).hw (1 % val (s.slot h).M)) else .none) := by
  unfold expZero
  split <;> rfl

/-- The record of the caller whose sequencer is loaded. -/
theorem loaded_caller (hc : s.cur < s.callers.length) (q : Seq) :
    ((s.takeBorrow h).setSeq q).caller s.cur = { s.caller s.cur with seq := q } :=
  ((s.takeBorrow h).setSeq_caller q s.cur hc).trans (if_pos rfl)

end

/-- Settles O37: the two checks, the one return of the zero exponent, and the load of the sequencer. -/
theorem expStartLoadsTheSequencer : Obligations.ExpStartLoadsTheSequencer := by
  intro s h l hc hq
  refine ⟨_, exec_exp_of_idle hq, ?_⟩
  cases hv : (s.slot h).valid with
  | false => rw [expStart_of_invalid hv, if_pos rfl]; rfl
  | true =>
    rw [if_neg (by decide)]
    by_cases hwide : (s.slot h).hw < wc s.op.A
    · rw [expStart_of_wide hv hwide, if_pos hwide]; rfl
    rw [expStart_of_checked hv (Nat.not_lt.1 hwide), if_neg hwide]
    by_cases hE : val s.op.B = 0
    · have hret := (noReturn_setDraws s s.draws.tookSzOk).returned hc
      rw [if_pos hE, if_pos hE, expZero_eq]
      refine ⟨fun _ => rfl, ⟨rfl, rfl, rfl, rfl⟩, ⟨rfl, rfl, rfl, rfl, rfl⟩, rfl, ?_⟩
      cases s.draws.szOkValue with
      | true => exact ⟨hret _ _, rfl⟩
      | false => exact ⟨hret _ _, rfl⟩
    · rw [if_neg hE, if_neg hE]
      refine ⟨?_, fun g hg => ?_, ⟨rfl, rfl, rfl, rfl⟩, ⟨rfl, rfl, rfl, rfl, rfl⟩, rfl, rfl,
        fun c hne => State.setSeq_caller_ne _ _ c hne, loaded_caller hc _⟩
      · rw [State.setSeq_slot, State.takeBorrow_slot, if_pos rfl]
      · rw [State.setSeq_slot, State.takeBorrow_slot, if_neg hg]

/-- A number of `n + 1` bits has its top bit at `n`. -/
theorem msb_of_two_pow_le {E n m : Nat} (hlow : 2 ^ n ≤ E) (hhigh : E < 2 ^ m) (hm : m = n + 1) :
    E ≠ 0 ∧ msb E = n := by
  subst hm
  have hE : E ≠ 0 := ((Nat.two_pow_pos n).trans_le hlow).ne'
  exact ⟨hE, (Nat.log2_eq_iff hE).2 ⟨hlow, hhigh⟩⟩

/-- Settles O40: the entries of a plan are counted bit by bit, and the first step loads the plan. -/
theorem planLengthIsTheStepCount : Obligations.PlanLengthIsTheStepCount := by
  refine ⟨fun E hE => ⟨length_plan_eq_expSteps hE, expSteps_of_ne_zero hE⟩,
    fun E => length_filter_bit E _, fun s h l hc hq hv hX => ?_, by decide, by decide, by decide,
    fun E hlow hhigh hcount => ?_⟩
  · refine ⟨_, exec_exp_of_idle hq, fun hE => ?_, fun hE => ?_⟩
    · rw [expStart_of_checked hv hX, if_neg hE, loaded_caller hc]
      exact ⟨_, rfl, length_plan_eq_expSteps hE⟩
    · have hret := (noReturn_setDraws s s.draws.tookSzOk).returned hc
      rw [expStart_of_checked hv hX, if_pos hE, expZero_eq]
      exact ⟨if_pos hE, (hret _ _).idle, (hret _ _).cp, ⟨rfl, rfl, rfl, rfl⟩, _, rfl⟩
  · obtain ⟨hE, htop⟩ := msb_of_two_pow_le hlow hhigh rfl
    rw [length_plan hE, htop, hcount]

end Sys2Proof.Machine
end

section
/-! One plan entry of EXP (R153, R154, R156): the block after its acquire, multiply and release, and how the
sequencer goes on from there. -/

namespace Sys2Proof.Machine

/-! What an entry shows and gives. -/

/-- The liveness event of an entry, if the callback is enabled and the entry is the last of a bit (R154). -/
def liveEvents (c : Nat) (r : SeqRun) (e : PlanEntry) : List Event :=
  match lastOf r.E e with
  | some i => if r.L = true then [.live c i] else []
  | none => []

theorem emitLive_eq (s : State) (r : SeqRun) (e : PlanEntry) :
    s.emitLive r e = { s with evt := s.evt ++ liveEvents s.cur r e } := by
  unfold State.emitLive liveEvents
  cases lastOf r.E e <;> cases r.L <;> simp [State.emit]

/-- The events of an entry whose multiply gives `v` (R153). -/
def entryEvents (s : State) (r : SeqRun) (e : PlanEntry) (a b v : Buf) : List Event :=
  [.acq s.cur, .hwop s.cur (hwKind s.cfg.expPasses) (val a) (val b) (val (s.slot r.slot).M) (val v),
    .rel s.cur] ++ liveEvents s.cur r e

/-- The unit's value on an entry's operands, the sizing draw of `d` taken, and the draws it leaves (R122,
R153). -/
def entryValue (s : State) (r : SeqRun) (d : Draws) (a b : Buf) : Buf × Draws :=
  hwValue s.cfg d.tookSzOk s.cfg.expPasses a b (s.slot r.slot).M (s.slot r.slot).Rinv
    (s.slot r.slot).mprime (s.slot r.slot).hw

theorem wc_entryValue {s : State} {r : SeqRun} {d d' : Draws} {a b v : Buf}
    (hv : entryValue s r d a b = (v, d')) : wc v = (s.slot r.slot).hw := by
  have hwords := wc_hwValue s.cfg d.tookSzOk s.cfg.expPasses a b (s.slot r.slot).M
    (s.slot r.slot).Rinv (s.slot r.slot).mprime (s.slot r.slot).hw
  rwa [show hwValue _ _ _ _ _ _ _ _ _ = (v, d') from hv] at hwords

/-- The block after an entry's acquire, multiply, release and liveness: the draws `d` left and the events
`evs` shown. -/
def State.afterEntry (s : State) (d : Draws) (evs : List Event) : State :=
  { s with
    holder := none, hwEn := false, acqCount := s.acqCount + 1, relCount := s.relCount + 1
    draws := d, evt := s.evt ++ evs }

theorem sameSlots_afterEntry (s : State) (d : Draws) (evs : List Event) :
    SameSlots s (s.afterEntry d evs) := fun _ => rfl

theorem noReturn_entryEvents (s : State) (r : SeqRun) (e : PlanEntry) (a b v : Buf) (c : Nat)
    (st : Status) : Event.ret c st ∉ entryEvents s r e a b v := by
  unfold entryEvents liveEvents
  split
  · split <;> simp
  · simp

theorem noReturn_afterEntry (s : State) (d : Draws) {evs : List Event}
    (h : ∀ c st, Event.ret c st ∉ evs) : NoReturn s (s.afterEntry d evs) :=
  ⟨rfl, rfl, rfl, evs, rfl, h⟩

section
variable {s : State} {h : SlotNo} {l : Bool} {r : SeqRun} {e : PlanEntry} {rest : List PlanEntry}
  {a b v : Buf} {d : Draws}

/-! The step of a running sequencer, the lock free. -/

theorem exec_exp_of_entry (h : SlotNo) (l : Bool) (hq : s.me.seq = .run r) (hp : r.plan = e :: rest)
    (ho : entryOperands r (s.slot r.slot) e = some (a, b)) (hfree : s.holder = none) :
    exec (.exp h l) s = .next (expEntry s r e rest a b) := by
  simp [exec, execExp, hq, expStep, hp, ho, State.held, hfree]

/-- An entry whose multiply is sized goes on with the unit's value (R153). -/
theorem expEntry_of_value (hsize : unsizable s.cfg (s.slot r.slot).hw = false)
    (hz : s.draws.szOkValue = true) (hv : entryValue s r s.draws a b = (v, d)) :
    expEntry s r e rest a b =
      expAdvance (s.afterEntry d (entryEvents s r e a b v)) (entryWrites r e rest v) := by
  have hr := HwResult.value (s := s.acquireLock) hsize hz v d hv (wc_entryValue hv)
  rw [expEntry, hr.hwMultiply_eq]
  simp only [emitLive_eq]
  congr 1
  simp [State.afterEntry, entryEvents, State.releaseLock, State.emit, State.setDraws,
    State.acquireLock]

/-- An entry whose multiply is not sized fails, the lock released (R153, R156). -/
theorem expEntry_of_failure
    (hbad : unsizable s.cfg (s.slot r.slot).hw = true ∨ s.draws.szOkValue = false) :
    expEntry s r e rest a b =
      expFail (s.afterEntry
        (if unsizable s.cfg (s.slot r.slot).hw then s.draws else s.draws.tookSzOk)
        [.acq s.cur, .rel s.cur]) r := by
  rcases hwMultiply_cases s.acquireLock s.cfg.expPasses a b (s.slot r.slot).M (s.slot r.slot).Rinv
    (s.slot r.slot).mprime (s.slot r.slot).hw with ⟨hsize, hm⟩ | ⟨hsize, hz, hm⟩ | ⟨hsize, hz, -⟩ <;>
  rw [State.acquireLock_cfg] at hsize
  · rw [expEntry, hm, hsize]
    simp [State.afterEntry, State.releaseLock, State.acquireLock]
  · rw [expEntry, hm, hsize]
    simp [State.afterEntry, State.releaseLock, State.setDraws, State.acquireLock]
  · rw [State.acquireLock_draws] at hz
    simp [hsize, hz] at hbad

/-- After the last entry the borrow is returned and `Z` is the answer (R153). -/
theorem expAdvance_last (s : State) (r : SeqRun) (e : PlanEntry) (v : Buf) :
    expAdvance s (entryWrites r e [] v) =
      (s.returnBorrow r.slot).retCmd .ok (regValue (entryWrites r e [] v).Z) := by
  simp only [expAdvance, entryWrites_plan, entryWrites_slot]

/-- After any other entry the sequencer goes on with the rest of the plan (R153). -/
theorem expAdvance_rest (s : State) (r : SeqRun) (e : PlanEntry) (v : Buf) (hne : rest ≠ []) :
    expAdvance s (entryWrites r e rest v) = s.setSeq (.run (entryWrites r e rest v)) := by
  obtain ⟨e', rest', rfl⟩ := List.exists_cons_of_ne_nil hne
  simp only [expAdvance, entryWrites_plan]

/-! The frame of one entry. -/

/-- An entry that ends the exponentiation takes and gives back the multiplier, returns the borrow and leaves
the other slots and the marks. -/
theorem afterEntry_return_frame (s : State) (d : Draws) (evs : List Event) (g : SlotNo) (st : Status)
    (w : RetValue) :
    let t := ((s.afterEntry d evs).returnBorrow g).retCmd st w
    TookAndGave s t ∧ SameMarks s t ∧ SameSlotsBut g s t ∧
      t.slot g = { s.slot g with borrows := (s.slot g).borrows - 1 } := by
  refine ⟨⟨rfl, rfl, rfl, rfl⟩, ⟨rfl, rfl, rfl, rfl, rfl⟩, fun f hf => ?_, ?_⟩
  · rw [State.retCmd_slot, State.returnBorrow_slot, if_neg hf, sameSlots_afterEntry]
  · rw [State.retCmd_slot, State.returnBorrow_slot, if_pos rfl, sameSlots_afterEntry]

theorem afterEntry_returned (hc : s.cur < s.callers.length) (d : Draws) {evs : List Event}
    (hevs : ∀ c st, Event.ret c st ∉ evs) (g : SlotNo) (st : Status) (w : RetValue) :
    Returned s (((s.afterEntry d evs).returnBorrow g).retCmd st w) st w :=
  ((noReturn_afterEntry s d hevs).trans (noReturn_returnBorrow _ g)).returned hc st w

theorem hwKind_eq (ps : Passes) : hwKind ps = if ps = .one then .montmul else .modmul := by
  cases ps <;> rfl

/-- A word count of at least one cannot be sized exactly when it is too large (R123). -/
theorem unsizable_iff_of_pos {cfg : Config} {n : Nat} (hpos : 1 ≤ n) :
    unsizable cfg n = true ↔ cfg.hwMaxWords < n :=
  (unsizable_eq_true_iff cfg n).trans (or_iff_right (Nat.ne_of_gt hpos))

end

/-- Settles O39: a step is an entry's acquire, multiply and release, then the return or the rest of the
plan; and it waits for the lock alone. -/
theorem expStepRunsOneEntry : Obligations.ExpStepRunsOneEntry := by
  refine ⟨fun s h l r e rest a b hc hq hp ho hfree hpos => ?_,
    fun s c r e rest hc hstop hq hp ho => ?_⟩
  · have hunsz := unsizable_iff_of_pos (cfg := s.cfg) hpos
    refine ⟨_, exec_exp_of_entry h l hq hp ho hfree, ?_⟩
    by_cases hbad : s.cfg.hwMaxWords < (s.slot r.slot).hw ∨ s.draws.szOkValue = false
    · rw [expEntry_of_failure (hbad.imp_left hunsz.2), expFail, if_pos hbad]
      obtain ⟨htook, hmarks, hslots, hslot⟩ := afterEntry_return_frame s
        (if unsizable s.cfg (s.slot r.slot).hw then s.draws else s.draws.tookSzOk)
        [.acq s.cur, .rel s.cur] r.slot .hardwareFault .none
      refine ⟨htook, hmarks, hslots, afterEntry_returned hc _ (by simp) _ _ _, hslot,
        by simp only [← hunsz]; rfl, List.append_assoc ..⟩
    · have hgood := hbad
      rw [← hunsz, not_or, Bool.not_eq_true, Bool.not_eq_false] at hgood
      obtain ⟨hsize, hz⟩ := hgood
      obtain ⟨v, d, hv⟩ : ∃ v d, entryValue s r s.draws a b = (v, d) := ⟨_, _, rfl⟩
      have hwc := wc_entryValue hv
      rw [expEntry_of_value hsize hz hv, if_neg hbad]
      have hevs : entryEvents s r e a b v = [.acq s.cur, .hwop s.cur
          (if s.cfg.expPasses = .one then .montmul else .modmul) (val a) (val b)
          (val (s.slot r.slot).M) (val v), .rel s.cur] ++ liveEvents s.cur r e := by
        rw [entryEvents, hwKind_eq]
      by_cases hlast : rest = []
      · subst hlast
        obtain ⟨htook, hmarks, hslots, hslot⟩ := afterEntry_return_frame s d
          (entryEvents s r e a b v) r.slot .ok (regValue (entryWrites r e [] v).Z)
        rw [expAdvance_last]
        refine ⟨htook, hmarks, hslots, v, hv.symm, hwc, ?_⟩
        rw [if_pos rfl]
        exact ⟨afterEntry_returned hc _ (noReturn_entryEvents s r e a b v) _ _ _, hslot,
          congrArg (s.evt ++ · ++ [Event.ret s.cur .ok]) hevs⟩
      · rw [expAdvance_rest _ _ _ _ hlast]
        refine ⟨⟨rfl, rfl, rfl, rfl⟩, ⟨rfl, rfl, rfl, rfl, rfl⟩, fun _ _ => rfl, v, hv.symm, hwc, ?_⟩
        rw [if_neg hlast]
        refine ⟨rfl, congrArg (s.evt ++ ·) hevs, ?_, fun c hne => State.setSeq_caller_ne _ _ c hne⟩
        exact (State.setSeq_caller _ _ _ hc).trans (if_pos rfl)
  · rw [enabled_iff_not_waits hc hstop (nextOf_run s c r hq), ← held_eq_false_iff]
    simp [waits, State.me, hq, expWaits, hp, Option.isSome_iff_ne_none.2 ho]

end Sys2Proof.Machine
end

section
/-! The values of EXP's registers (R155, R160). One pass divides a product by the radix `ρ`, two by nothing
that the squared radix does not put back; so along the plan the registers hold powers of the base times a
power of the factor that `CONVX` and `INITZ` bring in. -/

namespace Sys2Proof.Machine

/-! The factors. -/

/-- What a multiply with the context's `Rinv` divides a product by (R122). -/
def passFactor (ps : Passes) (h : Nat) : Nat :=
  match ps with
  | .one => rho h
  | .two => 1

/-- The factor with which a register holds a power of the base, where squares and multiplies have brought
it in `p` times (R155, R160). -/
def domainFactor (ps : Passes) (h p : Nat) : Nat :=
  match ps with
  | .one => rho h
  | .two => radixR h ^ p

/-- What `CONVOUT` leaves of that factor. -/
def outFactor (ps : Passes) (h p : Nat) : Nat :=
  match ps with
  | .one => 1
  | .two => radixR h ^ p

theorem domainFactor_one_mul (ps : Passes) (h : Nat) :
    domainFactor ps h 1 * passFactor ps h = radixR h := by
  cases ps with
  | one => exact (radixR_eq h).symm
  | two => simp [domainFactor, passFactor]

theorem domainFactor_mul (ps : Passes) (h p q : Nat) :
    domainFactor ps h p * domainFactor ps h q = domainFactor ps h (p + q) * passFactor ps h := by
  cases ps with
  | one => rfl
  | two => simp [domainFactor, passFactor, pow_add]

theorem outFactor_mul (ps : Passes) (h p : Nat) :
    outFactor ps h p * passFactor ps h = domainFactor ps h p := by
  cases ps <;> simp [outFactor, passFactor, domainFactor]

/-- On a valid context the unit gives the residue of what the product of its operands is, divided by the
pass factor. -/
theorem hwExact_of_modEq {cfg : Config} {k : Slot} (hk : ContextOk cfg k) {ps : Passes} {a b n : Nat}
    (hab : a * b ≡ n * passFactor ps k.hw [MOD val k.M]) :
    hwExact ps k.hw (val k.M) a b (val k.Rinv) = n % val k.M := by
  have hpos : 0 < val k.M := by have := hk.odd; omega
  cases ps with
  | one =>
    refine eq_of_mul_rho_modEq k.hw (val k.M) _ _ hk.odd (montMul_lt _ _ _ _ hpos)
      (Nat.mod_lt _ hpos) ?_
    calc montMul k.hw (val k.M) a b * rho k.hw
        ≡ a * b [MOD val k.M] := montMul_mul_rho _ _ _ _ hk.odd
      _ ≡ n * rho k.hw [MOD val k.M] := hab
      _ ≡ n % val k.M * rho k.hw [MOD val k.M] := ((Nat.mod_modEq _ _).mul_right _).symm
  | two =>
    rw [hwExact_two_of_contextOk hk]
    exact hab.trans (by rw [passFactor, Nat.mul_one])

/-! The registers along the plan. -/

/-- The entries that have run are those in front of the rest of the plan. -/
theorem runDone_append {r : SeqRun} (h : r.plan <:+ plan r.E) : runDone r ++ r.plan = plan r.E := by
  obtain ⟨done, hdone⟩ := h
  rw [runDone, ← hdone, List.length_append, Nat.add_sub_cancel, List.take_left]

theorem runDone_entryWrites {r : SeqRun} {e : PlanEntry} {rest : List PlanEntry}
    (h : r.plan <:+ plan r.E) (hp : r.plan = e :: rest) (v : Buf) :
    runDone (entryWrites r e rest v) = runDone r ++ [e] := by
  have hsplit : plan r.E = (runDone r ++ [e]) ++ rest := by
    rw [← runDone_append h, hp, List.append_assoc, List.singleton_append]
  rw [runDone, entryWrites_E, entryWrites_plan, hsplit, List.length_append, Nat.add_sub_cancel,
    List.take_left]

/-- `CONVOUT` is the last entry of a plan and no other (R152). -/
theorem eq_convout_iff {E : Nat} {e : PlanEntry} {rest : List PlanEntry} (hE : E ≠ 0)
    (h : (e :: rest) <:+ plan E) : e = .convout ↔ rest = [] := by
  obtain ⟨done, hdone⟩ := h
  have hconcat : done ++ e :: rest =
      (.convx :: .initz :: .mulx (msb E) :: lowEntries E (msb E)) ++ [.convout] :=
    hdone.trans (plan_eq hE)
  have hinit : PlanEntry.convout ∉
      PlanEntry.convx :: .initz :: .mulx (msb E) :: lowEntries E (msb E) := by
    simp [mem_lowEntries]
  constructor
  · rintro rfl
    by_contra hne
    obtain ⟨front, last, rfl⟩ := List.eq_nil_or_concat' rest |>.resolve_left hne
    rw [← List.cons_append, ← List.append_assoc] at hconcat
    have hfront := (List.append_inj' hconcat rfl).1
    exact hinit (hfront ▸ by simp)
  · rintro rfl
    exact (List.cons.inj (List.append_inj' hconcat rfl).2).1

/-- The registers hold powers of the base times the factor brought in (R155, R160). -/
structure FactorValues (s : State) (r : SeqRun) : Prop where
  xm : ∀ x, r.Xm = some x →
    val x = val r.X * domainFactor s.cfg.expPasses (s.slot r.slot).hw 1 % val (s.slot r.slot).M
  z : ∀ z, r.Z = some z →
    val z = val r.X ^ powerFrom 0 (runDone r) *
      domainFactor s.cfg.expPasses (s.slot r.slot).hw (powerFrom 1 (runDone r)) %
        val (s.slot r.slot).M

/-- In one pass that is what R155's proof has. -/
theorem runValues_iff {s : State} (hone : s.cfg.expPasses = .one) (r : SeqRun) :
    RunValues s r ↔ FactorValues s r := by
  have hrho : ∀ p, domainFactor s.cfg.expPasses (s.slot r.slot).hw p = rho (s.slot r.slot).hw :=
    fun p => by rw [hone]; rfl
  constructor
  · rintro ⟨hxm, hz⟩
    exact ⟨fun x hx => by rw [hrho, hxm x hx], fun z hz' => by rw [hrho, hz z hz', planPower_eq]⟩
  · rintro ⟨hxm, hz⟩
    exact ⟨fun x hx => by rw [hxm x hx, hrho], fun z hz' => by rw [hz z hz', hrho, planPower_eq]⟩

/-- Registers that hold nothing hold no wrong value. -/
theorem factorValues_of_none {s : State} {r : SeqRun} (hxm : r.Xm = none) (hz : r.Z = none) :
    FactorValues s r :=
  ⟨by simp [hxm], by simp [hz]⟩

/-- The number whose residue an entry gives, on the base `X` and with the powers `q` and `p` before it. -/
def entryTarget (ps : Passes) (h X q p : Nat) (e : PlanEntry) : Nat :=
  match e with
  | .convx => X * domainFactor ps h 1
  | .initz => domainFactor ps h 1
  | .sqr _ => X ^ (2 * q) * domainFactor ps h (2 * p)
  | .mulx _ => X ^ (q + 1) * domainFactor ps h (p + 1)
  | .convout => X ^ q * outFactor ps h p

/-- The number whose residue the next entry `e` of a sequencer gives. -/
def runTarget (s : State) (r : SeqRun) (e : PlanEntry) : Nat :=
  entryTarget s.cfg.expPasses (s.slot r.slot).hw (val r.X) (powerFrom 0 (runDone r))
    (powerFrom 1 (runDone r)) e

section
variable {s : State} {r : SeqRun} {e : PlanEntry} {rest : List PlanEntry} {a b v : Buf}

theorem ContextOk.hw_pos {cfg : Config} {k : Slot} (hk : ContextOk cfg k) : 1 ≤ k.hw :=
  hk.wc_pos.trans hk.wc_le_hw

theorem ContextOk.modulus_pos {cfg : Config} {k : Slot} (hk : ContextOk cfg k) : 0 < val k.M := by
  have := hk.odd; omega

/-- The constant operand of `INITZ` and `CONVOUT`. -/
theorem val_bufOf_one {h : Nat} (hpos : 1 ≤ h) : val (bufOf h 1) = 1 :=
  val_bufOf h 1 (Nat.one_lt_two_pow (by omega))

theorem entryOperands_mulx_eq_some {k : Slot} {i : Nat} (ho : entryOperands r k (.mulx i) = some (a, b)) :
    r.Z = some a ∧ r.Xm = some b := by
  cases hz : r.Z <;> cases hx : r.Xm <;> simp_all [entryOperands]

/-- The operands of an entry multiply to its target and the factor the unit divides by (R155, R160). -/
theorem FactorValues.operands_modEq (h : FactorValues s r) (hk : ContextOk s.cfg (s.slot r.slot))
    (ho : entryOperands r (s.slot r.slot) e = some (a, b)) :
    val a * val b ≡ runTarget s r e * passFactor s.cfg.expPasses (s.slot r.slot).hw
      [MOD val (s.slot r.slot).M] := by
  have hrinv : val (s.slot r.slot).Rinv ≡ domainFactor s.cfg.expPasses (s.slot r.slot).hw 1 *
      passFactor s.cfg.expPasses (s.slot r.slot).hw [MOD val (s.slot r.slot).M] := by
    rw [domainFactor_one_mul, hk.val_Rinv]
    exact Nat.mod_modEq _ _
  have hone := val_bufOf_one hk.hw_pos
  cases e with
  | convx =>
    cases ho
    exact (hrinv.mul_left _).trans (by rw [← Nat.mul_assoc]; rfl)
  | initz =>
    cases ho
    rw [hone, Nat.mul_one]
    exact hrinv
  | sqr i =>
    obtain ⟨z, hz, hzz⟩ := Option.map_eq_some_iff.1 ho
    cases hzz
    rw [h.z _ hz]
    refine ((Nat.mod_modEq _ _).mul (Nat.mod_modEq _ _)).trans ?_
    rw [runTarget, entryTarget, Nat.mul_mul_mul_comm, domainFactor_mul, ← pow_add, ← Nat.two_mul,
      ← Nat.two_mul, Nat.mul_assoc]
  | mulx i =>
    obtain ⟨hz, hx⟩ := entryOperands_mulx_eq_some ho
    rw [h.z _ hz, h.xm _ hx]
    refine ((Nat.mod_modEq _ _).mul (Nat.mod_modEq _ _)).trans ?_
    rw [runTarget, entryTarget, Nat.mul_mul_mul_comm, domainFactor_mul, ← pow_succ, Nat.mul_assoc]
  | convout =>
    obtain ⟨z, hz, hzz⟩ := Option.map_eq_some_iff.1 ho
    cases hzz
    rw [h.z _ hz, hone, Nat.mul_one, runTarget, entryTarget, Nat.mul_assoc, outFactor_mul]
    exact Nat.mod_modEq _ _

/-- The operands of an entry are reduced if the base is, and the modulus is not 1 (R155; assumption
log 17). -/
theorem FactorValues.operands_lt (h : FactorValues s r) (hk : ContextOk s.cfg (s.slot r.slot))
    (hX : val r.X < val (s.slot r.slot).M) (hM : 1 < val (s.slot r.slot).M)
    (ho : entryOperands r (s.slot r.slot) e = some (a, b)) :
    val a < val (s.slot r.slot).M ∧ val b < val (s.slot r.slot).M := by
  have hrinv : val (s.slot r.slot).Rinv < val (s.slot r.slot).M := by
    rw [hk.val_Rinv]; exact Nat.mod_lt _ hk.modulus_pos
  have hone : val (bufOf (s.slot r.slot).hw 1) < val (s.slot r.slot).M := by
    rwa [val_bufOf_one hk.hw_pos]
  have hxm : ∀ x, r.Xm = some x → val x < val (s.slot r.slot).M := fun x hx => by
    rw [h.xm x hx]; exact Nat.mod_lt _ hk.modulus_pos
  have hz : ∀ z, r.Z = some z → val z < val (s.slot r.slot).M := fun z hz => by
    rw [h.z z hz]; exact Nat.mod_lt _ hk.modulus_pos
  cases e with
  | convx => cases ho; exact ⟨hX, hrinv⟩
  | initz => cases ho; exact ⟨hrinv, hone⟩
  | sqr i =>
    obtain ⟨z, hz', hzz⟩ := Option.map_eq_some_iff.1 ho
    cases hzz
    exact ⟨hz _ hz', hz _ hz'⟩
  | mulx i =>
    obtain ⟨hz', hx⟩ := entryOperands_mulx_eq_some ho
    exact ⟨hz _ hz', hxm _ hx⟩
  | convout =>
    obtain ⟨z, hz', hzz⟩ := Option.map_eq_some_iff.1 ho
    cases hzz
    exact ⟨hz _ hz', hone⟩

/-- Where the unit does not draw for an operand, an entry's value is the residue of its target, with no
draw but that of the sizing (R122, R155, R160). -/
theorem FactorValues.entryValue_eq (h : FactorValues s r) (hk : ContextOk s.cfg (s.slot r.slot))
    (hred : s.cfg.unreduced = .exact ∨
      (val r.X < val (s.slot r.slot).M ∧ 1 < val (s.slot r.slot).M))
    (ho : entryOperands r (s.slot r.slot) e = some (a, b)) (d : Draws) :
    entryValue s r d a b =
      (bufOf (s.slot r.slot).hw (runTarget s r e % val (s.slot r.slot).M), d.tookSzOk) := by
  have hm := (montgomeryOk_eq_true_iff _ _).2 ⟨hk.odd, hk.mprime⟩
  have hdrawn : unreducedDrawn s.cfg s.cfg.expPasses (val a) (val b) (val (s.slot r.slot).Rinv)
      (val (s.slot r.slot).M) = false := by
    rcases hred with hexact | ⟨hX, hM⟩
    · exact unreducedDrawn_of_exact hexact _ _ _ _ _
    · obtain ⟨ha, hb⟩ := h.operands_lt hk hX hM ho
      refine unreducedDrawn_of_lt _ _ ha hb ?_
      rw [hk.val_Rinv]
      exact Nat.mod_lt _ hk.modulus_pos
  rw [entryValue, hwValue_eq_exact hm hdrawn, hwExact_of_modEq hk (h.operands_modEq hk ho)]

/-- The residue of a target fits the context's words. -/
theorem val_bufOf_residue {cfg : Config} {k : Slot} (hk : ContextOk cfg k) (n : Nat) :
    val (bufOf k.hw (n % val k.M)) = n % val k.M :=
  val_bufOf _ _ ((Nat.mod_lt _ hk.modulus_pos).trans (val_lt_of_wc_le _ _ (hk.wc_M ▸ hk.wc_le_hw)))

/-- An entry with more to come leaves the registers with the powers that it makes. -/
theorem FactorValues.of_entryWrites (h : FactorValues s r) (hr : RunOk s r) (hp : r.plan = e :: rest)
    (hne : rest ≠ []) (hv : val v = runTarget s r e % val (s.slot r.slot).M) :
    FactorValues s (entryWrites r e rest v) := by
  have hsuffix : (e :: rest) <:+ plan r.E := hp ▸ hr.remains
  have hlast : e ≠ .convout := mt (eq_convout_iff hr.exponent hsuffix).1 hne
  have hdone := runDone_entryWrites hr.remains hp v
  constructor <;>
    simp only [entryWrites_slot, entryWrites_X, hdone, powerFrom_concat]
  · intro x hx
    cases e with
    | convx => cases hx; exact hv
    | initz | sqr i | mulx i => exact h.xm x hx
    | convout => exact absurd rfl hlast
  · intro z hz
    cases e with
    | convx => exact h.z z hz
    | initz => cases hz; rw [hv]; simp [runTarget, entryTarget, entryPower]
    | sqr i | mulx i => cases hz; exact hv
    | convout => exact absurd rfl hlast

/-- The target of the last entry, `CONVOUT`: the power of the base, with the factor of two passes (R155,
R160). -/
theorem runTarget_convout (hr : r.plan <:+ plan r.E) (hE : r.E ≠ 0) (hp : r.plan = [.convout]) :
    runTarget s r .convout = val r.X ^ r.E *
      outFactor s.cfg.expPasses (s.slot r.slot).hw (r.E + 2 ^ msb r.E) := by
  have hdone : runDone r ++ [.convout] = plan r.E := hp ▸ runDone_append hr
  rw [runTarget, entryTarget, powerFrom_plan hE 0 hdone, powerFrom_plan hE 1 hdone, Nat.zero_mul,
    Nat.add_zero, Nat.one_mul]

end

end Sys2Proof.Machine
end

section
/-! Exponentiations among the steps of others (R155, R156, R159): what a command makes of its caller's
sequencer, and that every step keeps the values of every running sequencer. -/

namespace Sys2Proof.Machine

theorem HwResult.entryValue_eq {s t : State} {r : SeqRun} {a b v : Buf}
    (hr : HwResult s.acquireLock s.cfg.expPasses a b (s.slot r.slot).M (s.slot r.slot).Rinv
      (s.slot r.slot).mprime (s.slot r.slot).hw (some v) t) :
    ∃ d, entryValue s r s.draws a b = (v, d) := by
  cases hr with
  | value hu hz v d hv hwc => exact ⟨d, hv⟩

/-- What command `i` makes of the record of its caller (R28, R150 to R156), as far as its sequencer goes. -/
inductive SeqEffect (s : State) (i : Instr) : Caller → Prop where
  /-- The record stays. -/
  | stays : SeqEffect s i s.me
  /-- A command that is no step of a running exponentiation returns. -/
  | returns (x : Caller) (hq : ∀ h l, i = .exp h l → s.me.seq = .idle) (hx : x.seq = .idle) :
      SeqEffect s i x
  /-- EXP's first step loads a sequencer with nothing in its registers. -/
  | starts (r : SeqRun) (hq : s.me.seq = .idle) (hxm : r.Xm = none) (hz : r.Z = none) :
      SeqEffect s i { s.me with seq := .run r }
  /-- An entry fails. -/
  | fails (x : Caller) (hx : x.seq = .idle)
      (hret : x.ret = { status := .hardwareFault, value := .none }) : SeqEffect s i x
  /-- An entry with more to come. -/
  | advances (r : SeqRun) (e : PlanEntry) (rest : List PlanEntry) (a b v : Buf) (d : Draws)
      (hq : s.me.seq = .run r) (hp : r.plan = e :: rest) (hne : rest ≠ [])
      (ho : entryOperands r (s.slot r.slot) e = some (a, b))
      (hv : entryValue s r s.draws a b = (v, d)) :
      SeqEffect s i { s.me with seq := .run (entryWrites r e rest v) }
  /-- The last entry. -/
  | ends (r : SeqRun) (e : PlanEntry) (a b v : Buf) (d : Draws) (x : Caller)
      (hq : s.me.seq = .run r) (hp : r.plan = [e])
      (ho : entryOperands r (s.slot r.slot) e = some (a, b))
      (hv : entryValue s r s.draws a b = (v, d)) (hx : x.seq = .idle)
      (hret : x.ret = { status := .ok, value := regValue (entryWrites r e [] v).Z }) :
      SeqEffect s i x

theorem NoReturn.retCmd_seq {s t : State} (h : NoReturn s t) (hc : s.cur < s.callers.length)
    (st : Status) (w : RetValue) : (t.retCmd st w).me.seq = .idle := by
  rw [h.retCmd_me hc]

theorem NoReturn.retCmd_ret {s t : State} (h : NoReturn s t) (hc : s.cur < s.callers.length)
    (st : Status) (w : RetValue) : (t.retCmd st w).me.ret = { status := st, value := w } := by
  rw [h.retCmd_me hc]

theorem NoReturn.retMultiply_seq {s t : State} (h : NoReturn s t) (hc : s.cur < s.callers.length)
    (v : Option Buf) : (t.retMultiply v).me.seq = .idle := by
  cases v <;> exact h.retCmd_seq hc _ _

/-- Every command ends in one of those ways for its caller. -/
theorem ExecShape.seqEffect {s t : State} {i : Instr} (h : ExecShape s i t)
    (hc : s.cur < s.callers.length) : SeqEffect s i t.me := by
  cases h with
  | waits => exact .stays
  | fault => exact .stays
  | refusal => exact .stays
  | plain _ d st v hw hq => exact .returns _ hq ((noReturn_setDraws s d).retCmd_seq hc _ _)
  | build =>
    exact .returns _ nofun (((noReturn_setDraws s _).trans (noReturn_setSlot _ _ _)).retCmd_seq hc _ _)
  | destroy =>
    exact .returns _ nofun (((noReturn_setSlot s _ _).trans (noReturn_setDraws _ _)).retCmd_seq hc _ _)
  | acquire => exact .returns _ nofun ((noReturn_acquireLock s).retCmd_seq hc _ _)
  | release => exact .returns _ nofun ((noReturn_releaseLock s).retCmd_seq hc _ _)
  | primitive _ ps X Y M D p h v t hi hh hr =>
    refine .returns _ ?_ (hr.noReturn.retMultiply_seq hc v)
    rcases hi with rfl | rfl <;> exact nofun
  | mult h v t hv hshape hfree hr =>
    exact .returns _ nofun (hr.noReturn_of_acquireLock.retMultiply_seq hc v)
  | expStart h l hq =>
    rw [(show NoReturn s (s.takeBorrow h) from noReturn_setSlot s h _).setSeq_me hc]
    exact .starts _ hq rfl rfl
  | expFail h l r e rest a b t hq hp ho hfree hr =>
    have hn := hr.noReturn_of_acquireLock.trans (noReturn_returnBorrow _ r.slot)
    exact .fails _ (hn.retCmd_seq hc _ _) (hn.retCmd_ret hc _ _)
  | expEntry h l r e e' rest a b v t hq hp ho hfree hr =>
    obtain ⟨d, hv⟩ := hr.entryValue_eq
    rw [(hr.noReturn_of_acquireLock.trans (noReturn_emitLive _ r e)).setSeq_me hc]
    exact .advances r e _ a b v d hq hp (List.cons_ne_nil _ _) ho hv
  | expLast h l r e a b v t hq hp ho hfree hr =>
    obtain ⟨d, hv⟩ := hr.entryValue_eq
    have hn := (hr.noReturn_of_acquireLock.trans (noReturn_emitLive _ r e)).trans
      (noReturn_returnBorrow _ r.slot)
    exact .ends r e a b v d _ hq hp ho hv (hn.retCmd_seq hc _ _) (hn.retCmd_ret hc _ _)

/-- The last entry answers the power of the base, with the factor of two passes (R155, R160). -/
theorem FactorValues.last_answer {s : State} {r : SeqRun} {e : PlanEntry} {a b v : Buf}
    {d d' : Draws} (h : FactorValues s r) (hr : RunOk s r) (hk : ContextOk s.cfg (s.slot r.slot))
    (hred : s.cfg.unreduced = .exact ∨
      (val r.X < val (s.slot r.slot).M ∧ 1 < val (s.slot r.slot).M))
    (hp : r.plan = [e]) (ho : entryOperands r (s.slot r.slot) e = some (a, b))
    (hv : entryValue s r d a b = (v, d')) :
    (entryWrites r e [] v).Z = some (bufOf (s.slot r.slot).hw (val r.X ^ r.E *
      outFactor s.cfg.expPasses (s.slot r.slot).hw (r.E + 2 ^ msb r.E) % val (s.slot r.slot).M)) := by
  obtain rfl : e = .convout := (eq_convout_iff hr.exponent (hp ▸ hr.remains)).2 rfl
  rw [h.entryValue_eq hk hred ho, runTarget_convout hr.remains hr.exponent hp] at hv
  cases hv
  rfl

/-- A borrowed valid slot after a command has the modulus and the words it had before (R106, R159). -/
theorem SlotEffect.hw_M_of_borrowed {s : State} {i : Instr} {g : SlotNo} {k : Slot}
    (h : SlotEffect s i g k) (hv : k.valid = true) (hb : 0 < k.borrows) :
    k.hw = (s.slot g).hw ∧ k.M = (s.slot g).M := by
  cases h with
  | keeps n => exact ⟨rfl, rfl⟩
  | builds => exact absurd hb (Nat.lt_irrefl 0)
  | destroys => cases hv

/-- The values of a sequencer's registers speak of its slot's `hw` and `M` alone. -/
theorem RunValues.of_slot_eq {s t : State} {r : SeqRun} (h : RunValues s r)
    (hhw : (t.slot r.slot).hw = (s.slot r.slot).hw) (hM : (t.slot r.slot).M = (s.slot r.slot).M) :
    RunValues t r :=
  ⟨hhw ▸ hM ▸ h.xm, hhw ▸ hM ▸ h.z⟩

/-- The sequencer that a command leaves running for its caller has the values of R155's proof. -/
theorem SeqEffect.runValues {s : State} {i : Instr} {x : Caller} (h : SeqEffect s i x) (hs : s.Inv)
    (hvals : s.SeqValues) (hone : s.cfg.expPasses = .one) (hexact : s.cfg.unreduced = .exact)
    {r : SeqRun} (hx : x.seq = .run r) : RunValues s r := by
  cases h with
  | stays => exact hvals s.cur r hx
  | returns _ hq hidle => rw [hidle] at hx; cases hx
  | starts r' hq hxm hz => cases hx; exact (runValues_iff hone r).2 (factorValues_of_none hxm hz)
  | fails _ hidle => rw [hidle] at hx; cases hx
  | advances r' e rest a b v d hq hp hne ho hv =>
    cases hx
    have hr := hs.runs s.cur r' hq
    have hk := hs.contexts r'.slot hr.valid
    have hfactor := (runValues_iff hone r').1 (hvals s.cur r' hq)
    rw [hfactor.entryValue_eq hk (.inl hexact) ho] at hv
    cases hv
    exact (runValues_iff hone _).2 (hfactor.of_entryWrites hr hp hne (val_bufOf_residue hk _))
  | ends _ _ _ _ _ _ _ _ _ _ _ hidle => rw [hidle] at hx; cases hx

/-- A running sequencer that stops has answered the power of the base, or has failed (R155, R156). -/
theorem SeqEffect.answer {s : State} {i : Instr} {x : Caller} (h : SeqEffect s i x) (hs : s.Inv)
    (hvals : s.SeqValues) (hone : s.cfg.expPasses = .one) (hexact : s.cfg.unreduced = .exact)
    (hnext : s.nextOf s.cur = some (.ok i)) {r : SeqRun} (hq : s.me.seq = .run r)
    (hx : x.seq = .idle) :
    x.ret = { status := .hardwareFault, value := .none } ∨
      x.ret = { status := .ok, value := .buffer (bufOf (s.slot r.slot).hw
        (val r.X ^ r.E % val (s.slot r.slot).M)) } := by
  cases h with
  | stays => rw [hq] at hx; cases hx
  | returns _ hidle =>
    cases (nextOf_run s s.cur r hq).symm.trans hnext
    rw [hidle _ _ rfl] at hq
    cases hq
  | starts => cases hx
  | fails _ _ hret => exact .inl hret
  | advances => cases hx
  | ends r' e a b v d _ hq' hp ho hv _ hret =>
    cases hq'.symm.trans hq
    have hr := hs.runs s.cur r hq
    have hfactor := (runValues_iff hone r).1 (hvals s.cur r hq)
    rw [hfactor.last_answer hr (hs.contexts r.slot hr.valid) (.inl hexact) hp ho hv, hone,
      outFactor, Nat.mul_one] at hret
    exact .inr hret

/-- Settles O46: the caller's own sequencer by the ways a command can end for it, every other one because
its record and its borrowed context stay. -/
theorem stepKeepsTheSequencerValues : Obligations.StepKeepsTheSequencerValues := by
  intro s t hs hvals hone hexact hstep
  obtain ⟨c, -, -, hc, hstop, ⟨e, -, rfl⟩ | ⟨i, hnext, -, -, hshape⟩⟩ := step_cases s t hstep
  · exact ⟨fun d r hr => (hvals d r hr).of_slot_eq rfl rfl,
      fun d r hr hidle => absurd (hr.symm.trans hidle) nofun⟩
  · have hs' := hs.scheduled hc
    have hvals' : (s.scheduled c).SeqValues := fun d r hr => (hvals d r hr).of_slot_eq rfl rfl
    have ht := hs'.exec hshape hnext hstop
    have heff := hshape.callerEffect
    have hcur : t.cur = c := heff.frame.2.1
    have hseq : SeqEffect (s.scheduled c) i (t.caller c) := by
      have := hshape.seqEffect hc
      rwa [State.me, hcur] at this
    refine ⟨fun d r hr => ?_, fun d r hr hidle => ?_⟩
    · have hold : RunValues (s.scheduled c) r := by
        by_cases hd : d = c
        · subst hd; exact hseq.runValues hs' hvals' hone hexact hr
        · rw [heff.others d hd] at hr; exact hvals' d r hr
      obtain ⟨hhw, hM⟩ := (hshape.slotEffect r.slot).hw_M_of_borrowed (ht.runs d r hr).valid
        (ht.borrowed hr)
      exact hold.of_slot_eq hhw hM
    · by_cases hd : d = c
      · subst hd; exact hseq.answer hs' hvals' hone hexact hnext hr hidle
      · rw [heff.others d hd] at hidle; exact absurd (hr.symm.trans hidle) nofun

end Sys2Proof.Machine
end

section
/-! A whole EXP with no other caller's step between (R150 to R160): the run of its plan on the registers and
the draws alone, and the block along it. -/

namespace Sys2Proof.Machine

/-! The plan on the registers and the draws. -/

/-- The entries `es` run one after the other, every sizing draw true: from the registers `r` and the draws `d`
to `r'` and `d'`, showing the events `evs`; the context, the parameters and the caller are those of `s`
(R152 to R154). -/
inductive PlanRun (s : State) :
    List PlanEntry → SeqRun → Draws → List Event → SeqRun → Draws → Prop where
  | nil (r : SeqRun) (d : Draws) : PlanRun s [] r d [] r d
  | cons {e : PlanEntry} {es rest : List PlanEntry} {r r' : SeqRun} {a b v : Buf} {d d₁ d' : Draws}
      {evs : List Event} (hp : r.plan = e :: rest)
      (ho : entryOperands r (s.slot r.slot) e = some (a, b)) (hz : d.szOkValue = true)
      (hv : entryValue s r d a b = (v, d₁)) (hrest : PlanRun s es (entryWrites r e rest v) d₁ evs r' d') :
      PlanRun s (e :: es) r d (entryEvents s r e a b v ++ evs) r' d'

section
variable {s : State} {es : List PlanEntry} {r r' : SeqRun} {d d' : Draws} {evs : List Event}

theorem PlanRun.plan_eq (h : PlanRun s es r d evs r' d') : r.plan = es ++ r'.plan := by
  induction h with
  | nil => rfl
  | cons hp ho hz hv hrest ih => rw [hp, List.cons_append, ← ih, entryWrites_plan]

theorem PlanRun.slot_eq (h : PlanRun s es r d evs r' d') : r'.slot = r.slot := by
  induction h with
  | nil => rfl
  | cons hp ho hz hv hrest ih => rw [ih, entryWrites_slot]

/-- A multiply takes one sizing draw (R123). -/
theorem szOk_entryValue (s : State) (r : SeqRun) (d : Draws) (a b : Buf) :
    (entryValue s r d a b).2.szOk = d.szOk.tail := by
  rcases hwValue_cases s.cfg d.tookSzOk s.cfg.expPasses a b (s.slot r.slot).M (s.slot r.slot).Rinv
    (s.slot r.slot).mprime (s.slot r.slot).hw with ⟨-, -, hv⟩ | ⟨-, hv⟩ <;>
  · rw [entryValue, hv]; rfl

theorem szOkValue_of_szOk {b : Bool} {more : List Bool} (h : d.szOk = b :: more) : d.szOkValue = b := by
  rw [Draws.szOkValue, h]
  rfl

/-- As many entries run as there are sizing draws that are true: their operands are there. -/
theorem exists_planRun (n : Nat) {more : List Bool} (hr : RunOk s r) (hn : n ≤ r.plan.length)
    (hsz : d.szOk = List.replicate n true ++ more) :
    ∃ evs r' d', PlanRun s (r.plan.take n) r d evs r' d' ∧ d'.szOk = more ∧
      (r'.plan ≠ [] → RunOk s r') := by
  induction n generalizing r d with
  | zero => exact ⟨[], r, d, .nil r d, hsz, fun _ => hr⟩
  | succ n ih =>
    obtain ⟨e, rest, hp⟩ := List.exists_cons_of_ne_nil hr.nonempty
    obtain ⟨⟨a, b⟩, ho⟩ := Option.isSome_iff_exists.1 (hr.entryOperands_isSome hp (s.slot r.slot))
    obtain ⟨v, d₁, hv⟩ : ∃ v d₁, entryValue s r d a b = (v, d₁) := ⟨_, _, rfl⟩
    rw [List.replicate_succ, List.cons_append] at hsz
    have hsz₁ : d₁.szOk = List.replicate n true ++ more := by
      have := szOk_entryValue s r d a b
      rwa [hv, hsz] at this
    have htake : r.plan.take (n + 1) = e :: rest.take n := by rw [hp]; rfl
    have hstep : ∀ {es evs r' d'}, PlanRun s es (entryWrites r e rest v) d₁ evs r' d' →
        PlanRun s (e :: es) r d (entryEvents s r e a b v ++ evs) r' d' :=
      .cons hp ho (szOkValue_of_szOk hsz) hv
    rw [htake]
    cases rest with
    | nil =>
      obtain rfl : n = 0 := by rw [hp] at hn; simpa using hn
      exact ⟨_, _, _, hstep (.nil _ _), hsz₁, fun hne => absurd (entryWrites_plan ..) hne⟩
    | cons e' rest =>
      obtain ⟨evs, r', d', hrun, hmore⟩ :=
        ih (hr.of_entryWrites hp (wc_entryValue hv)) (by rw [entryWrites_plan]; simpa [hp] using hn) hsz₁
      rw [entryWrites_plan] at hrun
      exact ⟨_, r', d', hstep hrun, hmore⟩

/-- A plan that runs to its end leaves in `Z` the power of the base, with the factor of two passes (R155,
R160). -/
theorem PlanRun.answer (h : PlanRun s es r d evs r' d') (hend : r'.plan = []) (hr : RunOk s r)
    (hvals : FactorValues s r) (hk : ContextOk s.cfg (s.slot r.slot))
    (hred : s.cfg.unreduced = .exact ∨
      (val r.X < val (s.slot r.slot).M ∧ 1 < val (s.slot r.slot).M)) :
    r'.Z = some (bufOf (s.slot r.slot).hw (val r.X ^ r.E *
      outFactor s.cfg.expPasses (s.slot r.slot).hw (r.E + 2 ^ msb r.E) % val (s.slot r.slot).M)) := by
  induction h with
  | nil => exact absurd hend hr.nonempty
  | @cons e es rest r r' a b v d d₁ d' evs hp ho hz hv hrest ih =>
    cases rest with
    | nil =>
      cases hrest with
      | nil => exact hvals.last_answer hr hk hred hp ho hv
      | cons hp' => rw [entryWrites_plan] at hp'; cases hp'
    | cons e' rest =>
      have hval : val v = runTarget s r e % val (s.slot r.slot).M := by
        rw [hvals.entryValue_eq hk hred ho] at hv
        cases hv
        exact val_bufOf_residue hk _
      have hr' := hr.of_entryWrites hp (wc_entryValue hv)
      have hvals' := hvals.of_entryWrites hr hp (List.cons_ne_nil _ _) hval
      simp only [entryWrites_slot, entryWrites_X, entryWrites_E] at ih
      exact ih hend hr' hvals' hk hred

/-! The liveness callback (R154). -/

/-- The sequencer with the callback off. -/
def SeqRun.quiet (r : SeqRun) : SeqRun := { r with L := false }

/-- The events that are no callbacks of caller `c`. -/
def quietEvents (c : Nat) (evs : List Event) : List Event :=
  evs.filter fun e => (liveBit c e).isNone

theorem entryOperands_quiet (r : SeqRun) (k : Slot) (e : PlanEntry) :
    entryOperands r.quiet k e = entryOperands r k e := by cases e <;> rfl

theorem entryWrites_quiet (r : SeqRun) (e : PlanEntry) (rest : List PlanEntry) (v : Buf) :
    entryWrites r.quiet e rest v = (entryWrites r e rest v).quiet := by cases e <;> rfl

theorem entryWrites_L (r : SeqRun) (e : PlanEntry) (rest : List PlanEntry) (v : Buf) :
    (entryWrites r e rest v).L = r.L := by cases e <;> rfl

theorem quietEvents_append (c : Nat) (evs evs' : List Event) :
    quietEvents c (evs ++ evs') = quietEvents c evs ++ quietEvents c evs' := List.filter_append ..

theorem filterMap_liveBit_quietEvents (c : Nat) (evs : List Event) :
    (quietEvents c evs).filterMap (liveBit c) = [] := by
  simp [quietEvents, List.filterMap_eq_nil_iff]

theorem quietEvents_entryEvents (s : State) (r : SeqRun) (e : PlanEntry) (a b v : Buf) :
    quietEvents s.cur (entryEvents s r e a b v) = entryEvents s r.quiet e a b v := by
  have hlive : quietEvents s.cur (liveEvents s.cur r e) = [] := by
    unfold liveEvents quietEvents
    cases lastOf r.E e <;> cases r.L <;> simp [liveBit]
  have hquiet : liveEvents s.cur r.quiet e = [] := by
    unfold liveEvents
    cases lastOf r.quiet.E e <;> rfl
  rw [entryEvents, quietEvents_append, hlive, entryEvents, hquiet]
  rfl

/-- With the callback off the same entries give the same values and events, but for the callbacks. -/
theorem PlanRun.quiet (h : PlanRun s es r d evs r' d') :
    PlanRun s es r.quiet d (quietEvents s.cur evs) r'.quiet d' := by
  induction h with
  | nil r d => exact .nil _ d
  | @cons e es rest r r' a b v d d₁ d' evs hp ho hz hv hrest ih =>
    rw [quietEvents_append, quietEvents_entryEvents]
    exact .cons hp ((entryOperands_quiet ..).trans ho) hz hv (entryWrites_quiet r e rest v ▸ ih)

/-- With the callback on each entry that is the last of a bit shows that bit. -/
theorem PlanRun.filterMap_liveBit (h : PlanRun s es r d evs r' d') (hL : r.L = true) :
    evs.filterMap (liveBit s.cur) = es.filterMap (lastOf r.E) := by
  induction h with
  | nil => rfl
  | @cons e es rest r r' a b v d d₁ d' evs hp ho hz hv hrest ih =>
    have hbits : (entryEvents s r e a b v).filterMap (liveBit s.cur) = (lastOf r.E e).toList := by
      cases he : lastOf r.E e <;> simp [List.filterMap_cons, entryEvents, liveEvents, liveBit, he, hL]
    rw [List.filterMap_append, hbits, ih (by rw [entryWrites_L, hL]), entryWrites_E]
    cases he : lastOf r.E e <;> simp [he]

end

end Sys2Proof.Machine
end

section
/-! The block along a whole EXP (R150 to R160), from its first step to its return or its failure. -/

namespace Sys2Proof.Machine

/-- From `s` EXP's first step and `n` entries have run: the registers are `r`, the draws left `d`, and the
history has grown by `evs`; the slot's borrow is taken and the lock free (R151, R153). -/
structure InExp (s : State) (n : Nat) (r : SeqRun) (d : Draws) (evs : List Event) (t : State) :
    Prop where
  slots : SameSlots (s.takeBorrow r.slot) t
  marks : SameMarks s t
  holder : t.holder = none
  acqCount : t.acqCount = s.acqCount + n
  relCount : t.relCount = s.relCount + n
  callers : t.callers = s.callers.set s.cur { s.me with seq := .run r }
  draws : t.draws = d
  evt : t.evt = s.evt ++ evs

/-- From `s` EXP has run to its end with `n` hardware steps: the borrow is returned and the lock free (R153,
R156, R157). -/
structure ExpEnded (s : State) (n : Nat) (st : Status) (w : RetValue) (d : Draws) (evs : List Event)
    (t : State) : Prop where
  returned : Returned s t st w
  slots : SameSlots s t
  marks : SameMarks s t
  holder : t.holder = none
  acqCount : t.acqCount = s.acqCount + n
  relCount : t.relCount = s.relCount + n
  draws : t.draws = d
  evt : t.evt = s.evt ++ evs ++ [.ret s.cur st]

/-! One command more. -/

theorem execTimes_cons {i : Instr} {n : Nat} {s t : State} (h : exec i s = .next t) :
    execTimes i (n + 1) s = execTimes i n t := by
  simp only [execTimes, h]

theorem execTimes_snoc {i : Instr} {n : Nat} {s t u : State} (ht : execTimes i n s = .next t)
    (hu : exec i t = .next u) : execTimes i (n + 1) s = .next u := by
  induction n generalizing s with
  | zero => cases ht; rw [execTimes_cons hu]; rfl
  | succ n ih =>
    obtain ⟨s', hs', -⟩ := exec_shape i s
    rw [execTimes_cons hs'] at ht ⊢
    exact ih ht

section
variable {s t : State} {n : Nat} {r r' : SeqRun} {d d₁ d' : Draws} {evs evs₁ : List Event}
  {e : PlanEntry} {es rest : List PlanEntry} {a b v : Buf}

/-! What an entry reads in the block is what it reads in `s`: the borrows count for nothing. -/

theorem InExp.cur (ht : InExp s n r d evs t) : t.cur = s.cur := ht.marks.cur

theorem InExp.slot (ht : InExp s n r d evs t) :
    t.slot r.slot = { s.slot r.slot with borrows := (s.slot r.slot).borrows + 1 } := by
  rw [ht.slots r.slot, State.takeBorrow_slot, if_pos rfl]

theorem InExp.caller (ht : InExp s n r d evs t) (hc : s.cur < s.callers.length) :
    t.caller s.cur = { s.me with seq := .run r } := by
  rw [State.caller, ht.callers, List.getD_eq_getElem _ _ (by rwa [List.length_set]),
    List.getElem_set_self]

theorem InExp.caller_ne (ht : InExp s n r d evs t) {c : Nat} (hne : c ≠ s.cur) :
    t.caller c = s.caller c := by
  rw [State.caller, ht.callers]
  exact s.setMe_caller_ne _ c hne

theorem InExp.me (ht : InExp s n r d evs t) (hc : s.cur < s.callers.length) :
    t.me = { s.me with seq := .run r } := by
  rw [State.me, ht.cur, ht.caller hc]

theorem InExp.cur_lt (ht : InExp s n r d evs t) (hc : s.cur < s.callers.length) :
    t.cur < t.callers.length := by
  rwa [ht.cur, ht.callers, List.length_set]

theorem entryOperands_withBorrows (r : SeqRun) (k : Slot) (m : Nat) (e : PlanEntry) :
    entryOperands r { k with borrows := m } e = entryOperands r k e := by cases e <;> rfl

theorem InExp.operands_eq (ht : InExp s n r d evs t) (e : PlanEntry) :
    entryOperands r (t.slot r.slot) e = entryOperands r (s.slot r.slot) e := by
  rw [ht.slot, entryOperands_withBorrows]

theorem InExp.value_eq (ht : InExp s n r d evs t) (a b : Buf) :
    entryValue t r t.draws a b = entryValue s r d a b := by
  rw [entryValue, ht.slot, ht.marks.cfg, ht.draws]
  rfl

theorem InExp.events_eq (ht : InExp s n r d evs t) (e : PlanEntry) (a b v : Buf) :
    entryEvents t r e a b v = entryEvents s r e a b v := by
  rw [entryEvents, ht.slot, ht.cur, ht.marks.cfg]
  rfl

/-! One entry. -/

/-- The step of an entry in the block, in terms of `s`. -/
theorem InExp.exec_entry (ht : InExp s n r d evs t) (hc : s.cur < s.callers.length)
    (hp : r.plan = e :: rest) (ho : entryOperands r (s.slot r.slot) e = some (a, b)) (g : SlotNo)
    (l : Bool) : exec (.exp g l) t = .next (expEntry t r e rest a b) :=
  exec_exp_of_entry g l (by rw [ht.me hc]) hp ((ht.operands_eq e).trans ho) ht.holder

/-- The step of an entry whose multiply is sized. -/
theorem InExp.exec_entry_of_value (ht : InExp s n r d evs t) (hc : s.cur < s.callers.length)
    (hsize : unsizable s.cfg (s.slot r.slot).hw = false) (hp : r.plan = e :: rest)
    (ho : entryOperands r (s.slot r.slot) e = some (a, b)) (hz : d.szOkValue = true)
    (hv : entryValue s r d a b = (v, d₁)) (g : SlotNo) (l : Bool) :
    exec (.exp g l) t =
      .next (expAdvance (t.afterEntry d₁ (entryEvents s r e a b v)) (entryWrites r e rest v)) := by
  rw [ht.exec_entry hc hp ho, expEntry_of_value (by rwa [ht.marks.cfg, ht.slot]) (by rwa [ht.draws])
    ((ht.value_eq a b).trans hv), ht.events_eq]

/-- After an entry with more to come the exponentiation is one entry further. -/
theorem InExp.advance (ht : InExp s n r d evs t) (hc : s.cur < s.callers.length) (hne : rest ≠ []) :
    InExp s (n + 1) (entryWrites r e rest v) d₁ (evs ++ evs₁)
      (expAdvance (t.afterEntry d₁ evs₁) (entryWrites r e rest v)) := by
  rw [expAdvance_rest _ _ _ _ hne]
  exact {
    slots := by rw [entryWrites_slot]; exact ht.slots
    marks := ⟨ht.marks.faults, ht.marks.refused, ht.marks.cfg, ht.marks.cur, ht.marks.turns⟩
    holder := rfl
    acqCount := congrArg (· + 1) ht.acqCount
    relCount := congrArg (· + 1) ht.relCount
    callers := by
      have hme : (t.afterEntry d₁ evs₁).me = { s.me with seq := .run r } := ht.me hc
      have hcallers : (t.afterEntry d₁ evs₁).callers = t.callers := rfl
      have hcur : (t.afterEntry d₁ evs₁).cur = s.cur := ht.cur
      rw [State.setSeq_callers, hme, hcallers, hcur, ht.callers, List.set_set]
    draws := rfl
    evt := by rw [← List.append_assoc, ← ht.evt]; rfl }

/-- An entry that ends the exponentiation returns the borrow (R153, R156). -/
theorem InExp.finish (ht : InExp s n r d evs t) (hc : s.cur < s.callers.length)
    (hevs : ∀ c st, Event.ret c st ∉ evs₁) (st : Status) (w : RetValue) :
    ExpEnded s (n + 1) st w d₁ (evs ++ evs₁)
      (((t.afterEntry d₁ evs₁).returnBorrow r.slot).retCmd st w) := by
  have hret := afterEntry_returned (ht.cur_lt hc) d₁ hevs r.slot st w
  have hcaller := ht.caller hc
  exact {
    returned := {
      ret := ht.cur ▸ hret.ret
      cp := by rw [← ht.cur, hret.cp, ht.cur, hcaller]; rfl
      idle := ht.cur ▸ hret.idle
      stream := by rw [← ht.cur, hret.stream, ht.cur, hcaller]; rfl
      others := fun c hne => (hret.others c (ht.cur ▸ hne)).trans (ht.caller_ne hne)
      number := by rw [hret.number, ht.callers, List.length_set] }
    slots := fun g => by
      rw [State.retCmd_slot, State.returnBorrow_slot, sameSlots_afterEntry, sameSlots_afterEntry,
        ht.slot, ht.slots g, State.takeBorrow_slot]
      split
      · next hg => rw [hg]; rfl
      · rfl
    marks := ⟨ht.marks.faults, ht.marks.refused, ht.marks.cfg, ht.marks.cur, ht.marks.turns⟩
    holder := rfl
    acqCount := congrArg (· + 1) ht.acqCount
    relCount := congrArg (· + 1) ht.relCount
    draws := rfl
    evt := by
      have hevt : (t.afterEntry d₁ evs₁).evt = t.evt ++ evs₁ := rfl
      have hcur : (t.afterEntry d₁ evs₁).cur = s.cur := ht.cur
      rw [State.retCmd_evt, State.returnBorrow_evt, State.returnBorrow_cur, hevt, hcur, ht.evt,
        List.append_assoc s.evt] }

/-! All entries. -/

/-- The block runs entries with more to come one after the other. -/
theorem PlanRun.execTimes_of_rest (h : PlanRun s es r d evs₁ r' d') (ht : InExp s n r d evs t)
    (hc : s.cur < s.callers.length) (hsize : unsizable s.cfg (s.slot r.slot).hw = false)
    (hne : r'.plan ≠ []) (g : SlotNo) (l : Bool) :
    ∃ u, execTimes (.exp g l) es.length t = .next u ∧
      InExp s (n + es.length) r' d' (evs ++ evs₁) u := by
  induction h generalizing t n evs with
  | nil => exact ⟨t, rfl, by rwa [List.append_nil]⟩
  | @cons e es rest r r' a b v d d₁ d' evs₁ hp ho hz hv hrest ih =>
    have hmore : rest ≠ [] := by
      have := hrest.plan_eq
      rw [entryWrites_plan] at this
      simp [this, hne]
    obtain ⟨u, hu, hin⟩ :=
      ih (ht.advance hc hmore) (by rwa [entryWrites_slot]) hne
    refine ⟨u, (execTimes_cons (ht.exec_entry_of_value hc hsize hp ho hz hv g l)).trans hu, ?_⟩
    rwa [List.append_assoc, Nat.add_assoc, Nat.add_comm 1] at hin

/-- The block runs entries to the plan's end and returns `Z` (R153). -/
theorem PlanRun.execTimes_of_end (h : PlanRun s es r d evs₁ r' d') (ht : InExp s n r d evs t)
    (hc : s.cur < s.callers.length) (hsize : unsizable s.cfg (s.slot r.slot).hw = false)
    (hes : es ≠ []) (hend : r'.plan = []) (g : SlotNo) (l : Bool) :
    ∃ u, execTimes (.exp g l) es.length t = .next u ∧
      ExpEnded s (n + es.length) .ok (regValue r'.Z) d' (evs ++ evs₁) u := by
  induction h generalizing t n evs with
  | nil => exact absurd rfl hes
  | @cons e es rest r r' a b v d d₁ d' evs₁ hp ho hz hv hrest ih =>
    have hexec := ht.exec_entry_of_value hc hsize hp ho hz hv g l
    have hplan : rest = es := by
      have := hrest.plan_eq
      rwa [entryWrites_plan, hend, List.append_nil] at this
    subst hplan
    cases rest with
    | nil =>
      cases hrest
      rw [expAdvance_last] at hexec
      refine ⟨_, (execTimes_cons hexec).trans rfl, ?_⟩
      rw [List.append_nil]
      exact ht.finish hc (noReturn_entryEvents s r e a b v) _ _
    | cons e' rest =>
      obtain ⟨u, hu, hend'⟩ :=
        ih (ht.advance hc (List.cons_ne_nil _ _)) (by rwa [entryWrites_slot]) (List.cons_ne_nil _ _) hend
      refine ⟨u, (execTimes_cons hexec).trans hu, ?_⟩
      rwa [List.append_assoc, Nat.add_assoc, Nat.add_comm 1] at hend'

/-- The step of an entry whose multiply is not sized is the end (R156). -/
theorem InExp.exec_failure (ht : InExp s n r d evs t) (hc : s.cur < s.callers.length)
    (hsize : unsizable s.cfg (s.slot r.slot).hw = false) (hr : RunOk s r) (hz : d.szOkValue = false)
    (g : SlotNo) (l : Bool) :
    ∃ u, exec (.exp g l) t = .next u ∧
      ExpEnded s (n + 1) .hardwareFault .none d.tookSzOk (evs ++ [.acq s.cur, .rel s.cur]) u := by
  obtain ⟨e, rest, hp⟩ := List.exists_cons_of_ne_nil hr.nonempty
  obtain ⟨⟨a, b⟩, ho⟩ := Option.isSome_iff_exists.1 (hr.entryOperands_isSome hp (s.slot r.slot))
  have hexec := ht.exec_entry hc hp ho g l
  have hsize' : unsizable t.cfg (t.slot r.slot).hw = false := by rwa [ht.marks.cfg, ht.slot]
  rw [expEntry_of_failure (.inr (by rwa [ht.draws])), hsize', ht.draws, ht.cur, expFail] at hexec
  exact ⟨_, hexec, ht.finish hc (by simp) _ _⟩

end

/-! EXP from its first step. -/

/-- EXP on slot `h` passes its checks with a non-zero exponent, and its multiplies can be sized: what the
statements about a whole EXP suppose. -/
structure ExpReady (s : State) (h : SlotNo) : Prop where
  cur_lt : s.cur < s.callers.length
  idle : (s.caller s.cur).seq = .idle
  valid : (s.slot h).valid = true
  context : ContextOk s.cfg (s.slot h)
  fits : wc s.op.A ≤ (s.slot h).hw
  exponent : val s.op.B ≠ 0
  sizable : (s.slot h).hw ≤ s.cfg.hwMaxWords
  free : s.holder = none

section
variable {s : State} {h : SlotNo}

theorem ExpReady.unsizable_eq (hs : ExpReady s h) : unsizable s.cfg (s.slot h).hw = false := by
  rw [Bool.eq_false_iff, ne_eq, unsizable_iff_of_pos hs.context.hw_pos, Nat.not_lt]
  exact hs.sizable

theorem ExpReady.runOk (hs : ExpReady s h) (l : Bool) : RunOk s (freshRun h l s) :=
  runOk_freshRun s h l hs.valid hs.fits hs.exponent

/-- The first step, after which no entry has run. -/
theorem ExpReady.exec_start (hs : ExpReady s h) (l : Bool) :
    ∃ t, exec (.exp h l) s = .next t ∧ InExp s 0 (freshRun h l s) s.draws [] t := by
  refine ⟨_, exec_exp_of_idle hs.idle, ?_⟩
  rw [expStart_of_checked hs.valid hs.fits, if_neg hs.exponent]
  exact {
    slots := fun _ => rfl
    marks := ⟨rfl, rfl, rfl, rfl, rfl⟩
    holder := hs.free
    acqCount := rfl
    relCount := rfl
    callers := rfl
    draws := rfl
    evt := (List.append_nil _).symm }

/-- With the sizing draws of all its entries true the whole plan runs. -/
theorem ExpReady.exists_planRun (hs : ExpReady s h) (l : Bool) {more : List Bool}
    (hsz : s.draws.szOk = List.replicate (expSteps (val s.op.B)) true ++ more) :
    ∃ evs r d, PlanRun s (plan (val s.op.B)) (freshRun h l s) s.draws evs r d ∧ d.szOk = more := by
  have hlen := length_plan_eq_expSteps hs.exponent
  obtain ⟨evs, r, d, hrun, hmore, -⟩ := Machine.exists_planRun _ (hs.runOk l) hlen.ge hsz
  have hall : (freshRun h l s).plan.take (expSteps (val s.op.B)) = plan (val s.op.B) :=
    List.take_of_length_le hlen.le
  exact ⟨evs, r, d, hall ▸ hrun, hmore⟩

/-- A run of the whole plan is a run of EXP, of as many hardware steps as R157 says. -/
theorem ExpReady.execTimes_of_planRun (hs : ExpReady s h) {l : Bool} {evs : List Event} {r : SeqRun}
    {d : Draws} (hrun : PlanRun s (plan (val s.op.B)) (freshRun h l s) s.draws evs r d) :
    ∃ t, execTimes (.exp h l) (expSteps (val s.op.B) + 1) s = .next t ∧
      ExpEnded s (expSteps (val s.op.B)) .ok (regValue r.Z) d evs t := by
  obtain ⟨t₀, hstart, hin⟩ := hs.exec_start l
  have hend : r.plan = [] := List.append_right_eq_self.1 hrun.plan_eq.symm
  obtain ⟨t, ht, hended⟩ :=
    hrun.execTimes_of_end hin hs.cur_lt hs.unsizable_eq (List.cons_ne_nil _ _) hend h l
  rw [Nat.zero_add, List.nil_append] at hended
  rw [length_plan_eq_expSteps hs.exponent] at ht hended
  exact ⟨t, (execTimes_cons hstart).trans ht, hended⟩

/-- A whole EXP returns the power of the base, with the factor of two passes (R155, R160). -/
theorem ExpReady.returns_power (hs : ExpReady s h) (l : Bool) {more : List Bool}
    (hred : s.cfg.unreduced = .exact ∨
      (val s.op.A < val (s.slot h).M ∧ 1 < val (s.slot h).M))
    (hsz : s.draws.szOk = List.replicate (expSteps (val s.op.B)) true ++ more) :
    ∃ t d evs, execTimes (.exp h l) (expSteps (val s.op.B) + 1) s = .next t ∧
      ExpEnded s (expSteps (val s.op.B)) .ok (.buffer (bufOf (s.slot h).hw
        (val s.op.A ^ val s.op.B *
          outFactor s.cfg.expPasses (s.slot h).hw (val s.op.B + 2 ^ msb (val s.op.B)) %
            val (s.slot h).M))) d evs t ∧ d.szOk = more := by
  obtain ⟨evs, r, d, hrun, hmore⟩ := hs.exists_planRun l hsz
  obtain ⟨t, ht, hended⟩ := hs.execTimes_of_planRun hrun
  have hend : r.plan = [] := List.append_right_eq_self.1 hrun.plan_eq.symm
  have hX : val (freshRun h l s).X = val s.op.A := val_zext _ _
  have hZ := hrun.answer hend (hs.runOk l) (factorValues_of_none rfl rfl) hs.context (by rwa [hX])
  rw [hX] at hZ
  rw [hZ] at hended
  exact ⟨t, d, evs, ht, hended, hmore⟩

end

/-- Settles O41: one pass leaves no factor in the answer. -/
theorem expReturnsThePower : Obligations.ExpReturnsThePower := by
  intro s h l more hc hq hv hk hX hE hsize hfree hone hred hsz
  have hs : ExpReady s h := ⟨hc, hq, hv, hk, hX, hE, hsize, hfree⟩
  obtain ⟨t, d, evs, ht, hended, hmore⟩ := hs.returns_power l hred hsz
  rw [hone, outFactor, Nat.mul_one] at hended
  exact ⟨t, ht, hended.returned, hended.acqCount, hended.relCount, hended.holder, hended.slots,
    hended.marks, hended.draws ▸ hmore⟩

/-- Settles O45: two passes leave the factor in the answer. -/
theorem twoPassExpReturnsTheScaledPower : Obligations.TwoPassExpReturnsTheScaledPower := by
  intro s h l more hc hq hv hk hX hE hsize hfree htwo hexact hsz
  have hs : ExpReady s h := ⟨hc, hq, hv, hk, hX, hE, hsize, hfree⟩
  obtain ⟨t, d, evs, ht, hended, -⟩ := hs.returns_power l (.inl hexact) hsz
  rw [htwo, outFactor] at hended
  exact ⟨t, ht, hended.returned⟩

/-- Settles O44: O41 at the exponent 1, whose plan has no square. -/
theorem exponentOneRunsNoSquare : Obligations.ExponentOneRunsNoSquare := by
  refine ⟨by decide, fun s h l more hc hq hv hk hX hE hsize hfree hone hexact hsz => ?_⟩
  have hsteps : expSteps (val s.op.B) = 4 := by rw [hE]; decide
  obtain ⟨t, ht, hret, hacq, -⟩ := expReturnsThePower s h l more hc hq hv hk hX (by omega) hsize hfree
    hone (.inl hexact) (by rw [hsteps]; exact hsz)
  rw [hsteps] at ht hacq
  rw [hE, pow_one] at hret
  exact ⟨t, ht, hret, hacq⟩

/-- Settles O43: the entries before the bad draw run, and the next one fails. -/
theorem expFailsAtTheFirstBadSizing : Obligations.ExpFailsAtTheFirstBadSizing := by
  intro s h l j more hc hq hv hk hX hE hsize hfree hj hsz
  have hs : ExpReady s h := ⟨hc, hq, hv, hk, hX, hE, hsize, hfree⟩
  have hlt : j < (freshRun h l s).plan.length := hj.trans_eq (length_plan_eq_expSteps hE).symm
  have htake : ((freshRun h l s).plan.take j).length = j := List.length_take_of_le hlt.le
  obtain ⟨evs, r, d, hrun, hmore, hr⟩ := exists_planRun j (hs.runOk l) hlt.le hsz
  have hne : r.plan ≠ [] := fun hnil => by
    have := congrArg List.length hrun.plan_eq
    rw [hnil, List.append_nil, htake] at this
    omega
  obtain ⟨t₀, hstart, hin⟩ := hs.exec_start l
  obtain ⟨t, ht, hin⟩ := hrun.execTimes_of_rest hin hs.cur_lt hs.unsizable_eq hne h l
  rw [htake] at ht hin
  obtain ⟨u, hu, hended⟩ := hin.exec_failure hs.cur_lt (hrun.slot_eq ▸ hs.unsizable_eq) (hr hne)
    (szOkValue_of_szOk hmore) h l
  rw [Nat.zero_add] at hended
  exact ⟨u, execTimes_snoc ((execTimes_cons hstart).trans ht) hu, hended.returned, hended.acqCount,
    hended.relCount, hended.holder, hended.slots, hended.marks,
    hended.draws ▸ congrArg List.tail hmore⟩

/-- What a caller's record is after a return. -/
theorem Returned.caller_eq {s t : State} {st : Status} {w : RetValue} (h : Returned s t st w) :
    t.caller s.cur =
      { cp := (s.caller s.cur).cp + 1, ret := { status := st, value := w }, seq := .idle,
        stream := (s.caller s.cur).stream } := by
  rw [← h.cp, ← h.ret, ← h.idle, ← h.stream]

/-- Settles O42: the run with the callback off is the quiet one of that with the callback on. -/
theorem expEmitsOneLivenessEventPerBit : Obligations.ExpEmitsOneLivenessEventPerBit := by
  intro s h more hc hq hv hk hX hE hsize hfree hsz
  have hs : ExpReady s h := ⟨hc, hq, hv, hk, hX, hE, hsize, hfree⟩
  obtain ⟨evs, r, d, hrun, -⟩ := hs.exists_planRun true hsz
  obtain ⟨t, ht, hended⟩ := hs.execTimes_of_planRun hrun
  obtain ⟨u, hu, hended'⟩ := hs.execTimes_of_planRun (l := false) hrun.quiet
  have hret : quietEvents s.cur [.ret s.cur .ok] = [.ret s.cur .ok] := rfl
  have hquiet : quietEvents s.cur (evs ++ [.ret s.cur .ok]) =
      quietEvents s.cur evs ++ [.ret s.cur .ok] := by rw [quietEvents_append, hret]
  refine ⟨t, u, evs ++ [Event.ret s.cur .ok], quietEvents s.cur evs ++ [Event.ret s.cur .ok], ht, hu,
    hended.evt.trans (List.append_assoc ..), hended'.evt.trans (List.append_assoc ..), ?_, ?_, hquiet,
    hended.returned.caller_eq.trans hended'.returned.caller_eq.symm⟩
  · rw [List.filterMap_append, hrun.filterMap_liveBit rfl]
    exact (List.append_nil _).trans (filterMap_lastOf_plan hE)
  · rw [← hquiet, filterMap_liveBit_quietEvents]

end Sys2Proof.Machine
end

section
/-! Faults (R30, R202): a fault's own mark stops its caller. -/

namespace Sys2Proof.Machine

theorem raiseFault_enabled (s : State) (k : FaultKind) : (s.raiseFault k).enabled s.cur = false :=
  enabled_eq_false_of_stopped _ _ ((stopped_eq_true_iff _ _).2
    (.inl ⟨_, List.mem_append_right _ List.mem_cons_self, rfl⟩))

/-- EXP's first step checks the context before anything else (R151). -/
theorem exec_exp_of_invalid {s : State} {h : SlotNo} (l : Bool) (hv : (s.slot h).valid = false)
    (hq : s.me.seq = .idle) : exec (.exp h l) s = .next (s.raiseFault .badContext) := by
  rw [exec_exp_of_idle hq, expStart_of_invalid hv]

/-- `BadContext`, by each command that needs a valid context (R202). -/
theorem exec_badContext {s : State} {h : SlotNo} {f : BitVec 3} {l : Bool} {i : Instr}
    (hv : (s.slot h).valid = false)
    (hi : (i = .ctxRead h f ∧ f.toNat < 5) ∨ i = .ctxDestroy h ∨ i = .mult h ∨
      (i = .exp h l ∧ s.me.seq = .idle)) :
    exec i s = .next (s.raiseFault .badContext) := by
  rcases hi with ⟨rfl, hf⟩ | rfl | rfl | ⟨rfl, hq⟩
  · obtain ⟨v, hfield, -⟩ := slotField_of_lt (s.slot h) f hf
    exact exec_ctxRead_of_invalid hv hfield
  · exact exec_ctxDestroy_of_invalid hv
  · exact exec_mult_of_invalid hv
  · exact exec_exp_of_invalid l hv hq

/-- Settles O49: each cause ends in `raiseFault`, whose record stops the caller. -/
theorem faultsRecordAndStop : Obligations.FaultsRecordAndStop := by
  intro s h f l i k hcause
  suffices hexec : exec i s = .next (s.raiseFault k) from ⟨_, hexec, rfl, raiseFault_enabled s k⟩
  rcases hcause with ⟨hv, rfl, hi⟩ | ⟨hv, rfl, rfl⟩ | ⟨hv, hb, rfl, rfl⟩ | ⟨hh, rfl, rfl | rfl⟩ |
    ⟨hh, rfl, rfl⟩
  · exact exec_badContext hv hi
  · exact exec_ctxBuild_of_valid hv
  · exact exec_ctxDestroy_of_borrowed hv hb
  · exact exec_hwModmul_of_not_holder hh
  · exact exec_hwMontmul_of_not_holder hh
  · exact exec_release_of_not_holder hh

end Sys2Proof.Machine
end

section
/-! The callers with no enabled step (R204, R242): marked, at the end of their streams, or held for the
lock. -/

namespace Sys2Proof.Machine

/-- Only an idle caller past the end of its stream has no next command (R37). -/
theorem nextOf_eq_none_iff (s : State) (c : Nat) :
    s.nextOf c = none ↔ (s.caller c).seq = .idle ∧ (s.caller c).stream.length ≤ (s.caller c).cp := by
  cases hq : (s.caller c).seq with
  | idle => simp [State.nextOf, State.fetch, hq]
  | run r => simp [nextOf_run s c r hq]

/-- Why a caller has no enabled step (R13, R30, R204). -/
theorem stopped_or_finished_or_heldFor {s : State} {c : Nat} (hc : c < s.callers.length)
    (hoff : s.enabled c = false) :
    s.stopped c = true ∨
      ((s.caller c).seq = .idle ∧ (s.caller c).stream.length ≤ (s.caller c).cp) ∨ s.heldFor c := by
  cases hstop : s.stopped c with
  | true => exact .inl rfl
  | false =>
    refine .inr ?_
    cases hnext : s.nextOf c with
    | none => exact .inl ((nextOf_eq_none_iff s c).1 hnext)
    | some o =>
      cases o with
      | error e => simp [State.enabled, hc, hstop, hnext] at hoff
      | ok i =>
        refine .inr ⟨hstop, i, hnext, ?_⟩
        rwa [← Bool.not_eq_false, ← enabled_iff_not_waits hc hstop hnext, Bool.not_eq_true]

/-- A caller is held for the lock only while the multiplier has a holder (R204). -/
theorem State.heldFor.exists_holder {s : State} {c : Nat} (hheld : s.heldFor c) (hinv : s.Inv) :
    ∃ d, s.holder = some d := by
  obtain ⟨-, i, -, hw⟩ := hheld
  refine Option.ne_none_iff_exists'.1 fun hfree => ?_
  have hgo : waits i (s.onBehalf c) = false :=
    waits_eq_false_of_free (s := s.onBehalf c) ((held_eq_false_iff _).2 hfree)
      (fun r hq => (hinv.runs c r hq).of_slot_eq rfl rfl) i
  rw [hgo] at hw
  cases hw

/-- Settles O10: a caller is held by some holder, and the holder too has no enabled step. -/
theorem heldAtTheEndIsStuck : Obligations.HeldAtTheEndIsStuck := by
  intro s c hinv hoff hheld
  obtain ⟨d, hd⟩ := hheld.exists_holder hinv
  have hlt : d < s.callers.length := hinv.holder_lt d hd
  exact ⟨d, hd, hlt, .inr (stopped_or_finished_or_heldFor hlt (hoff d))⟩

end Sys2Proof.Machine
end


section
/-! The end of a run (R242): the step function stops when no caller has an enabled step, and only then. -/

namespace Sys2Proof.Machine

theorem nextCaller_eq_none_iff (s : State) :
    s.nextCaller = none ↔ ∀ c, s.enabled c = false := by
  rw [State.nextCaller, choose_eq_none_iff, List.eq_nil_iff_forall_not_mem]
  simp only [mem_enabledCallers, Bool.not_eq_true]

/-- The step of a caller with an enabled step answers a next state. -/
theorem exists_step_eq_next {s : State} {c : Nat} (h : s.nextCaller = some c) :
    ∃ t, step s = .next t := by
  rw [step_eq_stepOf s c h]
  obtain ⟨-, -, ⟨e, hnext⟩ | ⟨i, hnext, -⟩⟩ := enabled_inv s c (nextCaller_enabled s c h)
  · exact ⟨_, stepOf_error _ c e hnext⟩
  · obtain ⟨t, ht, -⟩ := exec_shape i (s.scheduled c)
    exact ⟨t, (stepOf_ok (s.scheduled c) c i hnext).trans ht⟩

theorem step_eq_endOfRun {s : State} (h : s.nextCaller = none) : step s = .fault s.endOfRun := by
  simp only [step, h]

/-- A step goes on, with some caller enabled, or stops with the name of the end of the run. -/
theorem step_next_or_endOfRun (s : State) :
    ((∃ t, step s = .next t) ∧ ¬ ∀ c, s.enabled c = false) ∨
      (step s = .fault s.endOfRun ∧ ∀ c, s.enabled c = false) := by
  rw [← nextCaller_eq_none_iff]
  cases h : s.nextCaller with
  | none => exact .inr ⟨step_eq_endOfRun h, rfl⟩
  | some c => exact .inl ⟨exists_step_eq_next h, nofun⟩

/-- A run has finished when every caller is idle at the end of its stream and nothing is marked. -/
theorem finished_iff (s : State) :
    s.finished = true ↔
      (∀ c, c < s.callers.length →
        (s.caller c).seq = .idle ∧ (s.caller c).cp = (s.caller c).stream.length) ∧
      s.faults = [] ∧ s.refused = [] := by
  have hcaller : ∀ c (h : c < s.callers.length), s.caller c = s.callers[c] :=
    fun c h => List.getD_eq_getElem _ _ h
  simp +contextual only [State.finished, Bool.and_eq_true, List.all_eq_true, beq_iff_eq,
    List.isEmpty_iff, and_assoc, List.forall_mem_iff_getElem, hcaller]

theorem endOfRun_eq_runFinished_iff (s : State) :
    s.endOfRun = .runFinished ↔ s.finished = true := by
  cases hfin : s.finished <;> simp [State.endOfRun, hfin]

/-- Settles O11: a step goes on or is the end of the run, whose name says whether the run has finished. -/
theorem runEndsWhenNoStepIsEnabled : Obligations.RunEndsWhenNoStepIsEnabled := by
  intro s
  rcases step_next_or_endOfRun s with ⟨⟨t, hstep⟩, hsome⟩ | ⟨hstep, hoff⟩ <;> rw [hstep]
  · exact ⟨iff_of_false nofun hsome, iff_of_false nofun fun ⟨_, _, _, hoff⟩ => hsome hoff, nofun⟩
  · refine ⟨iff_of_true ⟨_, rfl⟩ hoff, ?_, nofun⟩
    rw [Host.Outcome.fault.injEq, endOfRun_eq_runFinished_iff, finished_iff]
    exact ⟨fun ⟨hidle, hfaults, hrefused⟩ => ⟨hidle, hfaults, hrefused, hoff⟩,
      fun ⟨hidle, hfaults, hrefused, _⟩ => ⟨hidle, hfaults, hrefused⟩⟩

end Sys2Proof.Machine
end

section
/-! What is left to do for the callers of loaded streams (R20, R37, R153, R242): a number that every step
lowers, by an entry of a plan, the end of a command, or a mark. -/

namespace Sys2Proof.Machine

/-! What is left for one caller. -/

/-- The entries of the plan that a command would load if it were an EXP, and one for its end. -/
def commandWork (cmd : Command) : Nat := (plan (val cmd.op.B)).length + 1

/-- What is left of a stream of which these commands are still to run. -/
def streamWork (cmds : List Command) : Nat := (cmds.map commandWork).sum

/-- What is left to a caller after the command at its command pointer. -/
def Caller.laterWork (x : Caller) : Nat := streamWork (x.stream.drop (x.cp + 1))

/-- What is left to a caller: the entries of the plan in progress, or the command at its command pointer,
and the commands after that. -/
def Caller.work (x : Caller) : Nat :=
  match x.seq with
  | .idle => streamWork (x.stream.drop x.cp)
  | .run r => r.plan.length + x.laterWork

theorem Caller.work_of_run {x : Caller} {r : SeqRun} (h : x.seq = .run r) :
    x.work = r.plan.length + x.laterWork := by
  simp only [Caller.work, h]

theorem Caller.work_of_command {x : Caller} {cmd : Command} (hq : x.seq = .idle)
    (hcmd : x.stream[x.cp]? = some cmd) : x.work = commandWork cmd + x.laterWork := by
  obtain ⟨hlt, rfl⟩ := List.getElem?_eq_some_iff.1 hcmd
  simp only [Caller.work, hq, Caller.laterWork, streamWork, List.drop_eq_getElem_cons hlt,
    List.map_cons, List.sum_cons]

theorem exists_command_of_nextOf {s : State} {c : Nat} {o : Except DecodeError Instr}
    (hnext : s.nextOf c = some o) (hq : (s.caller c).seq = .idle) :
    ∃ cmd, (s.caller c).stream[(s.caller c).cp]? = some cmd := by
  simp only [State.nextOf, hq, State.fetch, Option.map_map, Option.map_eq_some_iff] at hnext
  exact hnext.imp fun _ h => h.1

/-- A command that runs has work of its own. -/
theorem laterWork_lt_work {s : State} {i : Instr} (hnext : s.nextOf s.cur = some (.ok i))
    (hgo : waits i s = false) : s.me.laterWork < s.me.work := by
  cases hq : s.me.seq with
  | idle =>
    obtain ⟨cmd, hcmd⟩ := exists_command_of_nextOf hnext hq
    rw [Caller.work_of_command hq hcmd, commandWork]
    omega
  | run r =>
    rw [nextOf_run s s.cur r hq] at hnext
    cases hnext
    have hplan : r.plan ≠ [] := fun hp => by simp [waits, hq, expWaits, hp] at hgo
    have := List.length_pos_of_ne_nil hplan
    rw [Caller.work_of_run hq]
    omega

/-! What a command leaves to its caller. -/

/-- A return leaves the later commands. -/
theorem NoReturn.retCmd_work {s t : State} (h : NoReturn s t) (hc : s.cur < s.callers.length)
    (st : Status) (v : RetValue) : (t.retCmd st v).me.work = s.me.laterWork := by
  rw [h.retCmd_me hc]; rfl

theorem NoReturn.retMultiply_work {s t : State} (h : NoReturn s t)
    (hc : s.cur < s.callers.length) (v : Option Buf) : (t.retMultiply v).me.work = s.me.laterWork := by
  cases v <;> exact h.retCmd_work hc _ _

/-- A sequencer that runs leaves its plan and the later commands. -/
theorem NoReturn.setSeq_work {s t : State} (h : NoReturn s t) (hc : s.cur < s.callers.length)
    (r : SeqRun) : (t.setSeq (.run r)).me.work = r.plan.length + s.me.laterWork := by
  rw [h.setSeq_me hc]; rfl

theorem raiseFault_stopped (s : State) (k : FaultKind) : (s.raiseFault k).stopped s.cur = true :=
  (stopped_eq_true_iff _ _).2 (.inl ⟨_, List.mem_append_right _ List.mem_cons_self, rfl⟩)

theorem refuseCmd_stopped (s : State) (k : RefusalKind) : (s.refuseCmd k).stopped s.cur = true :=
  (stopped_eq_true_iff _ _).2 (.inr ⟨_, List.mem_append_right _ List.mem_cons_self, rfl⟩)

/-- A command that runs stops its caller and leaves its record, or leaves it less work. -/
theorem ExecShape.stops_or_lowers_work {s t : State} {i : Instr} (h : ExecShape s i t)
    (hc : s.cur < s.callers.length) (hnext : s.nextOf s.cur = some (.ok i))
    (hgo : Machine.waits i s = false) :
    (t.me = s.me ∧ t.stopped s.cur = true) ∨ t.me.work < s.me.work := by
  have hlater : s.me.laterWork < s.me.work := laterWork_lt_work hnext hgo
  cases h with
  | waits i hw => rw [hw] at hgo; cases hgo
  | fault i k => exact .inl ⟨rfl, raiseFault_stopped s k⟩
  | refusal i k => exact .inl ⟨rfl, refuseCmd_stopped s k⟩
  | plain _ d => exact .inr (((noReturn_setDraws s d).retCmd_work hc _ _).trans_lt hlater)
  | build =>
    exact .inr ((((noReturn_setDraws s _).trans (noReturn_setSlot _ _ _)).retCmd_work hc _ _).trans_lt
      hlater)
  | destroy =>
    exact .inr ((((noReturn_setSlot s _ _).trans (noReturn_setDraws _ _)).retCmd_work hc _ _).trans_lt
      hlater)
  | acquire => exact .inr (((noReturn_acquireLock s).retCmd_work hc _ _).trans_lt hlater)
  | release => exact .inr (((noReturn_releaseLock s).retCmd_work hc _ _).trans_lt hlater)
  | primitive _ ps X Y M D p h v t hi hh hr =>
    exact .inr ((hr.noReturn.retMultiply_work hc v).trans_lt hlater)
  | mult h v t hv hshape hfree hr =>
    exact .inr ((hr.noReturn_of_acquireLock.retMultiply_work hc v).trans_lt hlater)
  | expStart h l hq =>
    obtain ⟨cmd, hcmd⟩ := exists_command_of_nextOf hnext hq
    have hop : s.op = cmd.op := op_eq_of_command hcmd
    have hme := (show NoReturn s (s.takeBorrow h) from noReturn_setSlot s h _).setSeq_work hc
      (freshRun h l s)
    rw [hme, Caller.work_of_command hq hcmd, commandWork, freshRun, hop]
    exact .inr (Nat.add_lt_add_right (Nat.lt_succ_self _) _)
  | expFail h l r e rest a b t hq hp ho hfree hr =>
    exact .inr (((hr.noReturn_of_acquireLock.trans (noReturn_returnBorrow _ _)).retCmd_work hc _
      _).trans_lt hlater)
  | expEntry h l r e e' rest a b v t hq hp ho hfree hr =>
    rw [(hr.noReturn_of_acquireLock.trans (noReturn_emitLive _ r e)).setSeq_work hc,
      entryWrites_plan, Caller.work_of_run hq, hp]
    exact .inr (Nat.add_lt_add_right (Nat.lt_succ_self _) _)
  | expLast h l r e a b v t hq hp ho hfree hr =>
    exact .inr ((((hr.noReturn_of_acquireLock.trans (noReturn_emitLive _ r e)).trans
      (noReturn_returnBorrow _ _)).retCmd_work hc _ _).trans_lt hlater)

/-! What is left in the block. -/

/-- What is left to caller `c`: its work, and one for the mark that may stop it. -/
def State.workOf (s : State) (c : Nat) : Nat :=
  (s.caller c).work + if s.stopped c then 0 else 1

/-- What is left to all callers. -/
def State.work (s : State) : Nat := ∑ c ∈ Finset.range s.callers.length, s.workOf c

/-- A step gives another caller no mark and takes none (R30). -/
theorem MarkEffect.stopped_of_ne {s t : State} (h : MarkEffect s t) {c : Nat} (hc : c ≠ s.cur) :
    t.stopped c = s.stopped c := by
  have hother : (s.cur == c) = false := beq_eq_false_iff_ne.2 (Ne.symm hc)
  cases h with
  | none t h => simp only [State.stopped, h.faults, h.refused]
  | fault k => simp [State.stopped, hother]
  | refusal k => simp [State.stopped, hother]

/-- What a step does to the marks and to the callers' records (R13, R30, R213). -/
theorem step_effects {s t : State} (h : step s = .next t) :
    ∃ c, s.nextCaller = some c ∧ c < s.callers.length ∧ MarkEffect (s.scheduled c) t ∧
      CallerEffect (s.scheduled c) t := by
  obtain ⟨c, hc, -, hlt, -, ⟨e, -, rfl⟩ | ⟨i, -, -, -, hshape⟩⟩ := step_cases s t h
  · exact ⟨c, hc, hlt, .refusal _, .stays _ (.of_evt_eq rfl rfl rfl rfl)⟩
  · exact ⟨c, hc, hlt, hshape.markEffect, hshape.callerEffect⟩

/-- A step leaves every other caller what was left to it. -/
theorem step_workOf_of_ne {s t : State} {c d : Nat} (h : step s = .next t)
    (hc : s.nextCaller = some c) (hd : d ≠ c) : t.workOf d = s.workOf d := by
  obtain ⟨c', hc', -, hmark, hcaller⟩ := step_effects h
  obtain rfl : c' = c := Option.some.inj (hc'.symm.trans hc)
  rw [State.workOf, hmark.stopped_of_ne hd, hcaller.others d hd]
  rfl

/-- A step leaves its caller less: a mark is set, or there is less work. -/
theorem step_workOf_lt {s t : State} {c : Nat} (h : step s = .next t)
    (hc : s.nextCaller = some c) : t.workOf c < s.workOf c := by
  obtain ⟨c', hc', -, hlt, hgo, hcase⟩ := step_cases s t h
  obtain rfl : c' = c := Option.some.inj (hc'.symm.trans hc)
  have heffect : (t.caller c' = s.caller c' ∧ t.stopped c' = true) ∨
      (t.caller c').work < (s.caller c').work := by
    rcases hcase with ⟨e, -, rfl⟩ | ⟨i, hnext, hnowait, -, hshape⟩
    · exact .inl ⟨rfl, refuseCmd_stopped (s.scheduled c') _⟩
    · have hcur : t.cur = c' := hshape.callerEffect.frame.2.1
      have hless := hshape.stops_or_lowers_work hlt hnext hnowait
      rwa [State.me, hcur] at hless
  have hmark : (if t.stopped c' then 0 else 1) ≤ 1 := by split <;> decide
  simp only [State.workOf, hgo, Bool.false_eq_true, if_false]
  rcases heffect with ⟨hsame, hstop⟩ | hless
  · rw [hsame, if_pos hstop]; exact Nat.lt_succ_self _
  · omega

/-- Every step leaves less to do. -/
theorem step_work_lt {s t : State} (h : step s = .next t) : t.work < s.work := by
  obtain ⟨c, hc, hlt, -, hcaller⟩ := step_effects h
  have hlen : t.callers.length = s.callers.length := hcaller.frame.2.2
  have hless : t.workOf c < s.workOf c := step_workOf_lt h hc
  rw [State.work, State.work, hlen]
  refine Finset.sum_lt_sum (fun d _ => ?_) ⟨c, Finset.mem_range.2 hlt, hless⟩
  by_cases hd : d = c
  · rw [hd]; exact hless.le
  · exact (step_workOf_of_ne h hc hd).le

/-- Settles O9: every step leaves less to do, and no sequence of numbers falls for ever. -/
theorem loadedStreamsRunOut : Obligations.LoadedStreamsRunOut := by
  intro run
  by_contra! hsteps
  exact not_strictAnti_of_wellFoundedLT (fun n => (run n).work)
    (strictAnti_nat_of_succ_lt fun n => step_work_lt (hsteps n))

end Sys2Proof.Machine
end

section
/-! The scheduler's fairness in every infinite run (R204, R243; assumption logs 4 and 5): a caller that has
an enabled step again and again is scheduled, because its wait falls each time. -/

namespace Sys2Proof.Machine

/-! Further commands from outside (assumption log 5). -/

theorem appendStreams_length (s : State) (more : List (List Command)) :
    (s.appendStreams more).callers.length = s.callers.length := by
  simp

theorem appendStreams_seq (s : State) (more : List (List Command)) (c : Nat) :
    ((s.appendStreams more).caller c).seq = (s.caller c).seq := by
  obtain ⟨cmds, h⟩ := s.appendStreams_caller more c
  rw [h]

theorem appendStreams_runsOnSlot (s : State) (more : List (List Command)) (g : SlotNo) :
    (s.appendStreams more).runsOnSlot g = s.runsOnSlot g := by
  calc (s.appendStreams more).runsOnSlot g
      = s.callers.zipIdx.countP ((fun x => runsOn g x.seq) ∘ Prod.fst) := by
        rw [State.runsOnSlot, State.appendStreams_callers, List.countP_map]; rfl
    _ = s.runsOnSlot g := by rw [← List.countP_map, List.zipIdx_map_fst]; rfl

theorem MarkOk.appendStreams {s : State} {c cp : Nat} (h : MarkOk s c cp)
    (more : List (List Command)) : MarkOk (s.appendStreams more) c cp := by
  obtain ⟨hlt, hcp⟩ := h
  obtain ⟨cmds, hcaller⟩ := s.appendStreams_caller more c
  exact ⟨by rwa [appendStreams_length], by rw [hcaller, hcp]⟩

/-- Commands given from outside keep the invariant, which says nothing of the streams. -/
theorem State.Inv.appendStreams {s : State} (hs : s.Inv) (more : List (List Command)) :
    (s.appendStreams more).Inv :=
  have hlen := appendStreams_length s more
  { hs with
    callers_length := hlen.trans hs.callers_length
    cur_lt := hlen.symm ▸ hs.cur_lt
    holder_lt := fun c hc => hlen.symm ▸ hs.holder_lt c hc
    borrows := fun g => (hs.borrows g).trans (appendStreams_runsOnSlot s more g).symm
    runs := fun c r hr =>
      (hs.runs c r (appendStreams_seq s more c ▸ hr)).of_slot_eq rfl rfl
    no_value := fun c => by
      obtain ⟨cmds, hcaller⟩ := s.appendStreams_caller more c
      rw [hcaller]
      exact hs.no_value c
    fault_marks := fun f hf => MarkOk.appendStreams (hs.fault_marks f hf) more
    refusal_marks := fun f hf => MarkOk.appendStreams (hs.refusal_marks f hf) more
    turns_callers := hlen.symm ▸ hs.turns_callers }

/-- Commands at the end of a stream leave the next command (R37). -/
theorem nextOf_appendStreams {s : State} {c : Nat} {o : Except DecodeError Instr}
    (h : s.nextOf c = some o) (more : List (List Command)) :
    (s.appendStreams more).nextOf c = some o := by
  obtain ⟨cmds, hcaller⟩ := s.appendStreams_caller more c
  cases hq : (s.caller c).seq with
  | run r =>
    rw [nextOf_run s c r hq] at h
    rw [nextOf_run _ c r ((appendStreams_seq s more c).trans hq), h]
  | idle =>
    obtain ⟨cmd, hcmd⟩ := exists_command_of_nextOf h hq
    have hcmd' : ((s.appendStreams more).caller c).stream[((s.appendStreams more).caller c).cp]? =
        some cmd := by
      rw [hcaller]
      exact (List.getElem?_append_left (List.getElem?_eq_some_iff.1 hcmd).1).trans hcmd
    rw [nextOf_idle s c cmd hq hcmd] at h
    rw [nextOf_idle _ c cmd ((appendStreams_seq s more c).trans hq) hcmd', h]

/-! The callers with a command to run. -/

/-- Caller `c` has a command that decodes, or an EXP in progress, and no mark: its step is enabled, or it is
held for the lock (R204). -/
structure State.Ready (s : State) (c : Nat) : Prop where
  lt : c < s.callers.length
  unmarked : s.stopped c = false
  next : ∃ i, s.nextOf c = some (.ok i)

theorem State.heldFor.ready {s : State} {c : Nat} (h : s.heldFor c) : s.Ready c := by
  obtain ⟨hstop, i, hnext, -⟩ := h
  refine ⟨Nat.lt_of_not_le fun hle => ?_, hstop, i, hnext⟩
  have hreset : s.caller c = Caller.reset := List.getD_eq_default _ _ hle
  have hnone : s.nextOf c = none := (nextOf_eq_none_iff s c).2 (by rw [hreset]; exact ⟨rfl, le_rfl⟩)
  rw [hnone] at hnext
  cases hnext

theorem State.Ready.enabled_or_heldFor {s : State} {c : Nat} (h : s.Ready c) :
    s.enabled c = true ∨ s.heldFor c := by
  obtain ⟨hlt, hstop, i, hnext⟩ := h
  cases hw : waits i (s.onBehalf c) with
  | false => exact .inl (enabled_of_not_waits hlt hstop hnext hw)
  | true => exact .inr ⟨hstop, i, hnext, hw⟩

theorem State.Ready.appendStreams {s : State} {c : Nat} (h : s.Ready c)
    (more : List (List Command)) : (s.appendStreams more).Ready c :=
  ⟨by rw [appendStreams_length]; exact h.lt, h.unmarked,
    h.next.imp fun _ hi => nextOf_appendStreams hi more⟩

/-- A step of another caller leaves a caller its command (R30, R213). -/
theorem State.Ready.of_step {s t : State} {c d : Nat} (h : s.Ready c) (hstep : step s = .next t)
    (hd : s.nextCaller = some d) (hc : c ≠ d) : t.Ready c := by
  obtain ⟨d', hd', -, hmark, hcaller⟩ := step_effects hstep
  obtain rfl : d' = d := Option.some.inj (hd'.symm.trans hd)
  have hsame : t.caller c = s.caller c := hcaller.others c hc
  exact ⟨hcaller.frame.2.2.symm ▸ h.lt, (hmark.stopped_of_ne hc).trans h.unmarked,
    h.next.imp fun _ hi => (nextOf_eq_of_caller_eq hsame).trans hi⟩

/-! The holder along a run (R24). -/

/-- A command leaves a held multiplier with its holder, or free. -/
theorem ExecShape.keeps_holder_or_frees {s t : State} {i : Instr} (h : ExecShape s i t)
    (hheld : s.held = true) : t.holder = s.holder ∨ t.holder = none := by
  have hlocked : s.held ≠ false := by rw [hheld]; decide
  cases h with
  | waits | fault | refusal | plain | build | destroy | expStart => exact .inl rfl
  | release => exact .inr rfl
  | primitive _ ps X Y M D p n v t hi hmine hr =>
    exact .inl ((t.retMultiply_holder v).trans (hr.keepsLock hmine).same.holder)
  | acquire hfree => exact absurd hfree hlocked
  | mult h v t hv hs hfree => exact absurd hfree hlocked
  | expFail h l r e rest a b t hq hp ho hfree => exact absurd hfree hlocked
  | expEntry h l r e e' rest a b v t hq hp ho hfree => exact absurd hfree hlocked
  | expLast h l r e a b v t hq hp ho hfree => exact absurd hfree hlocked

theorem step_keeps_holder_or_frees {s t : State} {d : Nat} (hstep : step s = .next t)
    (hd : s.holder = some d) : t.holder = some d ∨ t.holder = none := by
  obtain ⟨c, -, -, -, -, ⟨e, -, rfl⟩ | ⟨i, -, -, -, hshape⟩⟩ := step_cases s t hstep
  · exact .inl hd
  · have hcase := hshape.keeps_holder_or_frees (held_of_holder hd)
    rwa [State.scheduled_holder, hd] at hcase

/-- With the lock free no caller is held for it (R204). -/
theorem State.Ready.enabled_of_free {s : State} {c : Nat} (h : s.Ready c) (hs : s.Inv)
    (hfree : s.holder = none) : s.enabled c = true := by
  refine h.enabled_or_heldFor.resolve_right fun hheld => ?_
  obtain ⟨d, hd⟩ := hheld.exists_holder hs
  rw [hfree] at hd
  cases hd

/-! Infinite runs. -/

/-- A number that never rises and falls again and again does not exist. -/
theorem not_frequently_falling (f : Nat → Nat) (n : Nat) (hle : ∀ m, n ≤ m → f (m + 1) ≤ f m)
    (hlt : ∀ m, n ≤ m → ∃ j, m ≤ j ∧ f (j + 1) < f j) : False := by
  suffices h : ∀ b m, n ≤ m → f m = b → False from h _ n le_rfl rfl
  intro b
  induction b using Nat.strong_induction_on with
  | _ b ih =>
    intro m hm hb
    obtain ⟨j, hj, hfall⟩ := hlt m hm
    have hfj : f j ≤ f m := Nat.le_induction le_rfl
      (fun k hk hfk => (hle k (hm.trans hk)).trans hfk) j hj
    exact ih (f (j + 1)) (hb ▸ hfall.trans_le hfj) (j + 1) (by omega) rfl

section

variable {run : Nat → State}

theorem IsRun.inv (hrun : IsRun run) (h0 : (run 0).Inv) (n : Nat) : (run n).Inv := by
  induction n with
  | zero => exact h0
  | succ n ih =>
    obtain ⟨t, more, hstep, hnext⟩ := hrun n
    rw [hnext]
    exact (stepKeepsTheInvariant _ t ih hstep).appendStreams more

/-- How long caller `c` may still be passed over with an enabled step (R243). -/
def State.waitOf (s : State) (c : Nat) : Nat := turnsWait c s.turns

/-- A step of another caller does not lengthen a caller's wait, and shortens it if the caller has an enabled
step. -/
theorem IsRun.waitOf_succ (hrun : IsRun run) (h0 : (run 0).Inv) {n c : Nat}
    (hc : c < (run n).callers.length) (hother : (run n).nextCaller ≠ some c) :
    (run (n + 1)).waitOf c ≤ (run n).waitOf c ∧
      ((run n).enabled c = true → (run (n + 1)).waitOf c < (run n).waitOf c) := by
  obtain ⟨t, more, hstep, hnext⟩ := hrun n
  obtain ⟨d, hd, -, hmark, -⟩ := step_effects hstep
  have hne : d ≠ c := fun e => hother (e ▸ hd)
  have hturn : c ∈ (run n).turns.map Turn.caller :=
    (hrun.inv h0 n).turns_callers.mem_iff.2 (List.mem_range.2 hc)
  have hwait : (run (n + 1)).waitOf c = turnsWait c ((run n).scheduled d).turns := by
    rw [hnext, State.waitOf, State.appendStreams_turns, hmark.turns]
  rw [hwait]
  exact scheduled_turnsWait (run n) d c hd hne hturn

/-- The number of callers stays (R213). -/
theorem IsRun.length_eq (hrun : IsRun run) (n : Nat) :
    (run n).callers.length = (run 0).callers.length := by
  induction n with
  | zero => rfl
  | succ n ih =>
    obtain ⟨t, more, hstep, hnext⟩ := hrun n
    obtain ⟨d, -, -, -, hcaller⟩ := step_effects hstep
    rw [hnext, appendStreams_length, ← ih]
    exact hcaller.frame.2.2

/-- A caller that has an enabled step again and again is scheduled (R243). -/
theorem IsRun.scheduled_of_frequently_enabled (hrun : IsRun run) (h0 : (run 0).Inv) {c n : Nat}
    (hon : ∀ m, n ≤ m → ∃ j, m ≤ j ∧ (run j).enabled c = true) :
    ∃ m, n ≤ m ∧ (run m).nextCaller = some c := by
  by_contra! hnever
  have hc : ∀ m, c < (run m).callers.length := fun m => by
    obtain ⟨j, -, hj⟩ := hon n le_rfl
    rw [hrun.length_eq m, ← hrun.length_eq j]
    exact (enabled_inv _ c hj).1
  refine not_frequently_falling (fun m => (run m).waitOf c) n (fun m hm => ?_) fun m hm => ?_
  · exact (hrun.waitOf_succ h0 (hc m) (hnever m hm)).1
  · obtain ⟨j, hj, hen⟩ := hon m hm
    exact ⟨j, hj, (hrun.waitOf_succ h0 (hc j) (hnever j (hm.trans hj))).2 hen⟩

theorem IsRun.weaklyFair (hrun : IsRun run) (h0 : (run 0).Inv) : WeaklyFair run :=
  fun _ _ hon => hrun.scheduled_of_frequently_enabled h0 fun m hm => ⟨m, le_rfl, hon m hm⟩

theorem IsRun.fairForLock (hrun : IsRun run) (h0 : (run 0).Inv) : FairForLock run := by
  intro c n hready hfree
  refine hrun.scheduled_of_frequently_enabled h0 fun m hm => ?_
  obtain ⟨j, hj, hnone⟩ := hfree m hm
  refine ⟨j, hj, (hready j (hm.trans hj)).elim id fun hheld => ?_⟩
  exact hheld.ready.enabled_of_free (hrun.inv h0 j) hnone

/-- A caller that is never scheduled keeps its command. -/
theorem IsRun.ready_of_never_scheduled (hrun : IsRun run) {c n : Nat} (hready : (run n).Ready c)
    (hnever : ∀ m, n ≤ m → (run m).nextCaller ≠ some c) (m : Nat) (hm : n ≤ m) :
    (run m).Ready c := by
  induction m, hm using Nat.le_induction with
  | base => exact hready
  | succ m hm ih =>
    obtain ⟨t, more, hstep, hnext⟩ := hrun m
    obtain ⟨d, hd, -, -, -⟩ := step_effects hstep
    rw [hnext]
    exact (ih.of_step hstep hd fun e => hnever m hm (e ▸ hd)).appendStreams more

/-- While no step frees the multiplier, its holder stays. -/
theorem IsRun.holder_stays (hrun : IsRun run) {d m : Nat} (hd : (run m).holder = some d)
    (hheld : ∀ j, m ≤ j → (run j).holder ≠ none) (j : Nat) (hj : m ≤ j) :
    (run j).holder = some d := by
  induction j, hj using Nat.le_induction with
  | base => exact hd
  | succ j hj ih =>
    obtain ⟨t, more, hstep, hnext⟩ := hrun j
    have hfree := hheld (j + 1) (by omega)
    rw [hnext] at hfree ⊢
    exact (step_keeps_holder_or_frees hstep ih).resolve_right hfree

/-- If every holder eventually releases, the lock is free again and again. -/
theorem IsRun.frequently_free (hrun : IsRun run) {n : Nat}
    (hrel : ∀ m d, n ≤ m → (run m).holder = some d → ∃ j, m ≤ j ∧ (run j).holder ≠ some d)
    (m : Nat) (hm : n ≤ m) : ∃ j, m ≤ j ∧ (run j).holder = none := by
  by_contra! hheld
  obtain ⟨d, hd⟩ := Option.ne_none_iff_exists'.1 (hheld m le_rfl)
  obtain ⟨j, hj, hne⟩ := hrel m d hm hd
  exact hne (hrun.holder_stays hd hheld j hj)

theorem IsRun.heldCallersRun (hrun : IsRun run) (h0 : (run 0).Inv) : HeldCallersRun run := by
  intro c n hheld hrel
  by_contra! hnever
  have hready := hrun.ready_of_never_scheduled hheld.ready hnever
  obtain ⟨m, hm, hc⟩ := hrun.fairForLock h0 c n (fun m hm => (hready m hm).enabled_or_heldFor)
    (hrun.frequently_free hrel)
  exact hnever m hm hc

end

/-- Settles O8: strong fairness is the wait's fall at every enabled step; a held caller has one whenever the
lock is free, and releases free it. -/
theorem schedulerIsFair : Obligations.SchedulerIsFair :=
  fun _ h0 hrun => ⟨hrun.weaklyFair h0, hrun.fairForLock h0, hrun.heldCallersRun h0⟩

end Sys2Proof.Machine
end
